-- ==== Sys2Proof/Word.lean ====
section
/-!
DEFINITION. The words of the block and the plainest arithmetic on them: bytes, 16-bit fields, frames, `ceil_div`
(00_scope.md rules R10, R13, R16).
-/

namespace Sys2Proof

/-- A byte: 8 bits, unsigned (R10). -/
abbrev Byte := BitVec 8

/-- A 16-bit field of a frame, and the value of one register (R11, R21). -/
abbrev Word16 := BitVec 16

/-- A frame: a finite byte sequence, `f[0]` the first byte presented (R8, R10). -/
abbrev Frame := List Byte

/-- `ceil_div(n, d)`: the least integer not below `n / d`, for `d > 0` (R13). -/
def ceilDiv (n d : Nat) : Nat := (n + (d - 1)) / d

end Sys2Proof
end

