-- ==== Sys2Proof/Config.lean ====
section
/-!
DEFINITION. What an implementation fixes: the constants and the open parameters of 00_scope.md rule R6, the
configuration records the host hands to `addDevice` (10_state.md R33, 45_host_operations.md R231 to R233), and the
free values, which have no body.
-/

namespace Sys2Proof

namespace Config

/-- `ADDR_MAX` (R6). -/
def addrMax : Nat := 65535
/-- `VALUE_MAX` (R6). -/
def valueMax : Nat := 65535
/-- `UNIT_MIN` (R6). -/
def unitMin : Nat := 1
/-- `UNIT_MAX` (R6). -/
def unitMax : Nat := 247
/-- `BITS_PER_CHAR` (R6, R306). -/
def bitsPerChar : Nat := 11
/-- `HOST_INT_BITS` (R6, decision D28). -/
def hostIntBits : Nat := 32
/-- `RESPONSE_TIMEOUT_MS`: belongs to the surrounding client software; no rule of the block reads it (R6, R311). -/
def responseTimeoutMs : Nat := 1000
/-- `RETRY_MAX_ATTEMPTS`: surrounding client software (R6, R262). -/
def retryMaxAttempts : Nat := 3
/-- `RETRY_DELAY_MS`: surrounding client software (R6, R262). -/
def retryDelayMs : Nat := 100
/-- `TCP_DEFAULT_PORT`: surrounding client software (R6). -/
def tcpDefaultPort : Nat := 502

end Config

/-- The parameters a model takes as arguments (R6). They are no state of the block (R332): `State` carries them as a
record that no step changes, so that every statement about every state covers every setting. DESIGN CHOICE, log 1. -/
structure Params where
  /-- `CRC_ENABLE`: frames on the two channels carry the CRC trailer (R6, R210). -/
  crcEnable : Bool
  /-- `COIL_MSB_FIRST`: the first coil of a byte is bit 7 (R6, R92). -/
  coilMsbFirst : Bool
  /-- `MAX_FRAME_BYTES`: `none` is unbounded (R6, R342). -/
  maxFrameBytes : Option Nat
  /-- `MULTI_WRITE_PRECHECK`: a multiple write checks its range before the first cell (R6, R166, R170). -/
  multiWritePrecheck : Bool
  deriving DecidableEq, Repr

/-- The values the spec gives as defaults; `CRC_ENABLE` is open there, and `false` is the source's own form
(R6). DESIGN CHOICE for `crcEnable`, log 1. -/
def Params.default : Params where
  crcEnable := false
  coilMsbFirst := true
  maxFrameBytes := none
  multiWritePrecheck := false

/-- A signed integer as the host port carries it (R6 `HOST_INT_BITS`, R242). -/
abbrev HostInt := BitVec Config.hostIntBits

/-- Which bound a validation error names (R247). -/
inductive Bound where
  | lower
  | upper
  deriving DecidableEq, Repr, Inhabited

/-- A real number as plain data (R307): a rational as itself, any other real under a name, a sample of the timer (R303),
and the exact operations of R16 on them. `RealNum.value` (Machine/Timer.lean) is the real it stands for. DESIGN CHOICE of
form, log 4. -/
inductive RealNum where
  /-- A rational number. -/
  | rat (q : Rat)
  /-- The real number `Config.freeReal k`, which the model does not know. -/
  | real (k : Nat)
  /-- The `k`-th sample, of the interval from `lo` to `hi` (R303). -/
  | draw (lo hi : RealNum) (k : Nat)
  | add (x y : RealNum)
  | sub (x y : RealNum)
  | mul (x y : RealNum)
  | div (x y : RealNum)
  deriving DecidableEq, Repr

/-- A delay setting: a fixed value or a range, in milliseconds (R33). -/
inductive DelaySetting where
  | fixed (ms : RealNum)
  | range (min max : RealNum)
  deriving DecidableEq, Repr

/-- A device's timing configuration (R33); an absent flag `transmissionEnable` is `false`. -/
structure TimingConfig where
  detectionDelay : Option DelaySetting
  pollingInterval : Option RealNum
  processingDelay : Option DelaySetting
  perRegisterDelay : Option RealNum
  transmissionEnable : Bool
  baudRate : Option RealNum
  deriving DecidableEq, Repr

/-- The configuration `{}`: every field absent (R308). -/
def TimingConfig.empty : TimingConfig where
  detectionDelay := none
  pollingInterval := none
  processingDelay := none
  perRegisterDelay := none
  transmissionEnable := false
  baudRate := none

/-- The operand of `addDevice`: unit id, one seed mapping per bank, optional timing configuration (R231, R232). -/
structure DeviceConfig where
  unitId : HostInt
  holding : List (HostInt × HostInt)
  input : List (HostInt × HostInt)
  coils : List (HostInt × Bool)
  discrete : List (HostInt × Bool)
  timing : Option TimingConfig
  deriving DecidableEq, Repr

namespace Config

/-- FREE VALUE. The `k`-th sample of the timer before it is confined to its interval: any real number (R36, R303).
Log 5. -/
opaque freeDraw : Nat → ℝ

/-- FREE VALUE. The real number that stands under the name `k`: any real, irrational ones included (R307). Log 4. -/
opaque freeReal : Nat → ℝ

/-- FREE VALUE. The bound that a `ValidationError` for an illegal timing configuration names: R247 says the report
carries one, no rule says which. Log 14. -/
opaque timingBound : TimingConfig → Bound

/-- FREE VALUE. Which of several failing seed pairs is the one reported: R232 says the whole operation fails and
gives no order. Log 15. -/
opaque seedReport : DeviceConfig → Nat

end Config

end Sys2Proof
end

