-- ==== Sys2Proof/Syntax.lean ====
section
/-!
DEFINITION. The instructions of the block: one constructor per row of spec/opcode_table.json, that is, per function code
served (00_scope.md R2, 30_encoding.md R93).
-/

namespace Sys2Proof

/-- The eight function codes as names (R93). -/
inductive Fn where
  | readCoils
  | readDiscreteInputs
  | readHoldingRegisters
  | readInputRegisters
  | writeSingleCoil
  | writeSingleRegister
  | writeMultipleCoils
  | writeMultipleRegisters
  deriving DecidableEq, Repr

/-- A request frame as an instruction, its fields as R82, R83 and R87 lay them out. `extra` holds the bytes after the
layout of an `RQ6` request, which no rule but the timer's byte count looks at (R98, R306; DESIGN CHOICE, log 9). For the
two `RQM` requests `byteCount` is the field of byte 6 and `payload` every byte after it; the two need not agree (R165,
R169 say what happens then). -/
inductive Instr where
  | readCoils (unit : Byte) (addr count : Word16) (extra : Frame)
  | readDiscreteInputs (unit : Byte) (addr count : Word16) (extra : Frame)
  | readHoldingRegisters (unit : Byte) (addr count : Word16) (extra : Frame)
  | readInputRegisters (unit : Byte) (addr count : Word16) (extra : Frame)
  | writeSingleCoil (unit : Byte) (addr value : Word16) (extra : Frame)
  | writeSingleRegister (unit : Byte) (addr value : Word16) (extra : Frame)
  | writeMultipleCoils (unit : Byte) (addr count : Word16) (byteCount : Byte) (payload : Frame)
  | writeMultipleRegisters (unit : Byte) (addr count : Word16) (byteCount : Byte) (payload : Frame)
  deriving DecidableEq, Repr

/-- The function an instruction names. -/
def Instr.fn : Instr → Fn
  | .readCoils _ _ _ _ => .readCoils
  | .readDiscreteInputs _ _ _ _ => .readDiscreteInputs
  | .readHoldingRegisters _ _ _ _ => .readHoldingRegisters
  | .readInputRegisters _ _ _ _ => .readInputRegisters
  | .writeSingleCoil _ _ _ _ => .writeSingleCoil
  | .writeSingleRegister _ _ _ _ => .writeSingleRegister
  | .writeMultipleCoils _ _ _ _ _ => .writeMultipleCoils
  | .writeMultipleRegisters _ _ _ _ _ => .writeMultipleRegisters

/-- Byte 0 of the request: the addressed unit (R81). -/
def Instr.unit : Instr → Byte
  | .readCoils u _ _ _ => u
  | .readDiscreteInputs u _ _ _ => u
  | .readHoldingRegisters u _ _ _ => u
  | .readInputRegisters u _ _ _ => u
  | .writeSingleCoil u _ _ _ => u
  | .writeSingleRegister u _ _ _ => u
  | .writeMultipleCoils u _ _ _ _ => u
  | .writeMultipleRegisters u _ _ _ _ => u

/-- The address field, bytes 2 and 3 (R87). -/
def Instr.addr : Instr → Word16
  | .readCoils _ a _ _ => a
  | .readDiscreteInputs _ a _ _ => a
  | .readHoldingRegisters _ a _ _ => a
  | .readInputRegisters _ a _ _ => a
  | .writeSingleCoil _ a _ _ => a
  | .writeSingleRegister _ a _ _ => a
  | .writeMultipleCoils _ a _ _ _ => a
  | .writeMultipleRegisters _ a _ _ _ => a

/-- How many cells a request covers: its quantity field, or 1 for the two single writes (R57). -/
def Instr.cells : Instr → Nat
  | .readCoils _ _ c _ => c.toNat
  | .readDiscreteInputs _ _ c _ => c.toNat
  | .readHoldingRegisters _ _ c _ => c.toNat
  | .readInputRegisters _ _ c _ => c.toNat
  | .writeSingleCoil _ _ _ _ => 1
  | .writeSingleRegister _ _ _ _ => 1
  | .writeMultipleCoils _ _ c _ _ => c.toNat
  | .writeMultipleRegisters _ _ c _ _ => c.toNat

end Sys2Proof
end

