-- ==== Sys2Proof/WellFormed.lean ====
section
/-!
DEFINITION. Which instructions fit the layouts of 30_encoding.md to the last byte. The machine gives the others a meaning
too (they are answered as R98, R162, R165 and R169 say); well-formedness is what the client's builder produces (R182 to
R189).
-/

namespace Sys2Proof

/-- The two values of the single-coil field (R88). -/
def isCoilSentinel (p : Word16) : Bool := p = 0xFF00#16 || p = 0x0000#16

/-- An `RQ6` request ends after byte 5 (R82); a 0x05 request carries a sentinel (R88); an `RQM` request has
`len(f) = 7 + byteCount` (R83) and a `byteCount` that fits its quantity (R90). -/
def WellFormed : Instr → Bool
  | .readCoils _ _ _ extra => extra = []
  | .readDiscreteInputs _ _ _ extra => extra = []
  | .readHoldingRegisters _ _ _ extra => extra = []
  | .readInputRegisters _ _ _ extra => extra = []
  | .writeSingleCoil _ _ p extra => extra = [] && isCoilSentinel p
  | .writeSingleRegister _ _ _ extra => extra = []
  | .writeMultipleCoils _ _ count byteCount payload =>
    byteCount.toNat = payload.length && byteCount.toNat = ceilDiv count.toNat 8
  | .writeMultipleRegisters _ _ count byteCount payload =>
    byteCount.toNat = payload.length && byteCount.toNat = 2 * count.toNat

end Sys2Proof
end

