-- ==== Sys2Proof/Decode.lean ====
section
/-!
DEFINITION. The decoder and the encoder of request frames (30_encoding.md R81 to R98; spec/opcode_table.json). Decoding is
total on byte sequences and rejects by name; a rejected frame is no refusal of the machine: the dispatcher answers it with
the exception frame of 40_dispatch.md R121, R124 or R125. All of this is about the core frame (R15).
-/

namespace Sys2Proof

/-- `hi8(v) = v[15:8]` (R11). -/
def hi8 (v : Word16) : Byte := v.extractLsb' 8 8

/-- `lo8(v) = v[7:0]` (R11). -/
def lo8 (v : Word16) : Byte := v.extractLsb' 0 8

/-- `be16`: the high byte comes first, `f[i] × 256 + f[i+1]` (R11). -/
def be16 (hi lo : Byte) : Word16 := BitVec.ofNat 16 (hi.toNat * 256 + lo.toNat)

/-- One row of the opcode table: matched on frame byte 1 (R93). -/
structure FnRow where
  pattern : Byte
  mask : Byte
  fn : Fn
  deriving DecidableEq, Repr

/-- The opcode table (R93, R123; spec/opcode_table.json). -/
def fnTable : List FnRow :=
  [ ⟨0x01#8, 0xFF#8, .readCoils⟩,
    ⟨0x02#8, 0xFF#8, .readDiscreteInputs⟩,
    ⟨0x03#8, 0xFF#8, .readHoldingRegisters⟩,
    ⟨0x04#8, 0xFF#8, .readInputRegisters⟩,
    ⟨0x05#8, 0xFF#8, .writeSingleCoil⟩,
    ⟨0x06#8, 0xFF#8, .writeSingleRegister⟩,
    ⟨0x0F#8, 0xFF#8, .writeMultipleCoils⟩,
    ⟨0x10#8, 0xFF#8, .writeMultipleRegisters⟩ ]

/-- Whether a function-code byte is the one of a row. -/
def FnRow.covers (r : FnRow) (fc : Byte) : Bool := fc &&& r.mask = r.pattern

/-- `Table(fc)`: the handler of a function code, or none (R123). -/
def fnOf (fc : Byte) : Option Fn := (fnTable.find? (fun r => r.covers fc)).map FnRow.fn

/-- The function-code byte of a handler (R93). -/
def Fn.code : Fn → Byte
  | .readCoils => 0x01#8
  | .readDiscreteInputs => 0x02#8
  | .readHoldingRegisters => 0x03#8
  | .readInputRegisters => 0x04#8
  | .writeSingleCoil => 0x05#8
  | .writeSingleRegister => 0x06#8
  | .writeMultipleCoils => 0x0F#8
  | .writeMultipleRegisters => 0x10#8

/-- The minimum length of a function's core request frame (R95). -/
def Fn.minLength : Fn → Nat
  | .readCoils => 6
  | .readDiscreteInputs => 6
  | .readHoldingRegisters => 6
  | .readInputRegisters => 6
  | .writeSingleCoil => 6
  | .writeSingleRegister => 6
  | .writeMultipleCoils => 7
  | .writeMultipleRegisters => 7

/-- Why a frame is no instruction. -/
inductive DecodeError where
  /-- Fewer than two bytes: no function code; `unit` is byte 0, or 0 when there is none (R121). -/
  | noFunctionCode (unit : Byte)
  /-- Byte 1 is none of the eight function codes (R97, R124). -/
  | unknownFunction (unit fc : Byte)
  /-- The frame is shorter than its function's minimum (R95, R125). -/
  | belowMinimum (unit fc : Byte)
  deriving DecidableEq, Repr

/-- What decoding a frame gives. -/
inductive Decoded where
  | instr (i : Instr)
  | rejected (why : DecodeError)
  deriving DecidableEq, Repr

/-- The fields of an `RQ6` frame after its header (R82); bytes past the layout are kept apart (R98). -/
def decodeRq6 (u fc : Byte) (mk : Byte → Word16 → Word16 → Frame → Instr) : Frame → Decoded
  | ah :: al :: ph :: pl :: extra => .instr (mk u (be16 ah al) (be16 ph pl) extra)
  | _ => .rejected (.belowMinimum u fc)

/-- The fields of an `RQM` frame after its header (R83). -/
def decodeRqm (u fc : Byte) (mk : Byte → Word16 → Word16 → Byte → Frame → Instr) : Frame → Decoded
  | ah :: al :: ch :: cl :: n :: payload => .instr (mk u (be16 ah al) (be16 ch cl) n payload)
  | _ => .rejected (.belowMinimum u fc)

/-- The body of a frame whose function is known. -/
def decodeBody (u fc : Byte) (body : Frame) : Fn → Decoded
  | .readCoils => decodeRq6 u fc .readCoils body
  | .readDiscreteInputs => decodeRq6 u fc .readDiscreteInputs body
  | .readHoldingRegisters => decodeRq6 u fc .readHoldingRegisters body
  | .readInputRegisters => decodeRq6 u fc .readInputRegisters body
  | .writeSingleCoil => decodeRq6 u fc .writeSingleCoil body
  | .writeSingleRegister => decodeRq6 u fc .writeSingleRegister body
  | .writeMultipleCoils => decodeRqm u fc .writeMultipleCoils body
  | .writeMultipleRegisters => decodeRqm u fc .writeMultipleRegisters body

/-- Decode a core request frame (R81: the header is read before anything else). -/
def decode : Frame → Decoded
  | [] => .rejected (.noFunctionCode 0x00#8)
  | [u] => .rejected (.noFunctionCode u)
  | u :: fc :: body =>
    match fnOf fc with
    | none => .rejected (.unknownFunction u fc)
    | some fn => decodeBody u fc body fn

/-- The bytes of an `RQ6` request (R82). -/
def encodeRq6 (u fc : Byte) (addr p : Word16) (extra : Frame) : Frame :=
  [u, fc, hi8 addr, lo8 addr, hi8 p, lo8 p] ++ extra

/-- The bytes of an `RQM` request (R83). -/
def encodeRqm (u fc : Byte) (addr count : Word16) (byteCount : Byte) (payload : Frame) : Frame :=
  [u, fc, hi8 addr, lo8 addr, hi8 count, lo8 count, byteCount] ++ payload

/-- The core request frame of an instruction (R82, R83, R93). -/
def encode : Instr → Frame
  | .readCoils u a c x => encodeRq6 u 0x01#8 a c x
  | .readDiscreteInputs u a c x => encodeRq6 u 0x02#8 a c x
  | .readHoldingRegisters u a c x => encodeRq6 u 0x03#8 a c x
  | .readInputRegisters u a c x => encodeRq6 u 0x04#8 a c x
  | .writeSingleCoil u a v x => encodeRq6 u 0x05#8 a v x
  | .writeSingleRegister u a v x => encodeRq6 u 0x06#8 a v x
  | .writeMultipleCoils u a c n p => encodeRqm u 0x0F#8 a c n p
  | .writeMultipleRegisters u a c n p => encodeRqm u 0x10#8 a c n p

/-- `registerCount(f)` of the timer: 1 for the two single writes, the quantity field of the other six functions when
the frame holds one, else 0 (60_exceptions.md R305). -/
def registerCount : Frame → Nat
  | _ :: fc :: body =>
    match fnOf fc with
    | none => 0
    | some .writeSingleCoil => 1
    | some .writeSingleRegister => 1
    | some _ =>
      match body with
      | _ :: _ :: ch :: cl :: _ => (be16 ch cl).toNat
      | _ => 0
  | _ => 0

/-- The first `n` bytes of a number, least significant byte first. -/
def bytesOfNat : Nat → Nat → Frame
  | 0, _ => []
  | n + 1, w => BitVec.ofNat 8 w :: bytesOfNat n (w / 256)

/-- The core frame of a word numbered as spec/opcode_table.json numbers it. The table numbers a row's fixed field as
bits 7..0 and says that field is frame byte 1 ("opcode_byte": 1), so a word below 256 is the function-code byte alone; a
larger word is the frame itself, byte 0 in bits 7..0. (A frame whose word is below 256 has function byte 0x00, which no
row matches, so no instruction is lost.) Bytes above the word are 0, down to the function's minimum length. Log 10. -/
def tableFrame (nbits w : Nat) : Frame :=
  let v := if w < 256 then w * 256 else w
  let need := match fnOf (BitVec.ofNat 8 (v / 256)) with
    | some fn => fn.minLength
    | none => 2
  bytesOfNat (max (nbits / 8) need) v

/-- The instruction the decoder reads from an opcode-table word. -/
def decodeTableWord (nbits w : Nat) : Option Instr :=
  match decode (tableFrame nbits w) with
  | .instr i => some i
  | .rejected _ => none

end Sys2Proof
end

