-- ==== Sys2Proof/Machine/State.lean ====
section
/-!
DEFINITION. The state of the block (10_state.md R20 to R38), the environment it is driven by (00_scope.md R3, R7), the
reasons a step can stop, and the state after reset. Plain data throughout.
-/

namespace Sys2Proof.Machine

open Sys2Proof

/-- The two register banks of a device (R21, R22). -/
inductive RegBank where
  | HR
  | IR
  deriving DecidableEq, Repr

/-- The two bit banks of a device (R23, R24). -/
inductive BitBank where
  | CO
  | DI
  deriving DecidableEq, Repr

/-- One bank: a sparse map from addresses to values (R25), as a list of (address, value) pairs with rising addresses and no
entry equal to what an unlisted address reads as. -/
abbrev Bank (α : Type) := List (Nat × α)

/-- What an unlisted register reads as (R25: "Reading an unset address returns `0`"). -/
abbrev unsetRegister : Word16 := 0#16

/-- What an unlisted coil or discrete input reads as (R25: "... / `false`"). -/
abbrev unsetBit : Bool := false

/-- A device record (R32): its unit id, its four banks (R21 to R24) and its optional timing configuration (R33). -/
structure Device where
  unitId : Nat
  holding : Bank Word16
  input : Bank Word16
  coils : Bank Bool
  discrete : Bank Bool
  timing : Option TimingConfig
  deriving DecidableEq, Repr

/-- The device table with every bank (R31): the block's whole memory, a full store address being (unit id, bank,
address) (R50). Records stand in rising order of unit id. -/
abbrev Memory := List Device

/-- Which argument a validation error is about (R247). -/
inductive ValidationField where
  | address
  | value
  | unitId
  | timing
  deriving DecidableEq, Repr

/-- What a `ValidationError` carries (R247). -/
structure ValidationError where
  field : ValidationField
  bound : Bound
  deriving DecidableEq, Repr

/-- The host exceptions (R280). -/
inductive HostError where
  /-- An argument out of range (R53, R231, R233). -/
  | validation (e : ValidationError)
  /-- `addDevice` of a unit id already in use (R231). -/
  | deviceExists (unitId : HostInt)
  /-- A store operation on an absent unit (R246). -/
  | deviceNotFound (unitId : HostInt)
  deriving DecidableEq, Repr

/-- The operations of the host port (R230). -/
inductive HostOp where
  | addDevice (config : DeviceConfig)
  | removeDevice (unitId : HostInt)
  | getDevice (unitId : HostInt)
  | start
  | stop
  | getHoldingRegister (unitId addr : HostInt)
  | getInputRegister (unitId addr : HostInt)
  | getCoil (unitId addr : HostInt)
  | getDiscreteInput (unitId addr : HostInt)
  | setHoldingRegister (unitId addr value : HostInt)
  | setInputRegister (unitId addr value : HostInt)
  | setCoil (unitId addr : HostInt) (value : Bool)
  | setDiscreteInput (unitId addr : HostInt) (value : Bool)
  deriving DecidableEq, Repr

/-- What a host operation returns or reports (R17, R230). -/
inductive HostResult where
  /-- The operation succeeded and returns nothing. -/
  | done
  /-- `addDevice` and `getDevice`: the record, or none (R231, R235). -/
  | device (d : Option Device)
  /-- A register read (R238, R239). -/
  | register (v : Word16)
  /-- A coil or discrete-input read (R240, R241). -/
  | bit (b : Bool)
  /-- The operation failed and changed nothing (R280). -/
  | error (e : HostError)
  deriving DecidableEq, Repr

/-- One move of one agent (R3). The environment's moves are inputs, and the order in which all agents move is the
environment's too; DESIGN CHOICE, log 2. -/
inductive Turn where
  /-- The host presents a request frame on the request channel (R7). -/
  | submit (f : Frame)
  /-- The dispatcher accepts the next request, if it may (R119, R120). -/
  | dispatch
  /-- The host's clock advances by so many milliseconds (R309). -/
  | clock (ms : RealNum)
  /-- The timer presents the pending response, if it is due (R309). -/
  | timer
  /-- The host calls an operation of the host port (R230). -/
  | host (op : HostOp)
  /-- The host takes the oldest presented response (R7). -/
  | take
  /-- Reset (R330, R331). -/
  | reset
  deriving DecidableEq, Repr

/-- The whole state. `memory`, `run`, `busy`, `pending` and `due` are the spec's (R20); `waited` is the timer's running
wait (R310); `requests`, `responses` and `results` are the two channels and the host port (R7); `params`, `turns` and
`draws` are the model's own (logs 1, 2 and 5). -/
structure State where
  /-- The parameters of R6; no step changes them (log 1). -/
  params : Params
  /-- The device table and its banks (R31, R32). -/
  memory : Memory
  /-- The RUN flag (R34). -/
  run : Bool
  /-- `BUSY` (R35). -/
  busy : Bool
  /-- `PENDING`: the finished response as it will stand on the response channel (R35, R210). -/
  pending : Option Frame
  /-- `DUE`: the delay in milliseconds that must elapse before `PENDING` is presented (R35). -/
  due : RealNum
  /-- The running wait: milliseconds since the request was accepted (R309, R310). -/
  waited : RealNum
  /-- Request frames waiting on the request channel, oldest first (R119). -/
  requests : List Frame
  /-- Response frames presented on the response channel and not yet taken, oldest first (R7, R62). -/
  responses : List Frame
  /-- What the host operations returned or reported, oldest first (R17). -/
  results : List HostResult
  /-- The moves still to come; when none is listed the block moves by itself (log 2). -/
  turns : List Turn
  /-- How many samples the timer has drawn: the index of the next free value (log 5). -/
  draws : Nat
  deriving DecidableEq, Repr

/-- Why the machine stops with a fault. It has no constructor: the dispatcher is total, "does not fault, hang or refuse"
(R130), no case of the block is `stuck` (93_implementation_defined.md part 2), and every host failure is a reported
result (R230). Log 18. -/
inductive Fault where
  deriving DecidableEq, Repr

/-- Why a step has no meaning. -/
inductive Refusal where
  /-- Raised by an arm of `exec` that has no meaning yet. Safe. No arm of this model raises it. -/
  | notModelled (mnemonic : String)
  /-- Raised by the dispatcher when a finite `MAX_FRAME_BYTES` is set and the request frame is longer: R342 gives such a
  frame no meaning. Safe. -/
  | requestTooLong
  /-- Raised by the four reads when a finite `MAX_FRAME_BYTES` is set and the response would not fit: R147 says the model
  refuses it and must not shorten it. Safe. -/
  | responseTooLong
  deriving DecidableEq, Repr

/-- The state after reset for given parameters (R38, R331): no device, RUN clear, nothing pending; frames on the channels
are lost (R331). -/
def State.resetWith (p : Params) : State where
  params := p
  memory := []
  run := false
  busy := false
  pending := none
  due := .rat 0
  waited := .rat 0
  requests := []
  responses := []
  results := []
  turns := []
  draws := 0

/-- The machine right after reset (R38, R331), with the spec's default parameters (log 1). -/
def State.reset : State := State.resetWith Params.default

end Sys2Proof.Machine
end

