-- ==== Sys2Proof/Machine/Operands.lean ====
section
/-!
DEFINITION. The operand forms of 30_encoding.md: the coil sentinel (R88), the register payload (R89), the coil packing
(R92), and the byte counts (R84, R91).
-/

namespace Sys2Proof.Machine

open Sys2Proof

/-- The coil value a 0x05 request's `p` field stands for, none for any other value (R88, R162). -/
def coilOfSentinel (p : Word16) : Option Bool :=
  if p = 0xFF00#16 then some true else if p = 0x0000#16 then some false else none

/-- The `p` field for a coil value (R88, R186). -/
def sentinelOfCoil (b : Bool) : Word16 := if b then 0xFF00#16 else 0x0000#16

/-- Registers as payload bytes, two each, high byte first (R89). -/
def registerBytes (vs : List Word16) : Frame := vs.flatMap fun v => [hi8 v, lo8 v]

/-- The registers of a payload: register `i` is `be16` of bytes `2i` and `2i + 1` (R89). -/
def registersOf : Frame → List Word16
  | h :: l :: rest => be16 h l :: registersOf rest
  | _ => []

/-- `pos(i)`: the bit of its byte that coil `i` stands in (R92). -/
def bitPos (msbFirst : Bool) (i : Nat) : Nat := if msbFirst then 7 - i % 8 else i % 8

/-- The byte of the first eight of a list of coils, missing ones 0 (R92). -/
def packByte (msbFirst : Bool) (bits : List Bool) : Byte :=
  (List.range 8).foldl
    (fun acc i => if bits.getD i false then acc ||| (1#8 <<< bitPos msbFirst i) else acc) 0#8

/-- Coils packed eight to a byte, pad bits 0 (R92): `ceil_div(n, 8)` bytes. -/
def packBits (msbFirst : Bool) (bits : List Bool) : Frame :=
  (List.range (ceilDiv bits.length 8)).map fun k => packByte msbFirst (bits.drop (8 * k))

/-- Coil `i` of a packed payload: bit `pos(i)` of byte `i div 8` (R92). -/
def payloadBit (msbFirst : Bool) (payload : Frame) (i : Nat) : Bool :=
  (payload.getD (i / 8) 0#8).getLsbD (bitPos msbFirst i)

/-- The first `count` coils of a packed payload; pad bits are not looked at (R92, R171). -/
def unpackBits (msbFirst : Bool) (payload : Frame) (count : Nat) : List Bool :=
  (List.range count).map (payloadBit msbFirst payload)

/-- The `byteCount` byte of a read response: `L mod 256` (R91). -/
def byteCountOf (n : Nat) : Byte := BitVec.ofNat 8 n

/-- The success response to a read: header, `byteCount`, data (R84). -/
def readResponse (u fc : Byte) (data : Frame) : Frame := [u, fc, byteCountOf data.length] ++ data

/-- The success response to a write: the first six bytes of the request (R85, R86). -/
def writeResponse (f : Frame) : Frame := f.take 6

end Sys2Proof.Machine
end

