-- ==== Sys2Proof/Machine/Flags.lean ====
section
/-!
DEFINITION. The block has no status flags (10_state.md R29). The one condition a response carries is bit 7 of its
function-code byte, which lives in the frame (30_encoding.md R96).
-/

namespace Sys2Proof.Machine

open Sys2Proof

/-- `fc OR 0x80` (R16, R96): unchanged when bit 7 is already set. -/
def withErrorBit (fc : Byte) : Byte := fc ||| 0x80#8

/-- Whether bit 7 of a function-code byte is set (R29, R96). -/
def hasErrorBit (fc : Byte) : Bool := fc.getLsbD 7

end Sys2Proof.Machine
end

