-- ==== Sys2Proof/Machine/Crc.lean ====
section
/-!
DEFINITION. The CRC-16/MODBUS framing stage (44_crc_framing.md R210 to R221): a wrapper between the channels and the rest of
the block, switched by `CRC_ENABLE`.
-/

namespace Sys2Proof.Machine

open Sys2Proof

/-- One of the eight shift steps of `Crc16` (R212). -/
def crcShift (crc : Word16) : Word16 :=
  if crc.getLsbD 0 then (crc >>> 1) ^^^ 0xA001#16 else crc >>> 1

/-- The eight shift steps in a row (R212). -/
def crcShift8 (crc : Word16) : Word16 :=
  crcShift (crcShift (crcShift (crcShift (crcShift (crcShift (crcShift (crcShift crc)))))))

/-- One byte of the running checksum: into the low byte, then eight shifts (R212). -/
def crcByte (crc : Word16) (b : Byte) : Word16 := crcShift8 (crc ^^^ b.setWidth 16)

/-- The running checksum over a byte sequence. -/
def crcFrom (crc : Word16) (s : Frame) : Word16 := s.foldl crcByte crc

/-- `Crc16(s)` (R211, R212). -/
def crc16 (s : Frame) : Word16 := crcFrom 0xFFFF#16 s

/-- The two trailer bytes of a core frame, low byte first (R214). -/
def crcTrailer (c : Frame) : Frame := [lo8 (crc16 c), hi8 (crc16 c)]

/-- `AddCrc(c)` (R215). -/
def addCrc (c : Frame) : Frame := c ++ crcTrailer c

/-- `CheckStrip(w)`: the core frame when the trailer is right, none for `Bad` (R216). -/
def checkStrip (w : Frame) : Option Frame :=
  if w.length < 2 then none
  else if w.drop (w.length - 2) = crcTrailer (w.take (w.length - 2)) then some (w.take (w.length - 2))
  else none

/-- A core frame as it stands on a channel (R15, R210). -/
def frameOut (p : Params) (c : Frame) : Frame := if p.crcEnable then addCrc c else c

/-- The core frame of a frame on a channel, none when the framing stage finds it bad (R210, R216). -/
def frameIn (p : Params) (w : Frame) : Option Frame := if p.crcEnable then checkStrip w else some w

/-- How many bytes a core frame takes on the channel: the two trailer bytes count with `CRC_ENABLE` (R306, R342). -/
def channelLength (p : Params) (n : Nat) : Nat := if p.crcEnable then n + 2 else n

/-- Whether so many bytes on a channel are within `MAX_FRAME_BYTES` (R6, R342). -/
def fitsChannel (p : Params) (n : Nat) : Bool :=
  match p.maxFrameBytes with
  | none => true
  | some m => n ≤ m

end Sys2Proof.Machine
end

