-- ==== Sys2Proof/Machine/Timer.lean ====
section
/-!
DEFINITION. Real numbers as plain data, the synthetic-delay timer's arithmetic (60_exceptions.md R300 to R308) and the
legality of a timing configuration (10_state.md R33, 45_host_operations.md R233). Times are exact real milliseconds (R307,
log 4). The order of the reals is no program, so what compares two of them is marked `noncomputable`; two rationals are
compared by evaluation.
-/

namespace Sys2Proof

/-- The real number that a `RealNum` stands for. A sample is the free value confined to its interval, so it is any real of
the interval, both ends included (R303). -/
noncomputable def RealNum.value : RealNum → ℝ
  | .rat q => (q : ℝ)
  | .real k => Config.freeReal k
  | .draw lo hi k => max lo.value (min hi.value (Config.freeDraw k))
  | .add x y => x.value + y.value
  | .sub x y => x.value - y.value
  | .mul x y => x.value * y.value
  | .div x y => x.value / y.value

/-- `x ≤ y`, compared as real numbers. -/
noncomputable def RealNum.le (x y : RealNum) : Bool :=
  match x, y with
  | .rat p, .rat q => p ≤ q
  | _, _ => @decide (x.value ≤ y.value) (Classical.propDecidable _)

/-- `x + y`; a rational when both are. -/
def RealNum.plus (x y : RealNum) : RealNum :=
  match x, y with
  | .rat p, .rat q => .rat (p + q)
  | _, _ => .add x y

/-- `x − y`; a rational when both are. -/
def RealNum.minus (x y : RealNum) : RealNum :=
  match x, y with
  | .rat p, .rat q => .rat (p - q)
  | _, _ => .sub x y

/-- `x × y`; a rational when both are. -/
def RealNum.times (x y : RealNum) : RealNum :=
  match x, y with
  | .rat p, .rat q => .rat (p * q)
  | _, _ => .mul x y

/-- `x / y`; a rational when both are. -/
def RealNum.over (x y : RealNum) : RealNum :=
  match x, y with
  | .rat p, .rat q => .rat (p / q)
  | _, _ => .div x y

namespace Machine

/-- A delay setting's legal values: `v ≥ 0`, or `0 ≤ min ≤ max` (R33). -/
noncomputable def legalSetting : DelaySetting → Bool
  | .fixed v => RealNum.le (.rat 0) v
  | .range a b => RealNum.le (.rat 0) a && RealNum.le a b

/-- A timing configuration is legal when every field present has a legal value and an enabled transmission term has a
`baudRate` (R33, R233). -/
noncomputable def legalTiming (t : TimingConfig) : Bool :=
  t.detectionDelay.all legalSetting
    && t.pollingInterval.all (fun p => RealNum.le (.rat 0) p)
    && t.processingDelay.all legalSetting
    && t.perRegisterDelay.all (fun r => RealNum.le (.rat 0) r)
    && t.baudRate.all (fun b => !RealNum.le b (.rat 0))
    && (!t.transmissionEnable || t.baudRate.isSome)

/-- `draw(lo, hi)`: the `k`-th sample, any real number of the interval (R303). Log 5. -/
def draw (lo hi : RealNum) (k : Nat) : RealNum := .draw lo hi k

/-- The value of a delay setting, and the index of the next free value (R302 to R304). -/
def sampleSetting (k : Nat) : DelaySetting → RealNum × Nat
  | .fixed v => (v, k)
  | .range a b => (draw a b k, k + 1)

/-- The detection term: `detectionDelay` when present, else a sample of `[0, pollingInterval]`, else 0 (R302). -/
def detection (t : TimingConfig) (k : Nat) : RealNum × Nat :=
  match t.detectionDelay with
  | some d => sampleSetting k d
  | none =>
    match t.pollingInterval with
    | some p => (draw (.rat 0) p k, k + 1)
    | none => (.rat 0, k)

/-- The processing term (R304). -/
def processing (t : TimingConfig) (k : Nat) : RealNum × Nat :=
  match t.processingDelay with
  | some d => sampleSetting k d
  | none => (.rat 0, k)

/-- The per-register term: `perRegisterDelay × registerCount(f)` (R305). -/
def perRegister (t : TimingConfig) (f : Frame) : RealNum :=
  match t.perRegisterDelay with
  | some r => RealNum.times r (.rat (registerCount f : Rat))
  | none => .rat 0

/-- The transmission term: `frameBytes × 11 × 1000 / baudRate`, the bytes counted on the request channel (R306). -/
def transmission (p : Params) (t : TimingConfig) (f : Frame) : RealNum :=
  if t.transmissionEnable then
    match t.baudRate with
    | some b => RealNum.over (.rat (channelLength p f.length * Config.bitsPerChar * 1000 : Nat)) b
    | none => .rat 0
  else .rat 0

/-- `Delay(u, f)`: the sum of the four terms, for the core request frame `f` (R301); with the index of the next free
value. -/
def delay (p : Params) (t : TimingConfig) (f : Frame) (k : Nat) : RealNum × Nat :=
  let det := detection t k
  let proc := processing t det.2
  (RealNum.plus (RealNum.plus (RealNum.plus det.1 proc.1) (perRegister t f)) (transmission p t f), proc.2)

/-- The `DUE` of a response: the delay when a timing configuration applies, else 0 (R120, R129). -/
def dueFor (p : Params) (timing : Option TimingConfig) (f : Frame) (k : Nat) : RealNum × Nat :=
  match timing with
  | some t => delay p t f k
  | none => (.rat 0, k)

end Machine

end Sys2Proof
end

