-- ==== Sys2Proof/Machine/Ops.lean ====
section
/-!
DEFINITION. The shared operations: banks and the device table (20_memory.md R50 to R60), the two access primitives
`MemRead` and `MemWrite` (R52, R53), building a response, taking a wire exception (60_exceptions.md R289) and leaving it
(R290), and the frame every handler runs in (40_dispatch.md R120).
-/

namespace Sys2Proof.Machine

open Sys2Proof

/-! ## One bank -/

/-- The value at an address of a bank; an unlisted address reads as `unset` (R25, R52). -/
def Bank.get {α : Type} (unset : α) : Bank α → Nat → α
  | [], _ => unset
  | (k, w) :: rest, a => if a = k then w else Bank.get unset rest a

/-- The bank with a value put at an address. The form stays canonical: addresses rise, and the unset value is not listed,
since no operation tells "never written" from "written with 0 or false" (R25). -/
def Bank.set {α : Type} [DecidableEq α] (unset : α) : Bank α → Nat → α → Bank α
  | [], a, v => if v = unset then [] else [(a, v)]
  | (k, w) :: rest, a, v =>
    if a < k then (if v = unset then (k, w) :: rest else (a, v) :: (k, w) :: rest)
    else if a = k then (if v = unset then rest else (a, v) :: rest)
    else (k, w) :: Bank.set unset rest a v

/-- The canonical form of a bank from address `lo` on: rising addresses up to 65535, no unset value listed. -/
def Bank.wfFrom {α : Type} [DecidableEq α] (unset : α) : Nat → Bank α → Bool
  | _, [] => true
  | lo, (k, w) :: rest => lo ≤ k && k ≤ Config.addrMax && w ≠ unset && Bank.wfFrom unset (k + 1) rest

/-! ## One device record -/

/-- A register bank of a device (R21, R22). -/
def Device.regs (d : Device) : RegBank → Bank Word16
  | .HR => d.holding
  | .IR => d.input

/-- A bit bank of a device (R23, R24). -/
def Device.bits (d : Device) : BitBank → Bank Bool
  | .CO => d.coils
  | .DI => d.discrete

/-- The device with one register written; no other bank changes (R26). -/
def Device.setReg (d : Device) (b : RegBank) (a : Nat) (v : Word16) : Device :=
  match b with
  | .HR => { d with holding := Bank.set unsetRegister d.holding a v }
  | .IR => { d with input := Bank.set unsetRegister d.input a v }

/-- The device with one bit written; no other bank changes (R26). -/
def Device.setBit (d : Device) (b : BitBank) (a : Nat) (v : Bool) : Device :=
  match b with
  | .CO => { d with coils := Bank.set unsetBit d.coils a v }
  | .DI => { d with discrete := Bank.set unsetBit d.discrete a v }

/-- The canonical form of a device record: a unit id in 1 to 247 (R31) and four canonical banks. -/
def Device.wf (d : Device) : Bool :=
  Config.unitMin ≤ d.unitId && d.unitId ≤ Config.unitMax
    && Bank.wfFrom unsetRegister 0 d.holding
    && Bank.wfFrom unsetRegister 0 d.input
    && Bank.wfFrom unsetBit 0 d.coils
    && Bank.wfFrom unsetBit 0 d.discrete

/-! ## The device table -/

/-- The record of a unit, none when it is not registered (R31). The key is an integer so that the host port's signed
arguments and the wire's byte are looked up alike. -/
def findDevice (m : Memory) (u : Int) : Option Device := m.find? fun d => (d.unitId : Int) = u

/-- `present(u)` (R13, R31). -/
def present (m : Memory) (u : Int) : Bool := (findDevice m u).isSome

/-- The table with one unit's record changed. -/
def updateDevice (m : Memory) (u : Int) (g : Device → Device) : Memory :=
  m.map fun d => if (d.unitId : Int) = u then g d else d

/-- The table with a record put in, unit ids rising (R31). -/
def insertDevice (d : Device) : Memory → Memory
  | [] => [d]
  | e :: rest => if d.unitId < e.unitId then d :: e :: rest else e :: insertDevice d rest

/-- The table without a unit's record and banks (R234). -/
def dropDevice (m : Memory) (u : Int) : Memory := m.filter fun d => (d.unitId : Int) ≠ u

/-- The canonical form from unit id `lo` on. -/
def Memory.wfFrom : Nat → Memory → Bool
  | _, [] => true
  | lo, d :: rest => lo ≤ d.unitId && d.wf && Memory.wfFrom (d.unitId + 1) rest

/-- The canonical form of the whole memory: unit ids rise within 1 to 247 and every bank is canonical. -/
def Memory.wf (m : Memory) : Bool := Memory.wfFrom Config.unitMin m

/-! ## The two access primitives -/

/-- Whether an integer is an address of a bank: 0 to 65535 (R52). -/
def inRange (a : Int) : Bool := 0 ≤ a && a ≤ (Config.addrMax : Int)

/-- `MemRead` of a register bank: 0 for an unset address and for one outside 0 to 65535 (R52). -/
def readReg (m : Memory) (u : Int) (b : RegBank) (a : Int) : Word16 :=
  match findDevice m u with
  | some d => if inRange a then Bank.get unsetRegister (d.regs b) a.toNat else unsetRegister
  | none => unsetRegister

/-- `MemRead` of a bit bank (R52). -/
def readBit (m : Memory) (u : Int) (b : BitBank) (a : Int) : Bool :=
  match findDevice m u with
  | some d => if inRange a then Bank.get unsetBit (d.bits b) a.toNat else unsetBit
  | none => unsetBit

/-- The address tests of `MemWrite`, lower bound first (R53). -/
def checkAddress (a : Int) : Option ValidationError :=
  if a < 0 then some ⟨.address, .lower⟩
  else if a > (Config.addrMax : Int) then some ⟨.address, .upper⟩
  else none

/-- The value tests of `MemWrite` for the register banks, lower bound first (R53). -/
def checkValue (v : Int) : Option ValidationError :=
  if v < 0 then some ⟨.value, .lower⟩
  else if v > (Config.valueMax : Int) then some ⟨.value, .upper⟩
  else none

/-- `MemWrite` of a register bank: the four tests in their order, then the cell (R53). An error changes nothing. -/
def writeReg (m : Memory) (u : Int) (b : RegBank) (a v : Int) : Except ValidationError Memory :=
  match checkAddress a with
  | some e => .error e
  | none =>
    match checkValue v with
    | some e => .error e
    | none => .ok (updateDevice m u fun d => d.setReg b a.toNat (BitVec.ofInt 16 v))

/-- `MemWrite` of a bit bank: the two address tests, then the cell (R53). -/
def writeBit (m : Memory) (u : Int) (b : BitBank) (a : Int) (v : Bool) : Except ValidationError Memory :=
  match checkAddress a with
  | some e => .error e
  | none => .ok (updateDevice m u fun d => d.setBit b a.toNat v)

/-! ## Runs of cells -/

/-- The `n` registers from an address on; the address is a natural number and never wraps (R56, R143). -/
def readRegs (m : Memory) (u : Int) (b : RegBank) (addr n : Nat) : List Word16 :=
  (List.range n).map fun i => readReg m u b ((addr + i : Nat) : Int)

/-- The `n` bits from an address on (R56, R141). -/
def readBits (m : Memory) (u : Int) (b : BitBank) (addr n : Nat) : List Bool :=
  (List.range n).map fun i => readBit m u b ((addr + i : Nat) : Int)

/-- Registers written in ascending order from an address on. The first cell that raises ends the run, and the cells
before it keep their new values (R58). -/
def writeRegs (u : Int) (b : RegBank) : Memory → Nat → List Word16 → Memory × Option ValidationError
  | m, _, [] => (m, none)
  | m, a, v :: vs =>
    match writeReg m u b (a : Int) (v.toNat : Int) with
    | .ok m' => writeRegs u b m' (a + 1) vs
    | .error e => (m, some e)

/-- Bits written in ascending order from an address on, as `writeRegs` (R58). -/
def writeBits (u : Int) (b : BitBank) : Memory → Nat → List Bool → Memory × Option ValidationError
  | m, _, [] => (m, none)
  | m, a, v :: vs =>
    match writeBit m u b (a : Int) v with
    | .ok m' => writeBits u b m' (a + 1) vs
    | .error e => (m, some e)

/-- The range check that `MULTI_WRITE_PRECHECK` puts before the first cell: `addr + count − 1 ≤ 65535` (R166, R170). -/
def rangeFits (addr count : Nat) : Bool := addr + count ≤ Config.addrMax + 1

/-! ## Responses and exceptions -/

/-- The exception codes (R281). -/
inductive ExceptionCode where
  /-- 0x01: unknown function code of a registered unit (R282). -/
  | illegalFunction
  /-- 0x02: defined and never sent (R284). -/
  | illegalDataAddress
  /-- 0x03: everything else that is wrong (R283). -/
  | illegalDataValue
  /-- 0x0B: no device answers the unit id (R285). -/
  | gatewayTargetFailed
  deriving DecidableEq, Repr

/-- The byte of an exception code (R281). -/
def ExceptionCode.byte : ExceptionCode → Byte
  | .illegalFunction => 0x01#8
  | .illegalDataAddress => 0x02#8
  | .illegalDataValue => 0x03#8
  | .gatewayTargetFailed => 0x0B#8

/-- The `EXC` frame (R96). -/
def excFrame (u fc : Byte) (code : ExceptionCode) : Frame := [u, withErrorBit fc, code.byte]

/-- Put a finished core response into `PENDING`, framed for the channel, with its `DUE`; from here on the block is `BUSY`
and the wait runs (R35, R120, R129, R210). `f` is the core request frame; `timing` is the addressed device's configuration,
none when no delay applies. -/
def respond (s : State) (timing : Option TimingConfig) (f resp : Frame) : State :=
  let d := dueFor s.params timing f s.draws
  { s with busy := true, pending := some (frameOut s.params resp), due := d.1, waited := .rat 0, draws := d.2 }

/-- TAKING A WIRE EXCEPTION: it saves nothing, changes no mode, masks nothing and transfers control nowhere; the `EXC` frame
is the response, delayed like any other (R289). -/
def takeException (s : State) (timing : Option TimingConfig) (f : Frame) (u fc : Byte) (code : ExceptionCode) : State :=
  respond s timing f (excFrame u fc code)

/-- The idle condition: nothing pending, nothing carried over (R132, R290). -/
def goIdle (s : State) : State := { s with busy := false, pending := none, due := .rat 0, waited := .rat 0 }

/-- LEAVING A RESPONSE, an exception's included: it is presented and the dispatcher is idle again (R119, R290). -/
def presentResponse (s : State) : State :=
  { goIdle s with responses := s.responses ++ s.pending.toList }

/-- What a handler makes of a request. -/
inductive Reply where
  /-- A success response; the memory holds the request's writes. -/
  | answer (m : Memory) (resp : Frame)
  /-- Something was raised inside the handler; the memory holds what was written before the raise (R127). -/
  | raise (m : Memory)
  /-- The response would not fit `MAX_FRAME_BYTES` (R147, R342). -/
  | tooLong
  deriving DecidableEq, Repr

/-- The frame every handler runs in (R120): the device lookup before anything else (R122), the handler, the conversion of
everything raised inside it to ILLEGAL_DATA_VALUE (R127), and the delay of the device's configuration (R129). -/
def serve (s : State) (f : Frame) (u fc : Byte) (handler : Memory → Reply) : Host.Outcome State Fault Refusal :=
  match findDevice s.memory (u.toNat : Int) with
  | none => .next (takeException s none f u fc .gatewayTargetFailed)
  | some d =>
    match handler s.memory with
    | .answer m resp => .next (respond { s with memory := m } d.timing f resp)
    | .raise m => .next (takeException { s with memory := m } d.timing f u fc .illegalDataValue)
    | .tooLong => .refused .responseTooLong

end Sys2Proof.Machine
end

