-- ==== Sys2Proof/Machine/Reads.lean ====
section
/-!
DEFINITION. The four read functions (41_read_functions.md R140 to R148).
-/

namespace Sys2Proof.Machine

open Sys2Proof

/-- A read's response, or none when a finite `MAX_FRAME_BYTES` has no room for it (R147). -/
def replyRead (p : Params) (u fc : Byte) (m : Memory) (data : Frame) : Reply :=
  if fitsChannel p (channelLength p (3 + data.length)) then .answer m (readResponse u fc data) else .tooLong

/-- The handler of the two bit reads (R141, R142). -/
def readBitsHandler (p : Params) (b : BitBank) (u fc : Byte) (addr count : Word16) (m : Memory) : Reply :=
  replyRead p u fc m (packBits p.coilMsbFirst (readBits m (u.toNat : Int) b addr.toNat count.toNat))

/-- The handler of the two register reads (R143, R144). -/
def readRegsHandler (p : Params) (b : RegBank) (u fc : Byte) (addr count : Word16) (m : Memory) : Reply :=
  replyRead p u fc m (registerBytes (readRegs m (u.toNat : Int) b addr.toNat count.toNat))

/-- `readCoils`, 0x01 (R141). -/
def execReadCoils (u : Byte) (addr count : Word16) (extra : Frame) (s : State) : Host.Outcome State Fault Refusal :=
  serve s (encode (.readCoils u addr count extra)) u 0x01#8 (readBitsHandler s.params .CO u 0x01#8 addr count)

/-- `readDiscreteInputs`, 0x02 (R142). -/
def execReadDiscreteInputs (u : Byte) (addr count : Word16) (extra : Frame) (s : State) :
    Host.Outcome State Fault Refusal :=
  serve s (encode (.readDiscreteInputs u addr count extra)) u 0x02#8 (readBitsHandler s.params .DI u 0x02#8 addr count)

/-- `readHoldingRegisters`, 0x03 (R143). -/
def execReadHoldingRegisters (u : Byte) (addr count : Word16) (extra : Frame) (s : State) :
    Host.Outcome State Fault Refusal :=
  serve s (encode (.readHoldingRegisters u addr count extra)) u 0x03#8
    (readRegsHandler s.params .HR u 0x03#8 addr count)

/-- `readInputRegisters`, 0x04 (R144). -/
def execReadInputRegisters (u : Byte) (addr count : Word16) (extra : Frame) (s : State) :
    Host.Outcome State Fault Refusal :=
  serve s (encode (.readInputRegisters u addr count extra)) u 0x04#8
    (readRegsHandler s.params .IR u 0x04#8 addr count)

end Sys2Proof.Machine
end

