-- ==== Sys2Proof/Machine/Writes.lean ====
section
/-!
DEFINITION. The four write functions (42_write_functions.md R160 to R172).
-/

namespace Sys2Proof.Machine

open Sys2Proof

/-- The end of a write: the echo of the request's first six bytes, or what was raised (R85, R86, R127). -/
def replyWrite (f : Frame) : Memory × Option ValidationError → Reply
  | (m, none) => .answer m (writeResponse f)
  | (m, some _) => .raise m

/-- The handler of 0x05 (R161, R162). -/
def writeSingleCoilHandler (f : Frame) (u : Byte) (addr p : Word16) (m : Memory) : Reply :=
  match coilOfSentinel p with
  | none => .raise m
  | some b => replyWrite f (writeBits (u.toNat : Int) .CO m addr.toNat [b])

/-- The handler of 0x06 (R163). -/
def writeSingleRegisterHandler (f : Frame) (u : Byte) (addr v : Word16) (m : Memory) : Reply :=
  replyWrite f (writeRegs (u.toNat : Int) .HR m addr.toNat [v])

/-- The handler of 0x0F: the byte count against the payload, against the quantity, then the cells (R168 to R171). -/
def writeMultipleCoilsHandler (p : Params) (f : Frame) (u : Byte) (addr count : Word16) (byteCount : Byte)
    (payload : Frame) (m : Memory) : Reply :=
  if byteCount.toNat ≠ payload.length then .raise m
  else if byteCount.toNat ≠ ceilDiv count.toNat 8 then .raise m
  else if p.multiWritePrecheck && !rangeFits addr.toNat count.toNat then .raise m
  else replyWrite f
    (writeBits (u.toNat : Int) .CO m addr.toNat (unpackBits p.coilMsbFirst payload count.toNat))

/-- The handler of 0x10: the byte count against the payload, against the quantity, then the cells (R164 to R167). -/
def writeMultipleRegistersHandler (p : Params) (f : Frame) (u : Byte) (addr count : Word16) (byteCount : Byte)
    (payload : Frame) (m : Memory) : Reply :=
  if byteCount.toNat ≠ payload.length then .raise m
  else if byteCount.toNat ≠ 2 * count.toNat then .raise m
  else if p.multiWritePrecheck && !rangeFits addr.toNat count.toNat then .raise m
  else replyWrite f (writeRegs (u.toNat : Int) .HR m addr.toNat (registersOf payload))

/-- `writeSingleCoil`, 0x05 (R161). -/
def execWriteSingleCoil (u : Byte) (addr p : Word16) (extra : Frame) (s : State) : Host.Outcome State Fault Refusal :=
  serve s (encode (.writeSingleCoil u addr p extra)) u 0x05#8
    (writeSingleCoilHandler (encode (.writeSingleCoil u addr p extra)) u addr p)

/-- `writeSingleRegister`, 0x06 (R163). -/
def execWriteSingleRegister (u : Byte) (addr v : Word16) (extra : Frame) (s : State) :
    Host.Outcome State Fault Refusal :=
  serve s (encode (.writeSingleRegister u addr v extra)) u 0x06#8
    (writeSingleRegisterHandler (encode (.writeSingleRegister u addr v extra)) u addr v)

/-- `writeMultipleCoils`, 0x0F (R168). -/
def execWriteMultipleCoils (u : Byte) (addr count : Word16) (byteCount : Byte) (payload : Frame) (s : State) :
    Host.Outcome State Fault Refusal :=
  serve s (encode (.writeMultipleCoils u addr count byteCount payload)) u 0x0F#8
    (writeMultipleCoilsHandler s.params (encode (.writeMultipleCoils u addr count byteCount payload)) u addr count
      byteCount payload)

/-- `writeMultipleRegisters`, 0x10 (R164). -/
def execWriteMultipleRegisters (u : Byte) (addr count : Word16) (byteCount : Byte) (payload : Frame) (s : State) :
    Host.Outcome State Fault Refusal :=
  serve s (encode (.writeMultipleRegisters u addr count byteCount payload)) u 0x10#8
    (writeMultipleRegistersHandler s.params (encode (.writeMultipleRegisters u addr count byteCount payload)) u addr
      count byteCount payload)

end Sys2Proof.Machine
end

