-- ==== Sys2Proof/Machine/Dispatch.lean ====
section
/-!
DEFINITION. The table of meanings: one arm per instruction (40_dispatch.md R123).
-/

namespace Sys2Proof.Machine

open Sys2Proof

-- The effect of an accepted request that decodes to an instruction (R120).
def exec (i : Instr) (s : State) : Host.Outcome State Fault Refusal :=
  match i with
  | .readCoils u a c x => Sys2Proof.Machine.execReadCoils u a c x s
  | .readDiscreteInputs u a c x => Sys2Proof.Machine.execReadDiscreteInputs u a c x s
  | .readHoldingRegisters u a c x => Sys2Proof.Machine.execReadHoldingRegisters u a c x s
  | .readInputRegisters u a c x => Sys2Proof.Machine.execReadInputRegisters u a c x s
  | .writeSingleCoil u a v x => Sys2Proof.Machine.execWriteSingleCoil u a v x s
  | .writeSingleRegister u a v x => Sys2Proof.Machine.execWriteSingleRegister u a v x s
  | .writeMultipleCoils u a c n p => Sys2Proof.Machine.execWriteMultipleCoils u a c n p s
  | .writeMultipleRegisters u a c n p => Sys2Proof.Machine.execWriteMultipleRegisters u a c n p s

end Sys2Proof.Machine
end

