-- ==== Sys2Proof/Machine/HostOps.lean ====
section
/-!
DEFINITION. The operations of the host port (45_host_operations.md R230 to R247). None is reachable from the wire. An
operation that fails changes nothing and reports its error as a result.
-/

namespace Sys2Proof.Machine

open Sys2Proof

/-- A failed operation: nothing changes (R230, R247). -/
def failHost (s : State) (e : HostError) : State × HostResult := (s, .error e)

/-- The report for a unit id outside 1 to 247, with the bound it violates (R231, R247). DEDUCED, log 13. -/
def unitIdError (u : Int) : ValidationError :=
  ⟨.unitId, if u < (Config.unitMin : Int) then .lower else .upper⟩

/-- A record with a unit id, every bank unset, and a timing configuration (R231). -/
def freshDevice (u : Nat) (timing : Option TimingConfig) : Device where
  unitId := u
  holding := []
  input := []
  coils := []
  discrete := []
  timing := timing

/-- Every report the pairs of a register seed raise, in the host's order (R232). -/
def regSeedErrors (pairs : List (HostInt × HostInt)) : List ValidationError :=
  pairs.filterMap fun p => (checkAddress p.1.toInt).or (checkValue p.2.toInt)

/-- Every report the pairs of a bit seed raise, in the host's order (R232). -/
def bitSeedErrors (pairs : List (HostInt × Bool)) : List ValidationError :=
  pairs.filterMap fun p => checkAddress p.1.toInt

/-- Every report the seed of a configuration raises (R232). -/
def seedErrors (c : DeviceConfig) : List ValidationError :=
  regSeedErrors c.holding ++ regSeedErrors c.input ++ bitSeedErrors c.coils ++ bitSeedErrors c.discrete

/-- The report of a failing seed: the only one, or the one a free value picks of several (R232). Log 15. -/
def seedError (c : DeviceConfig) : Option ValidationError :=
  match seedErrors c with
  | [] => none
  | [e] => some e
  | e :: es => some ((e :: es).getD (Config.seedReport c % (e :: es).length) e)

/-- A device with the pairs of a register seed applied through `MemWrite`'s cell write (R232). -/
def seedRegs (b : RegBank) (pairs : List (HostInt × HostInt)) (d : Device) : Device :=
  pairs.foldl (fun e p => e.setReg b p.1.toInt.toNat (BitVec.ofInt 16 p.2.toInt)) d

/-- A device with the pairs of a bit seed applied (R232). -/
def seedBits (b : BitBank) (pairs : List (HostInt × Bool)) (d : Device) : Device :=
  pairs.foldl (fun e p => e.setBit b p.1.toInt.toNat p.2) d

/-- The record a configuration creates: every cell unset but the seeded ones (R231, R232). -/
def seededDevice (c : DeviceConfig) : Device :=
  seedBits .DI c.discrete (seedBits .CO c.coils (seedRegs .IR c.input (seedRegs .HR c.holding
    (freshDevice c.unitId.toInt.toNat c.timing))))

/-- `addDevice(config)`: the unit id's range, whether it is in use, the timing configuration and the seed are checked in
this order before anything changes (R231). -/
noncomputable def addDevice (c : DeviceConfig) (s : State) : State × HostResult :=
  let u := c.unitId.toInt
  if u < (Config.unitMin : Int) || u > (Config.unitMax : Int) then failHost s (.validation (unitIdError u))
  else if present s.memory u then failHost s (.deviceExists c.unitId)
  else
    match c.timing.filter fun t => !(legalTiming t) with
    | some t => failHost s (.validation ⟨.timing, Config.timingBound t⟩)
    | none =>
      match seedError c with
      | some e => failHost s (.validation e)
      | none =>
        ({ s with memory := insertDevice (seededDevice c) s.memory }, .device (some (seededDevice c)))

/-- `removeDevice(unitId)`: nothing happens when the unit is absent; a pending response is not withdrawn (R234). -/
def removeDevice (u : HostInt) (s : State) : State × HostResult :=
  ({ s with memory := dropDevice s.memory u.toInt }, .done)

/-- `getDevice(unitId)` (R235). -/
def getDevice (u : HostInt) (s : State) : State × HostResult := (s, .device (findDevice s.memory u.toInt))

/-- `start()` (R236). -/
def startBlock (s : State) : State × HostResult := ({ s with run := true }, .done)

/-- `stop()`: a pending response is still presented, every bank is kept (R237). -/
def stopBlock (s : State) : State × HostResult := ({ s with run := false }, .done)

/-- The four register accesses: an absent unit is `DeviceNotFoundError` (R246). -/
def getReg (b : RegBank) (u a : HostInt) (s : State) : State × HostResult :=
  if present s.memory u.toInt then (s, .register (readReg s.memory u.toInt b a.toInt))
  else failHost s (.deviceNotFound u)

/-- A bit read of the host port (R240, R241, R246). -/
def getBit (b : BitBank) (u a : HostInt) (s : State) : State × HostResult :=
  if present s.memory u.toInt then (s, .bit (readBit s.memory u.toInt b a.toInt))
  else failHost s (.deviceNotFound u)

/-- The end of a host write: the new memory, or the report and nothing changed (R242). -/
def finishHostWrite (s : State) : Except ValidationError Memory → State × HostResult
  | .ok m => ({ s with memory := m }, .done)
  | .error e => failHost s (.validation e)

/-- A register write of the host port (R242, R243, R246). -/
def setReg (b : RegBank) (u a v : HostInt) (s : State) : State × HostResult :=
  if present s.memory u.toInt then finishHostWrite s (writeReg s.memory u.toInt b a.toInt v.toInt)
  else failHost s (.deviceNotFound u)

/-- A bit write of the host port (R244, R245, R246). -/
def setBit (b : BitBank) (u a : HostInt) (v : Bool) (s : State) : State × HostResult :=
  if present s.memory u.toInt then finishHostWrite s (writeBit s.memory u.toInt b a.toInt v)
  else failHost s (.deviceNotFound u)

/-- One host operation (R230). -/
noncomputable def hostOp (op : HostOp) (s : State) : State × HostResult :=
  match op with
  | .addDevice c => addDevice c s
  | .removeDevice u => removeDevice u s
  | .getDevice u => getDevice u s
  | .start => startBlock s
  | .stop => stopBlock s
  | .getHoldingRegister u a => getReg .HR u a s
  | .getInputRegister u a => getReg .IR u a s
  | .getCoil u a => getBit .CO u a s
  | .getDiscreteInput u a => getBit .DI u a s
  | .setHoldingRegister u a v => setReg .HR u a v s
  | .setInputRegister u a v => setReg .IR u a v s
  | .setCoil u a v => setBit .CO u a v s
  | .setDiscreteInput u a v => setBit .DI u a v s

/-- A host operation with its result handed to the host (R17, R230). -/
noncomputable def runHostOp (op : HostOp) (s : State) : State :=
  let r := hostOp op s
  { r.1 with results := r.1.results ++ [r.2] }

end Sys2Proof.Machine
end

