-- ==== Sys2Proof/Machine/Turns.lean ====
section
/-!
DEFINITION. What one move of one agent does: the dispatcher's acceptance and the answers to frames that are no instruction
(40_dispatch.md R119 to R128), the CRC stage's drop (44_crc_framing.md R217), the timer's wait (60_exceptions.md R309),
the host's moves, and reset (70_reset_and_hazards.md R331).
-/

namespace Sys2Proof.Machine

open Sys2Proof

/-- The answer to a frame that decodes to no instruction, in the order of R128: too short for a function code (R121), unit
not registered (R122), unknown function code (R124), shorter than the function's minimum (R125). -/
def rejectFrame (f : Frame) (why : DecodeError) (s : State) : State :=
  match why with
  | .noFunctionCode u => takeException s none f u 0x00#8 .illegalDataValue
  | .unknownFunction u fc =>
    match findDevice s.memory (u.toNat : Int) with
    | none => takeException s none f u fc .gatewayTargetFailed
    | some d => takeException s d.timing f u fc .illegalFunction
  | .belowMinimum u fc =>
    match findDevice s.memory (u.toNat : Int) with
    | none => takeException s none f u fc .gatewayTargetFailed
    | some d => takeException s d.timing f u fc .illegalDataValue

/-- `Dispatch(f)` on an accepted core request frame (R120). -/
def dispatchFrame (f : Frame) (s : State) : Host.Outcome State Fault Refusal :=
  match decode f with
  | .instr i => exec i s
  | .rejected why => .next (rejectFrame f why s)

/-- A frame taken from the request channel: one longer than `MAX_FRAME_BYTES` has no meaning (R342); one the framing stage
finds bad is dropped with no answer (R217); any other goes to the dispatcher. -/
def receiveFrame (w : Frame) (s : State) : Host.Outcome State Fault Refusal :=
  if fitsChannel s.params w.length then
    match frameIn s.params w with
    | none => .next (goIdle s)
    | some f => dispatchFrame f s
  else .refused .requestTooLong

/-- The dispatcher's move: it accepts the oldest waiting frame only when RUN is set and `BUSY` is clear; at any other time
the frame waits, neither lost nor answered (R119). -/
def dispatchTurn (s : State) : Host.Outcome State Fault Refusal :=
  if s.run && !s.busy then
    match s.requests with
    | [] => .next s
    | w :: rest => receiveFrame w { s with requests := rest }
  else .next s

/-- The host's clock advances; the running wait grows while a response is pending. Time does not run backwards: a negative
amount counts as 0 (log 6). -/
noncomputable def clockTurn (ms : RealNum) (s : State) : State :=
  if s.busy && RealNum.le (.rat 0) ms then { s with waited := RealNum.plus s.waited ms } else s

/-- The timer's move: a pending response is presented no sooner than `DUE` after acceptance (R309). -/
noncomputable def timerTurn (s : State) : State :=
  if s.busy && RealNum.le s.due s.waited then presentResponse s else s

/-- Reset: every piece of the block's state takes its reset value, waiting frames and the pending response are lost, the
parameters are not touched (R331, R332). What the host already has, its coming moves and the index of the free values are
no state of the block and stay. Log 21. -/
def resetTurn (s : State) : State :=
  { State.resetWith s.params with
    responses := s.responses, results := s.results, turns := s.turns, draws := s.draws }

/-- One move of one agent. -/
noncomputable def takeTurn (t : Turn) (s : State) : Host.Outcome State Fault Refusal :=
  match t with
  | .submit f => .next { s with requests := s.requests ++ [f] }
  | .dispatch => dispatchTurn s
  | .clock ms => .next (clockTurn ms s)
  | .timer => .next (timerTurn s)
  | .host op => .next (runHostOp op s)
  | .take => .next { s with responses := s.responses.tail }
  | .reset => .next (resetTurn s)

/-- The move the block makes when the environment lists none: it serves the wait of a pending response, presents it when
due, and otherwise looks for a request (R309, R119). Log 7. -/
noncomputable def ownTurn (s : State) : Turn :=
  if s.busy then (if RealNum.le s.due s.waited then .timer else .clock (RealNum.minus s.due s.waited)) else .dispatch

/-- A frame placed so that the next step accepts it: RUN set, nothing pending, the frame first on the request channel in
the channel's form, the next move the dispatcher's. -/
def offerFrame (f : Frame) (s : State) : State :=
  { goIdle s with run := true, requests := frameOut s.params f :: s.requests, turns := .dispatch :: s.turns }

end Sys2Proof.Machine
end

