-- ==== Sys2Proof/Machine/Step.lean ====
section
/-!
DEFINITION. One step of the machine: the next move of the environment's list, or the block's own when none is listed.
-/

namespace Sys2Proof.Machine

open Sys2Proof

/-- One step (log 2). -/
noncomputable def step (s : State) : Host.Outcome State Fault Refusal :=
  match s.turns with
  | [] => takeTurn (ownTurn s) s
  | t :: rest => takeTurn t { s with turns := rest }

/-- The state in which the very next step accepts and runs the instruction of an opcode-table word (logs 10 and 11). -/
def State.withFetchWord (s : State) (nbits w : Nat) : State := offerFrame (tableFrame nbits w) s

end Sys2Proof.Machine
end

