-- ==== Sys2Proof/Machine/Client.lean ====
section
/-!
DEFINITION. The client end of the codec: the request builder and the response parser (43_client_codec.md R180 to R196), with
the framing stage around them (44_crc_framing.md R210, R219). Both are pure and hold no state (10_state.md R37).
-/

namespace Sys2Proof.Machine

open Sys2Proof

/-- The operations of the transport contract that build a frame, their operands typed by width (R180, R181). -/
inductive ClientOp where
  | readCoils (addr count : Word16)
  | readDiscreteInputs (addr count : Word16)
  | readHoldingRegisters (addr count : Word16)
  | readInputRegisters (addr count : Word16)
  | writeSingleCoil (addr : Word16) (value : Bool)
  | writeSingleRegister (addr value : Word16)
  | writeMultipleCoils (addr : Word16) (values : List Bool)
  | writeMultipleRegisters (addr : Word16) (bytes : Frame)
  deriving DecidableEq, Repr

/-- The request an operation builds, none when the builder refuses: more than 2040 coils, an odd number of register bytes
or more than 254 (R182 to R189). -/
def buildInstr (msbFirst : Bool) (u : Byte) : ClientOp → Option Instr
  | .readCoils a c => some (.readCoils u a c [])
  | .readDiscreteInputs a c => some (.readDiscreteInputs u a c [])
  | .readHoldingRegisters a c => some (.readHoldingRegisters u a c [])
  | .readInputRegisters a c => some (.readInputRegisters u a c [])
  | .writeSingleCoil a v => some (.writeSingleCoil u a (sentinelOfCoil v) [])
  | .writeSingleRegister a v => some (.writeSingleRegister u a v [])
  | .writeMultipleCoils a vs =>
    if vs.length > 2040 then none
    else some (.writeMultipleCoils u a (BitVec.ofNat 16 vs.length) (BitVec.ofNat 8 (ceilDiv vs.length 8))
      (packBits msbFirst vs))
  | .writeMultipleRegisters a bytes =>
    if bytes.length % 2 = 1 || bytes.length > 254 then none
    else some (.writeMultipleRegisters u a (BitVec.ofNat 16 (bytes.length / 2)) (BitVec.ofNat 8 bytes.length) bytes)

/-- `BuildRequest`: the core request frame (R180). -/
def buildRequest (msbFirst : Bool) (u : Byte) (op : ClientOp) : Option Frame :=
  (buildInstr msbFirst u op).map encode

/-- Why a response is malformed (R191 to R194, R219). -/
inductive MalformedReason where
  | short
  | unit
  | length
  | function
  | bytecount
  | echo
  | crc
  deriving DecidableEq, Repr

/-- What the parser returns (R190). -/
inductive ParseResult where
  | data (bytes : Frame)
  | done
  | modbusException (code : Byte)
  | malformed (why : MalformedReason)
  deriving DecidableEq, Repr

/-- The data length of a read response, taken from the request; none for a write (R192). -/
def expectedData : Instr → Option Nat
  | .readCoils _ _ c _ => some (ceilDiv c.toNat 8)
  | .readDiscreteInputs _ _ c _ => some (ceilDiv c.toNat 8)
  | .readHoldingRegisters _ _ c _ => some (2 * c.toNat)
  | .readInputRegisters _ _ c _ => some (2 * c.toNat)
  | .writeSingleCoil _ _ _ _ => none
  | .writeSingleRegister _ _ _ _ => none
  | .writeMultipleCoils _ _ _ _ _ => none
  | .writeMultipleRegisters _ _ _ _ _ => none

/-- A read response with `n` data bytes (R192). -/
def parseRead (n : Nat) (count : Byte) (r : Frame) : ParseResult :=
  if r.length ≠ 3 + n then .malformed .length
  else if count ≠ byteCountOf n then .malformed .bytecount
  else .data (r.drop 3)

/-- A write response: the request's first six bytes echoed (R193, R194). -/
def parseEcho (q r : Frame) : ParseResult :=
  if r.length ≠ 6 then .malformed .length
  else if r ≠ q.take 6 then .malformed .echo
  else .done

/-- The parser for the request `q`, its checks in the order of R191. -/
def parseFor (q : Instr) (r : Frame) : ParseResult :=
  match r with
  | unit :: fc :: third :: _ =>
    if unit ≠ q.unit then .malformed .unit
    else if fc = withErrorBit q.fn.code then
      (if r.length ≠ 3 then .malformed .length else .modbusException third)
    else if fc ≠ q.fn.code then .malformed .function
    else
      match expectedData q with
      | some n => parseRead n third r
      | none => parseEcho (encode q) r
  | _ => .malformed .short

/-- `ParseResponse(q, r)` on frames; none when `q` is no request frame, which R190 does not speak of. Log 22. -/
def parseResponse (q r : Frame) : Option ParseResult :=
  match decode q with
  | .instr i => some (parseFor i r)
  | .rejected _ => none

/-- The client's request as it goes onto the channel (R210). -/
def buildWire (p : Params) (u : Byte) (op : ClientOp) : Option Frame :=
  (buildRequest p.coilMsbFirst u op).map (frameOut p)

/-- The client's parse of a frame from the channel: a bad trailer is `Malformed(crc)` and nothing of the response is used
(R219). -/
def parseWire (p : Params) (q : Instr) (w : Frame) : ParseResult :=
  match frameIn p w with
  | none => .malformed .crc
  | some r => parseFor q r

/-- Register `i` of a read's data bytes: `be16(data, 2i)` (R192). -/
def dataRegister (data : Frame) (i : Nat) : Word16 := be16 (data.getD (2 * i) 0#8) (data.getD (2 * i + 1) 0#8)

end Sys2Proof.Machine
end

