-- ==== Sys2Proof/Safety.lean ====
section
/-!
DEFINITION. What counts as a good state and a good response, in the terms the statements use.
-/

namespace Sys2Proof.Safety

open Sys2Proof Sys2Proof.Machine

/-- The invariant of the block: the memory is canonical with unit ids in 1 to 247 (R25, R31); every timing configuration is
legal (R233); `BUSY` says whether a response is pending, and an idle block has `DUE` 0 and no running wait (R35, R132);
times are not negative (R301). -/
structure Inv (s : State) : Prop where
  memory_wf : Memory.wf s.memory = true
  timing_legal : ∀ d ∈ s.memory, ∀ t, d.timing = some t → legalTiming t = true
  busy_pending : s.busy = s.pending.isSome
  idle : s.busy = false → s.due = .rat 0 ∧ s.waited = .rat 0
  due_nonneg : 0 ≤ s.due.value
  waited_nonneg : 0 ≤ s.waited.value

/-- A core frame the server may send: at least three bytes, the unit id first (R131, R191). -/
def GoodResponse (p : Params) (w : Frame) : Prop := ∃ c, w = frameOut p c ∧ 3 ≤ c.length

/-- Every response the block holds or has presented is a framed core response of at least three bytes (R215). -/
structure ResponsesGood (s : State) : Prop where
  pending_good : ∀ w, s.pending = some w → GoodResponse s.params w
  presented_good : ∀ w ∈ s.responses, GoodResponse s.params w

/-- The six function codes whose requests are `RQ6` (R93, R95: at least 6 bytes). -/
def rq6Codes : List Byte := [0x01#8, 0x02#8, 0x03#8, 0x04#8, 0x05#8, 0x06#8]

/-- The two function codes whose requests are `RQM` (R93, R95: at least 7 bytes). -/
def rqmCodes : List Byte := [0x0F#8, 0x10#8]

/-- `t` is `s` after a request was accepted and answered with the core response `c`: the block is `BUSY`, `c` stands framed in
`PENDING`, the wait starts, and nothing else but `memory`, `due` and the index of the free values may differ (R35, R120). -/
structure Answers (s t : State) (c : Frame) : Prop where
  busy : t.busy = true
  pending : t.pending = some (frameOut s.params c)
  waited : t.waited = .rat 0
  params : t.params = s.params
  run : t.run = s.run
  requests : t.requests = s.requests
  responses : t.responses = s.responses
  results : t.results = s.results
  turns : t.turns = s.turns

/-- The two memories agree but on the registers of unit `u`, bank `HR`, at the addresses of `P`. -/
structure SameButRegs (u : Int) (P : Int → Prop) (m m' : Memory) : Prop where
  regs : ∀ u' b a, ¬ (u' = u ∧ b = RegBank.HR ∧ P a) → readReg m' u' b a = readReg m u' b a
  bits : ∀ u' b a, readBit m' u' b a = readBit m u' b a
  records : ∀ u', (findDevice m' u').map Device.timing = (findDevice m u').map Device.timing

/-- The two memories agree but on the coils of unit `u`, bank `CO`, at the addresses of `P`. -/
structure SameButBits (u : Int) (P : Int → Prop) (m m' : Memory) : Prop where
  bits : ∀ u' b a, ¬ (u' = u ∧ b = BitBank.CO ∧ P a) → readBit m' u' b a = readBit m u' b a
  regs : ∀ u' b a, readReg m' u' b a = readReg m u' b a
  records : ∀ u', (findDevice m' u').map Device.timing = (findDevice m u').map Device.timing

/-- Whether an instruction is one of the four reads. -/
def IsRead : Instr → Bool
  | .readCoils _ _ _ _ => true
  | .readDiscreteInputs _ _ _ _ => true
  | .readHoldingRegisters _ _ _ _ => true
  | .readInputRegisters _ _ _ _ => true
  | .writeSingleCoil _ _ _ _ => false
  | .writeSingleRegister _ _ _ _ => false
  | .writeMultipleCoils _ _ _ _ _ => false
  | .writeMultipleRegisters _ _ _ _ _ => false

/-- Whether an instruction is one of the two coil writes. -/
def IsCoilWrite : Instr → Bool
  | .readCoils _ _ _ _ => false
  | .readDiscreteInputs _ _ _ _ => false
  | .readHoldingRegisters _ _ _ _ => false
  | .readInputRegisters _ _ _ _ => false
  | .writeSingleCoil _ _ _ _ => true
  | .writeSingleRegister _ _ _ _ => false
  | .writeMultipleCoils _ _ _ _ _ => true
  | .writeMultipleRegisters _ _ _ _ _ => false

/-- Whether an instruction is one of the two register writes. -/
def IsRegWrite : Instr → Bool
  | .readCoils _ _ _ _ => false
  | .readDiscreteInputs _ _ _ _ => false
  | .readHoldingRegisters _ _ _ _ => false
  | .readInputRegisters _ _ _ _ => false
  | .writeSingleCoil _ _ _ _ => false
  | .writeSingleRegister _ _ _ _ => true
  | .writeMultipleCoils _ _ _ _ _ => false
  | .writeMultipleRegisters _ _ _ _ _ => true

/-- The cells a request names: `addr` to `addr + cells − 1` (R57, R172). -/
def InSpan (i : Instr) (a : Int) : Prop := (i.addr.toNat : Int) ≤ a ∧ a < i.addr.toNat + i.cells

/-- An outcome with the time of presentation forgotten: timing decides when a response comes, never what it is (R343). -/
def withoutDue : Host.Outcome State Fault Refusal → Host.Outcome State Fault Refusal
  | .next t => .next { t with due := .rat 0 }
  | .fault r => .fault r
  | .refused r => .refused r

/-- The bit of its byte that coil `k` stands in, as R92 gives it. -/
def coilBit (msbFirst : Bool) (data : Frame) (k : Nat) : Bool :=
  (data.getD (k / 8) 0#8).getLsbD (if msbFirst then 7 - k % 8 else k % 8)

/-- Register `k` of a run of data bytes, high byte first (R89). -/
def wireRegister (data : Frame) (k : Nat) : Word16 := be16 (data.getD (2 * k) 0#8) (data.getD (2 * k + 1) 0#8)

/-- How many data bytes the success response to a read carries, `L` of R84; 0 for a write. -/
def readLength : Instr → Nat
  | .readCoils _ _ c _ => ceilDiv c.toNat 8
  | .readDiscreteInputs _ _ c _ => ceilDiv c.toNat 8
  | .readHoldingRegisters _ _ c _ => 2 * c.toNat
  | .readInputRegisters _ _ c _ => 2 * c.toNat
  | .writeSingleCoil _ _ _ _ => 0
  | .writeSingleRegister _ _ _ _ => 0
  | .writeMultipleCoils _ _ _ _ _ => 0
  | .writeMultipleRegisters _ _ _ _ _ => 0

/-- Whether the response of a request has room on the channel (R342); always so with `MAX_FRAME_BYTES` unbounded. -/
def HasRoom (p : Params) (i : Instr) : Bool := fitsChannel p (channelLength p (3 + readLength i))

/-- The least and the greatest value of a delay setting (R302 to R304). -/
noncomputable def settingRange : DelaySetting → ℝ × ℝ
  | .fixed v => (v.value, v.value)
  | .range a b => (a.value, b.value)

/-- The least and the greatest value of the detection term (R302). -/
noncomputable def detectionRange (t : TimingConfig) : ℝ × ℝ :=
  match t.detectionDelay with
  | some d => settingRange d
  | none =>
    match t.pollingInterval with
    | some p => (0, p.value)
    | none => (0, 0)

/-- The least and the greatest value of the processing term (R304). -/
noncomputable def processingRange (t : TimingConfig) : ℝ × ℝ :=
  match t.processingDelay with
  | some d => settingRange d
  | none => (0, 0)

/-- The moves a program consists of: request frames and host operations (R17). A reset still to come is counted with
them, since the state after it is another. -/
def ProgramTurn : Turn → Bool
  | .submit _ => true
  | .host _ => true
  | .reset => true
  | .dispatch => false
  | .clock _ => false
  | .timer => false
  | .take => false

/-- The end of a program: none of its requests and host operations is still to come, none of its frames waits, the last
response has been presented and `BUSY` is false (R17). -/
def Finished (s : State) : Bool := !s.busy && s.requests.isEmpty && s.turns.all fun t => !ProgramTurn t

/-- The end state of a program: the device table with every bank; none while the program runs (R17). -/
def endState (s : State) : Option Memory := if Finished s then some s.memory else none

/-- The moves of the wire side: everything but host operations and reset (R291). -/
def WireTurn : Turn → Bool
  | .host _ => false
  | .reset => false
  | .submit _ => true
  | .dispatch => true
  | .clock _ => true
  | .timer => true
  | .take => true

end Sys2Proof.Safety
end

