-- ==== Sys2Proof/Certificates/Slice0/Obligations.lean ====
section
/-!
DEFINITION. The statements for the provers, each formalising rules of spec/ about the machine.
-/

open Sys2Proof Sys2Proof.Machine Sys2Proof.Safety

/-! ## Encoding -/

/-- R82, R83, R93: every instruction, with every operand at every value, is read back from its frame, and a frame that
decodes is the frame of its instruction, so no byte is dropped. That the bytes after an `RQ6` layout are kept as an
operand is the model's choice, log 9. -/
def Obligations.DecodeAndEncodeAgree : Prop :=
  (∀ i : Instr, decode (encode i) = .instr i) ∧ (∀ (f : Frame) (i : Instr), decode f = .instr i → encode i = f)

/-- R81, R93, R95, R97: a frame is an instruction exactly when byte 1 is one of the eight codes and the frame has that
code's minimum length. The minimum lengths are the spec's decision D7 (R95). -/
def Obligations.DecodeAcceptsExactly : Prop :=
  ∀ f : Frame, (∃ i, decode f = .instr i) ↔
    ∃ u fc body, f = u :: fc :: body ∧ ((fc ∈ rq6Codes ∧ 6 ≤ f.length) ∨ (fc ∈ rqmCodes ∧ 7 ≤ f.length))

/-- Frames written out from the rules' examples (R141 to R144, R161, R163, R164, R168) decode to what they stand for. -/
def Obligations.KnownFramesDecode : Prop :=
  decode [0x01, 0x01, 0x00, 0x13, 0x00, 0x04] = .instr (.readCoils 0x01 0x0013 0x0004 []) ∧
  decode [0x01, 0x02, 0x00, 0x00, 0x00, 0x0A] = .instr (.readDiscreteInputs 0x01 0x0000 0x000A []) ∧
  decode [0x01, 0x03, 0x00, 0x00, 0x00, 0x01] = .instr (.readHoldingRegisters 0x01 0x0000 0x0001 []) ∧
  decode [0x01, 0x04, 0x00, 0x08, 0x00, 0x02] = .instr (.readInputRegisters 0x01 0x0008 0x0002 []) ∧
  decode [0x01, 0x05, 0x00, 0xAC, 0xFF, 0x00] = .instr (.writeSingleCoil 0x01 0x00AC 0xFF00 []) ∧
  decode [0x01, 0x06, 0x00, 0x01, 0x00, 0x03] = .instr (.writeSingleRegister 0x01 0x0001 0x0003 []) ∧
  decode [0x01, 0x0F, 0x00, 0x13, 0x00, 0x0A, 0x02, 0xB3, 0x80] =
    .instr (.writeMultipleCoils 0x01 0x0013 0x000A 0x02 [0xB3, 0x80]) ∧
  decode [0x01, 0x10, 0x00, 0x00, 0x00, 0x03, 0x06, 0x01, 0xF4, 0x00, 0x64, 0x00, 0xC8] =
    .instr (.writeMultipleRegisters 0x01 0x0000 0x0003 0x06 [0x01, 0xF4, 0x00, 0x64, 0x00, 0xC8])

/-! ## A step runs the decoded instruction -/

/-- R119, R120: when the dispatcher moves, RUN is set, nothing is pending and the oldest waiting frame is within
`MAX_FRAME_BYTES`, passes the framing stage and decodes to `i`, the step is `exec i`, the frame taken from the request
channel and the move from the list of moves (which may be empty: the block then moves by itself). The list of moves is
the model's choice, log 2; that a set RUN and a clear BUSY are needed is the spec's decision D18 and D26. -/
def Obligations.StepRunsDecodedInstruction : Prop :=
  ∀ (s : State) (w core : Frame) (rest : List Frame) (ts : List Turn) (i : Instr),
    s.run = true → s.busy = false → s.requests = w :: rest →
    (s.turns = .dispatch :: ts ∨ (s.turns = [] ∧ ts = [])) →
    fitsChannel s.params w.length = true → frameIn s.params w = some core → decode core = .instr i →
    step s = exec i { s with requests := rest, turns := ts }

/-- The model's own: `withFetchWord` makes the next step run the instruction of an opcode-table word, in the idle block with
RUN set (logs 10 and 11). -/
def Obligations.FetchWordRunsItsInstruction : Prop :=
  ∀ (s : State) (nbits w : Nat) (i : Instr),
    decodeTableWord nbits w = some i →
    fitsChannel s.params (channelLength s.params (tableFrame nbits w).length) = true →
    step (s.withFetchWord nbits w) = exec i { goIdle s with run := true }

/-! ## The dispatcher -/

/-- R121: a frame of fewer than two bytes is answered with code 0x03, its unit byte (0 if there is none) and function
byte 0x80, whatever the device table holds, with no delay. The function byte 0x80 is the spec's decision D6. -/
def Obligations.ShortFrameAnswered : Prop :=
  ∀ (s : State) (f : Frame), f.length < 2 →
    ∃ t, dispatchFrame f s = .next t ∧ Answers s t [f.headD 0x00, 0x80, 0x03] ∧ t.memory = s.memory ∧ t.due = .rat 0

/-- R122: a frame to a unit that is not registered is answered with 0x0B whatever else is wrong with it, with no delay, and
unit ids 0 and 248 to 255 are never registered. -/
def Obligations.UnregisteredUnitAnswered : Prop :=
  (∀ (s : State) (u fc : Byte) (body : Frame), present s.memory (u.toNat : Int) = false →
    ∃ t, dispatchFrame (u :: fc :: body) s = .next t ∧ Answers s t [u, fc ||| 0x80, 0x0B] ∧
      t.memory = s.memory ∧ t.due = .rat 0) ∧
  (∀ (m : Memory) (u : Byte), m.wf = true → (u = 0 ∨ 248 ≤ u.toNat) → present m (u.toNat : Int) = false)

/-- R124: a function code that is none of the eight, to a registered unit, is answered with code 0x01 whatever the rest of
the frame, and the store is not touched. -/
def Obligations.UnknownFunctionAnswered : Prop :=
  ∀ (s : State) (u fc : Byte) (body : Frame), present s.memory (u.toNat : Int) = true →
    fc ∉ rq6Codes → fc ∉ rqmCodes →
    ∃ t, dispatchFrame (u :: fc :: body) s = .next t ∧ Answers s t [u, fc ||| 0x80, 0x01] ∧ t.memory = s.memory

/-- R125: a frame shorter than its function's minimum (6 or 7 bytes), to a registered unit, is answered with code 0x03 and
the store is not touched. -/
def Obligations.ShortForFunctionAnswered : Prop :=
  ∀ (s : State) (u fc : Byte) (body : Frame), present s.memory (u.toNat : Int) = true →
    ((fc ∈ rq6Codes ∧ body.length + 2 < 6) ∨ (fc ∈ rqmCodes ∧ body.length + 2 < 7)) →
    ∃ t, dispatchFrame (u :: fc :: body) s = .next t ∧ Answers s t [u, fc ||| 0x80, 0x03] ∧ t.memory = s.memory

/-- R130: with `MAX_FRAME_BYTES` unbounded, every byte sequence is answered with exactly one response of at least three
bytes. -/
def Obligations.DispatchIsTotal : Prop :=
  ∀ (s : State) (f : Frame), s.params.maxFrameBytes = none →
    ∃ t c, dispatchFrame f s = .next t ∧ Answers s t c ∧ 3 ≤ c.length

/-- R131: the response carries the request's unit id (0 for an empty request) in byte 0 and its function code in byte 1,
with bit 7 set exactly in an exception frame; a success response is of one of the eight codes. The spec derives R131
itself; that 0x02 is never sent is its decision D14. -/
def Obligations.ResponseEchoesHeader : Prop :=
  ∀ (s t : State) (f : Frame), dispatchFrame f s = .next t →
    ∃ c, Answers s t c ∧ 3 ≤ c.length ∧ c.headD 0x00 = f.headD 0x00 ∧
      ((∃ code, code ∈ ([0x01, 0x03, 0x0B] : List Byte) ∧ c = [f.headD 0x00, f.getD 1 0x00 ||| 0x80, code]) ∨
       (c.getD 1 0x00 = f.getD 1 0x00 ∧ f.getD 1 0x00 ∈ rq6Codes ++ rqmCodes))

/-- R282, R285: of frames of two or more bytes, code 0x01 answers exactly those to a registered unit whose function code is
none of the eight, and code 0x0B exactly those to a unit not registered (0 and 248 to 255 among them); a shorter frame
gets neither. -/
def Obligations.ExceptionCodesHaveTheirCauses : Prop :=
  (∀ (s t : State) (u fc : Byte) (body : Frame), dispatchFrame (u :: fc :: body) s = .next t →
    (t.pending = some (frameOut s.params [u, fc ||| 0x80, 0x01]) ↔
      (present s.memory (u.toNat : Int) = true ∧ fc ∉ rq6Codes ∧ fc ∉ rqmCodes)) ∧
    (t.pending = some (frameOut s.params [u, fc ||| 0x80, 0x0B]) ↔ present s.memory (u.toNat : Int) = false) ∧
    (s.memory.wf = true → (u = 0 ∨ 248 ≤ u.toNat) → t.pending = some (frameOut s.params [u, fc ||| 0x80, 0x0B]))) ∧
  (∀ (s t : State) (f : Frame), dispatchFrame f s = .next t → f.length < 2 →
    ∀ u fc : Byte, t.pending ≠ some (frameOut s.params [u, fc, 0x01]) ∧ t.pending ≠ some (frameOut s.params [u, fc, 0x0B]))

/-! ## The read functions -/

/-- R141, R142: for a registered unit, a bit-read frame of fewer than six bytes is answered with code 0x03, and every other
one runs to a success response of `L = ceil_div(count, 8)` data bytes whose bit `pos(i)` of byte `i div 8` is the cell
`addr + i`, all other bits 0, with `L mod 256` as third byte. No cell changes. (`HasRoom` holds whenever `MAX_FRAME_BYTES`
is unbounded.) -/
def Obligations.ReadBitsResult : Prop :=
  ∀ (s : State) (u fc : Byte) (b : BitBank), ((b = .CO ∧ fc = 0x01) ∨ (b = .DI ∧ fc = 0x02)) →
    present s.memory (u.toNat : Int) = true →
    (∀ body : Frame, body.length < 4 →
      ∃ t, dispatchFrame (u :: fc :: body) s = .next t ∧ Answers s t [u, fc ||| 0x80, 0x03] ∧ t.memory = s.memory) ∧
    (∀ (addr count : Word16) (extra : Frame) (i : Instr),
      ((fc = 0x01 ∧ i = .readCoils u addr count extra) ∨ (fc = 0x02 ∧ i = .readDiscreteInputs u addr count extra)) →
      HasRoom s.params i = true →
      ∃ t data, exec i s = .next t ∧
        Answers s t ([u, fc, BitVec.ofNat 8 (ceilDiv count.toNat 8)] ++ data) ∧
        data.length = ceilDiv count.toNat 8 ∧
        (∀ k < count.toNat,
          coilBit s.params.coilMsbFirst data k = readBit s.memory (u.toNat : Int) b ((addr.toNat + k : Nat) : Int)) ∧
        (∀ k < 8 * ceilDiv count.toNat 8, count.toNat ≤ k → coilBit s.params.coilMsbFirst data k = false) ∧
        t.memory = s.memory)

/-- R143, R144: for a registered unit, a register-read frame of fewer than six bytes is answered with code 0x03, and every
other one runs to a success response of `L = 2 × count` data bytes that hold the registers `addr` to `addr + count − 1` of
the bank, high byte first, with `L mod 256` as third byte. No cell changes. (`HasRoom` holds whenever `MAX_FRAME_BYTES` is
unbounded.) -/
def Obligations.ReadRegistersResult : Prop :=
  ∀ (s : State) (u fc : Byte) (b : RegBank), ((b = .HR ∧ fc = 0x03) ∨ (b = .IR ∧ fc = 0x04)) →
    present s.memory (u.toNat : Int) = true →
    (∀ body : Frame, body.length < 4 →
      ∃ t, dispatchFrame (u :: fc :: body) s = .next t ∧ Answers s t [u, fc ||| 0x80, 0x03] ∧ t.memory = s.memory) ∧
    (∀ (addr count : Word16) (extra : Frame) (i : Instr),
      ((fc = 0x03 ∧ i = .readHoldingRegisters u addr count extra) ∨
       (fc = 0x04 ∧ i = .readInputRegisters u addr count extra)) →
      HasRoom s.params i = true →
      ∃ t data, exec i s = .next t ∧
        Answers s t ([u, fc, BitVec.ofNat 8 (2 * count.toNat)] ++ data) ∧
        data.length = 2 * count.toNat ∧
        (∀ k < count.toNat,
          wireRegister data k = readReg s.memory (u.toNat : Int) b ((addr.toNat + k : Nat) : Int)) ∧
        t.memory = s.memory)

/-- R145: a read with `count = 0` gives the three bytes `[u, fc, 0x00]`, a success frame. The spec marks this as its
decision D11. -/
def Obligations.ZeroCountReadAnswered : Prop :=
  ∀ (s : State) (u : Byte) (addr : Word16) (extra : Frame) (i : Instr) (fc : Byte),
    ((i = .readCoils u addr 0 extra ∧ fc = 0x01) ∨ (i = .readDiscreteInputs u addr 0 extra ∧ fc = 0x02) ∨
     (i = .readHoldingRegisters u addr 0 extra ∧ fc = 0x03) ∨ (i = .readInputRegisters u addr 0 extra ∧ fc = 0x04)) →
    present s.memory (u.toNat : Int) = true → HasRoom s.params i = true →
    ∃ t, exec i s = .next t ∧ Answers s t [u, fc, 0x00]

/-- R146: a read past the top of its bank is a success frame of the full length in which the cells above 65535 are 0 or
false; the address does not wrap. The spec marks this as its decision D12. -/
def Obligations.ReadPastTopReadsUnset : Prop :=
  ∀ (s : State) (u : Byte) (addr count : Word16) (extra : Frame), 65536 < addr.toNat + count.toNat →
    present s.memory (u.toNat : Int) = true →
    (∀ i fc, ((i = .readHoldingRegisters u addr count extra ∧ fc = 0x03#8) ∨
        (i = .readInputRegisters u addr count extra ∧ fc = 0x04#8)) → HasRoom s.params i = true →
      ∃ t data, exec i s = .next t ∧ Answers s t ([u, fc, BitVec.ofNat 8 (2 * count.toNat)] ++ data) ∧
        data.length = 2 * count.toNat ∧
        ∀ k < count.toNat, 65535 < addr.toNat + k → wireRegister data k = 0) ∧
    (∀ i fc, ((i = .readCoils u addr count extra ∧ fc = 0x01#8) ∨
        (i = .readDiscreteInputs u addr count extra ∧ fc = 0x02#8)) → HasRoom s.params i = true →
      ∃ t data, exec i s = .next t ∧ Answers s t ([u, fc, BitVec.ofNat 8 (ceilDiv count.toNat 8)] ++ data) ∧
        data.length = ceilDiv count.toNat 8 ∧
        ∀ k < count.toNat, 65535 < addr.toNat + k → coilBit s.params.coilMsbFirst data k = false)

/-- R98, R148: the bytes after the sixth of a 0x01 to 0x06 request change nothing but the time of presentation (which
counts them, R306). The spec marks this as its decision D8. -/
def Obligations.TrailingBytesIgnored : Prop :=
  ∀ (s : State) (u : Byte) (a p : Word16) (x : Frame),
    withoutDue (exec (.readCoils u a p x) s) = withoutDue (exec (.readCoils u a p []) s) ∧
    withoutDue (exec (.readDiscreteInputs u a p x) s) = withoutDue (exec (.readDiscreteInputs u a p []) s) ∧
    withoutDue (exec (.readHoldingRegisters u a p x) s) = withoutDue (exec (.readHoldingRegisters u a p []) s) ∧
    withoutDue (exec (.readInputRegisters u a p x) s) = withoutDue (exec (.readInputRegisters u a p []) s) ∧
    withoutDue (exec (.writeSingleCoil u a p x) s) = withoutDue (exec (.writeSingleCoil u a p []) s) ∧
    withoutDue (exec (.writeSingleRegister u a p x) s) = withoutDue (exec (.writeSingleRegister u a p []) s)

/-! ## The write functions -/

/-- R161: a 0x05 request with a sentinel writes its coil, echoes its first six bytes, and changes no other cell. R161's
other arms are `WriteSingleCoilBadValue` and `ShortForFunctionAnswered`. -/
def Obligations.WriteSingleCoilResult : Prop :=
  ∀ (s : State) (u : Byte) (addr : Word16) (extra : Frame) (v : Bool),
    s.memory.wf = true → present s.memory (u.toNat : Int) = true →
    ∃ t, exec (.writeSingleCoil u addr (if v then 0xFF00 else 0x0000) extra) s = .next t ∧
      Answers s t [u, 0x05, hi8 addr, lo8 addr, if v then 0xFF else 0x00, 0x00] ∧
      readBit t.memory (u.toNat : Int) .CO (addr.toNat : Int) = v ∧
      SameButBits (u.toNat : Int) (fun a => a = (addr.toNat : Int)) s.memory t.memory

/-- R162: a 0x05 request with any other value is answered `[u, 0x85, 0x03]` and changes no coil. The spec marks this as
its decision D10. -/
def Obligations.WriteSingleCoilBadValue : Prop :=
  ∀ (s : State) (u : Byte) (addr p : Word16) (extra : Frame),
    p ≠ 0xFF00 → p ≠ 0x0000 → present s.memory (u.toNat : Int) = true →
    ∃ t, exec (.writeSingleCoil u addr p extra) s = .next t ∧ Answers s t [u, 0x85, 0x03] ∧ t.memory = s.memory

/-- R163: a 0x06 request writes its register, echoes its first six bytes, and changes no other cell. R163's short frames
are in `ShortForFunctionAnswered`, its repetition in `RepeatedRequestChangesNothing`. -/
def Obligations.WriteSingleRegisterResult : Prop :=
  ∀ (s : State) (u : Byte) (addr v : Word16) (extra : Frame),
    s.memory.wf = true → present s.memory (u.toNat : Int) = true →
    ∃ t, exec (.writeSingleRegister u addr v extra) s = .next t ∧
      Answers s t [u, 0x06, hi8 addr, lo8 addr, hi8 v, lo8 v] ∧
      readReg t.memory (u.toNat : Int) .HR (addr.toNat : Int) = v ∧
      SameButRegs (u.toNat : Int) (fun a => a = (addr.toNat : Int)) s.memory t.memory

/-- R164: a 0x10 request that passes its checks and stays within the bank writes its registers, answers with its first
six bytes, and changes no other cell. The check of the byte count against the quantity is the spec's decision D9. -/
def Obligations.WriteMultipleRegistersResult : Prop :=
  ∀ (s : State) (u : Byte) (addr count : Word16) (n : Byte) (payload : Frame),
    s.memory.wf = true → present s.memory (u.toNat : Int) = true →
    n.toNat = payload.length → n.toNat = 2 * count.toNat → addr.toNat + count.toNat ≤ 65536 →
    ∃ t, exec (.writeMultipleRegisters u addr count n payload) s = .next t ∧
      Answers s t [u, 0x10, hi8 addr, lo8 addr, hi8 count, lo8 count] ∧
      (∀ k < count.toNat,
        readReg t.memory (u.toNat : Int) .HR ((addr.toNat + k : Nat) : Int) = wireRegister payload k) ∧
      SameButRegs (u.toNat : Int) (fun a => (addr.toNat : Int) ≤ a ∧ a < addr.toNat + count.toNat) s.memory t.memory

/-- R168: a 0x0F request that passes its checks and stays within the bank writes its coils, answers with its first six
bytes, and changes no other cell. The check of the byte count against the quantity is the spec's decision D9. -/
def Obligations.WriteMultipleCoilsResult : Prop :=
  ∀ (s : State) (u : Byte) (addr count : Word16) (n : Byte) (payload : Frame),
    s.memory.wf = true → present s.memory (u.toNat : Int) = true →
    n.toNat = payload.length → n.toNat = ceilDiv count.toNat 8 → addr.toNat + count.toNat ≤ 65536 →
    ∃ t, exec (.writeMultipleCoils u addr count n payload) s = .next t ∧
      Answers s t [u, 0x0F, hi8 addr, lo8 addr, hi8 count, lo8 count] ∧
      (∀ k < count.toNat, readBit t.memory (u.toNat : Int) .CO ((addr.toNat + k : Nat) : Int) =
        coilBit s.params.coilMsbFirst payload k) ∧
      SameButBits (u.toNat : Int) (fun a => (addr.toNat : Int) ≤ a ∧ a < addr.toNat + count.toNat) s.memory t.memory

/-- R165, R169: a multiple write is answered with code 0x03 and writes nothing when it is shorter than 7 bytes, when its
byte count is not the length of its payload, and when its byte count does not fit its quantity (so for an odd byte count
or more than 127 registers of 0x10, and for more than 2040 coils of 0x0F). The third check of each is the spec's
decision D9. -/
def Obligations.MultipleWriteChecks : Prop :=
  ∀ (s : State) (u : Byte), present s.memory (u.toNat : Int) = true →
    (∀ body : Frame, body.length + 2 < 7 →
      (∃ t, dispatchFrame (u :: 0x10 :: body) s = .next t ∧ Answers s t [u, 0x90, 0x03] ∧ t.memory = s.memory) ∧
      (∃ t, dispatchFrame (u :: 0x0F :: body) s = .next t ∧ Answers s t [u, 0x8F, 0x03] ∧ t.memory = s.memory)) ∧
    (∀ (addr count : Word16) (n : Byte) (payload : Frame),
      ((n.toNat ≠ payload.length ∨ n.toNat ≠ 2 * count.toNat ∨ n.toNat % 2 = 1 ∨ 127 < count.toNat) →
        ∃ t, exec (.writeMultipleRegisters u addr count n payload) s = .next t ∧
          Answers s t [u, 0x90, 0x03] ∧ t.memory = s.memory) ∧
      ((n.toNat ≠ payload.length ∨ n.toNat ≠ ceilDiv count.toNat 8 ∨ 2040 < count.toNat) →
        ∃ t, exec (.writeMultipleCoils u addr count n payload) s = .next t ∧
          Answers s t [u, 0x8F, 0x03] ∧ t.memory = s.memory))

/-- R166: a 0x10 request that passes its checks and runs past address 65535 is answered `[u, 0x90, 0x03]`; with
`MULTI_WRITE_PRECHECK` false its registers up to 65535 are written, with it true nothing is. The spec marks this as its
decision D13; where the check of `MULTI_WRITE_PRECHECK` stands is log 19. -/
def Obligations.WriteRegistersAcrossTop : Prop :=
  ∀ (s : State) (u : Byte) (addr count : Word16) (n : Byte) (payload : Frame),
    s.memory.wf = true → present s.memory (u.toNat : Int) = true →
    n.toNat = payload.length → n.toNat = 2 * count.toNat → 65536 < addr.toNat + count.toNat →
    ∃ t, exec (.writeMultipleRegisters u addr count n payload) s = .next t ∧ Answers s t [u, 0x90, 0x03] ∧
      (s.params.multiWritePrecheck = true → t.memory = s.memory) ∧
      (s.params.multiWritePrecheck = false →
        (∀ k, addr.toNat + k ≤ 65535 →
          readReg t.memory (u.toNat : Int) .HR ((addr.toNat + k : Nat) : Int) = wireRegister payload k) ∧
        SameButRegs (u.toNat : Int) (fun a => (addr.toNat : Int) ≤ a ∧ a ≤ 65535) s.memory t.memory)

/-- R170: the same for 0x0F: `[u, 0x8F, 0x03]`, the coils up to 65535 written or, with `MULTI_WRITE_PRECHECK`, none. The
spec marks this as its decision D13; where the check of `MULTI_WRITE_PRECHECK` stands is log 19. -/
def Obligations.WriteCoilsAcrossTop : Prop :=
  ∀ (s : State) (u : Byte) (addr count : Word16) (n : Byte) (payload : Frame),
    s.memory.wf = true → present s.memory (u.toNat : Int) = true →
    n.toNat = payload.length → n.toNat = ceilDiv count.toNat 8 → 65536 < addr.toNat + count.toNat →
    ∃ t, exec (.writeMultipleCoils u addr count n payload) s = .next t ∧ Answers s t [u, 0x8F, 0x03] ∧
      (s.params.multiWritePrecheck = true → t.memory = s.memory) ∧
      (s.params.multiWritePrecheck = false →
        (∀ k, addr.toNat + k ≤ 65535 →
          readBit t.memory (u.toNat : Int) .CO ((addr.toNat + k : Nat) : Int) =
            coilBit s.params.coilMsbFirst payload k) ∧
        SameButBits (u.toNat : Int) (fun a => (addr.toNat : Int) ≤ a ∧ a ≤ 65535) s.memory t.memory)

/-- R167, R171: pad bits of a 0x0F payload have no effect at all, and a multiple write of nothing succeeds and writes
nothing. The spec marks these as its decisions D11 and D37. -/
def Obligations.PadBitsAndZeroCounts : Prop :=
  (∀ (s : State) (u : Byte) (addr count : Word16) (n : Byte) (payload payload' : Frame),
    payload.length = payload'.length →
    (∀ k < count.toNat, coilBit s.params.coilMsbFirst payload k = coilBit s.params.coilMsbFirst payload' k) →
    exec (.writeMultipleCoils u addr count n payload) s = exec (.writeMultipleCoils u addr count n payload') s) ∧
  (∀ (s : State) (u : Byte) (addr : Word16), present s.memory (u.toNat : Int) = true →
    (∃ t, exec (.writeMultipleCoils u addr 0 0 []) s = .next t ∧
      Answers s t [u, 0x0F, hi8 addr, lo8 addr, 0x00, 0x00] ∧ t.memory = s.memory) ∧
    (∃ t, exec (.writeMultipleRegisters u addr 0 0 []) s = .next t ∧
      Answers s t [u, 0x10, hi8 addr, lo8 addr, 0x00, 0x00] ∧ t.memory = s.memory))

/-- R172: no write reports 0x02, touches an input register or a discrete input, another device, or a cell outside its
span (register writes leave every bit alone and coil writes every register); one that ends in an exception has changed
nothing unless its span passes address 65535. The spec derives R172 itself; that 0x02 is never sent is its decision D14.
-/
def Obligations.WritesKeepTheirFrame : Prop :=
  ∀ (i : Instr) (s t : State), IsRead i = false → exec i s = .next t →
    (IsCoilWrite i = true → SameButBits (i.unit.toNat : Int) (InSpan i) s.memory t.memory) ∧
    (IsRegWrite i = true → SameButRegs (i.unit.toNat : Int) (InSpan i) s.memory t.memory) ∧
    t.pending ≠ some (frameOut s.params [i.unit, i.fn.code ||| 0x80, 0x02]) ∧
    (∀ code, t.pending = some (frameOut s.params [i.unit, i.fn.code ||| 0x80, code]) →
      t.memory = s.memory ∨ 65536 < i.addr.toNat + i.cells)

/-! ## What holds of every instruction -/

/-- R20, R120, R140, R172: whatever the instruction, only the pending response and, for a write, cells of its span
change: parameters, RUN, the channels, the host's results and the coming moves stay, at most two samples are drawn, a
read changes no part of memory, a coil write nothing but coils of the addressed unit at the addresses the request covers,
a register write nothing but holding registers there; no record and no timing configuration comes, goes or changes. The
index of the free values is the model's own, log 5. -/
def Obligations.ExecKeepsItsFrame : Prop :=
  ∀ (i : Instr) (s t : State), exec i s = .next t →
    (∃ c, 3 ≤ c.length ∧ Answers s t c) ∧ s.draws ≤ t.draws ∧ t.draws ≤ s.draws + 2 ∧
    (IsRead i = true → t.memory = s.memory) ∧
    (IsCoilWrite i = true → SameButBits (i.unit.toNat : Int) (InSpan i) s.memory t.memory) ∧
    (IsRegWrite i = true → SameButRegs (i.unit.toNat : Int) (InSpan i) s.memory t.memory)

/-- R26, R312: devices share nothing. The response to a request, its delay and what becomes of the addressed record depend
on that record alone, and every other record stays as it was. -/
def Obligations.AnswerDependsOnlyOnItsUnit : Prop :=
  ∀ (i : Instr) (s s' t : State), s'.params = s.params → s'.draws = s.draws →
    findDevice s'.memory (i.unit.toNat : Int) = findDevice s.memory (i.unit.toNat : Int) →
    exec i s = .next t →
    ∃ t', exec i s' = .next t' ∧ t'.pending = t.pending ∧ t'.due = t.due ∧
      findDevice t'.memory (i.unit.toNat : Int) = findDevice t.memory (i.unit.toNat : Int) ∧
      ∀ u : Int, u ≠ (i.unit.toNat : Int) → findDevice t'.memory u = findDevice s'.memory u

/-- R59, R340: presenting the same request again changes no part of memory further. -/
def Obligations.RepeatedRequestChangesNothing : Prop :=
  ∀ (i : Instr) (s t t' : State), s.memory.wf = true → exec i s = .next t →
    exec i (presentResponse t) = .next t' → t'.memory = t.memory

/-- R164, R143, R61 (the source's scenario, for every payload): registers written by a 0x10 request are read back byte for
byte by the next 0x03 request for the same range. -/
def Obligations.WriteThenReadRegisters : Prop :=
  ∀ (s t : State) (u : Byte) (addr count : Word16) (n : Byte) (payload extra : Frame),
    s.memory.wf = true → present s.memory (u.toNat : Int) = true →
    n.toNat = payload.length → n.toNat = 2 * count.toNat → addr.toNat + count.toNat ≤ 65536 →
    HasRoom s.params (.readHoldingRegisters u addr count extra) = true →
    exec (.writeMultipleRegisters u addr count n payload) s = .next t →
    ∃ t', exec (.readHoldingRegisters u addr count extra) (presentResponse t) = .next t' ∧
      Answers (presentResponse t) t' ([u, 0x03, n] ++ payload)

/-- R168, R141, R92: coils written packed by a 0x0F request are read back as the same packed bytes, pad bits 0, by the next
0x01 request for the same range. The packing of read responses is the spec's decision D30. -/
def Obligations.WriteThenReadCoils : Prop :=
  ∀ (s t : State) (u : Byte) (addr count : Word16) (n : Byte) (bits : List Bool) (extra : Frame),
    s.memory.wf = true → present s.memory (u.toNat : Int) = true →
    bits.length = count.toNat → n.toNat = ceilDiv count.toNat 8 → addr.toNat + count.toNat ≤ 65536 →
    HasRoom s.params (.readCoils u addr count extra) = true →
    exec (.writeMultipleCoils u addr count n (packBits s.params.coilMsbFirst bits)) s = .next t →
    ∃ t', exec (.readCoils u addr count extra) (presentResponse t) = .next t' ∧
      Answers (presentResponse t) t' ([u, 0x01, n] ++ packBits s.params.coilMsbFirst bits)

/-! ## Invariants of the whole machine -/

/-- R25, R31, R35, R38: the invariants hold after reset. -/
def Obligations.ResetMeetsInvariants : Prop := Inv State.reset ∧ ResponsesGood State.reset

/-- R25, R31, R35, R233: from every state that meets the invariant, every step gives a state that meets it, whoever
moves: memory stays canonical with unit ids in 1 to 247, timing configurations stay legal, `BUSY` says whether a
response is pending, an idle block has no running wait, and times are not negative. The parameters never change (R332).
That an idle block has `DUE` 0 and no running wait is the model's reading, log 8. -/
def Obligations.StepKeepsInvariant : Prop :=
  ∀ s t : State, Inv s → step s = .next t → Inv t ∧ t.params = s.params

/-- R215, R131: every step keeps it so that every response pending or presented is a core response of at least three
bytes in the channel's form, so with its CRC when `CRC_ENABLE` is set. The trailer is the spec's from general knowledge
(G1). -/
def Obligations.StepKeepsResponsesGood : Prop :=
  ∀ s t : State, ResponsesGood s → step s = .next t → ResponsesGood t

/-- R30, R291: nothing on the wire side reaches control state or the read-only banks: whatever step is taken that is no host
operation and no reset, RUN, the parameters, the set of devices and their timing configurations, every input register and
every discrete input stay. -/
def Obligations.WireCannotReachControlState : Prop :=
  ∀ s t : State, step s = .next t → (∀ tr ts, s.turns = tr :: ts → WireTurn tr = true) →
    t.run = s.run ∧ t.params = s.params ∧
    (∀ u, (findDevice t.memory u).map Device.timing = (findDevice s.memory u).map Device.timing) ∧
    (∀ u a, readReg t.memory u .IR a = readReg s.memory u .IR a) ∧
    (∀ u a, readBit t.memory u .DI a = readBit s.memory u .DI a)

/-! ## Acceptance and the timer -/

/-- R119: while RUN is clear or `BUSY` is set the dispatcher's move changes nothing, so the frame waits; otherwise a
frame the framing stage passes is taken from the channel and the block is `BUSY`. The spec marks this as its decisions
D18 and D26. -/
def Obligations.AcceptanceGate : Prop :=
  (∀ (s : State) (ts : List Turn), s.turns = .dispatch :: ts → (s.run = false ∨ s.busy = true) →
    step s = .next { s with turns := ts }) ∧
  (∀ (s t : State) (ts : List Turn) (w f : Frame) (rest : List Frame), s.turns = .dispatch :: ts →
    s.run = true → s.busy = false → s.requests = w :: rest → frameIn s.params w = some f → step s = .next t →
    t.busy = true ∧ t.requests = rest ∧ t.pending.isSome = true ∧ t.waited = .rat 0)

/-- R35, R63: while a response waits, no move but the timer's and a reset changes it or its `DUE`; host operations may
take effect meanwhile, and waiting request frames stay in their order. The spec marks the waiting of further frames as
its decision D26. -/
def Obligations.PendingUntouchedWhileWaiting : Prop :=
  ∀ (s t : State) (tr : Turn) (ts : List Turn), s.turns = tr :: ts → tr ≠ .timer → tr ≠ .reset →
    s.busy = true → step s = .next t →
    t.busy = true ∧ t.pending = s.pending ∧ t.due = s.due ∧ s.waited.value ≤ t.waited.value ∧
      ∃ more, t.requests = s.requests ++ more

/-- R309: a pending response is presented no sooner than `DUE` after acceptance, and what is presented is the pending
frame. The reading as a lower bound is the spec's decision D19. -/
def Obligations.PresentedNoSoonerThanDue : Prop :=
  ∀ s t : State, step s = .next t → s.busy = true → t.busy = false → (∀ ts, s.turns ≠ .reset :: ts) →
    s.due.value ≤ s.waited.value ∧ t.responses = s.responses ++ s.pending.toList

/-- R309, R343: left to itself, the block presents a pending response within two steps (its wait, then the
presentation). That the block moves by itself when no move is listed is the model's choice, log 7. -/
def Obligations.ResponsePresentedWithinTwoSteps : Prop :=
  ∀ s : State, s.busy = true → s.turns = [] →
    ∃ k t, k ≤ 2 ∧ Host.Core.run core k s = .next t ∧ t.busy = false ∧ t.pending = none ∧
      t.responses = s.responses ++ s.pending.toList ∧ t.memory = s.memory ∧ t.requests = s.requests

/-- R305: `registerCount(f)` is 1 for 0x05 and 0x06, the quantity field for the other six when the frame is long enough
to hold one, and 0 otherwise; the term is `perRegisterDelay × registerCount(f)`, 0 when not configured. Counting coils
as registers and the value 0 are the spec's decision D21. -/
def Obligations.RegisterCountOfRequest : Prop :=
  (∀ (u fc : Byte) (body : Frame),
    ((fc = 0x05 ∨ fc = 0x06) → registerCount (u :: fc :: body) = 1) ∧
    (fc ∈ ([0x01, 0x02, 0x03, 0x04, 0x0F, 0x10] : List Byte) →
      (4 ≤ body.length →
        registerCount (u :: fc :: body) = (body.getD 2 0).toNat * 256 + (body.getD 3 0).toNat) ∧
      (body.length < 4 → registerCount (u :: fc :: body) = 0)) ∧
    (fc ∉ rq6Codes → fc ∉ rqmCodes → registerCount (u :: fc :: body) = 0)) ∧
  (∀ f : Frame, f.length < 2 → registerCount f = 0) ∧
  (∀ (t : TimingConfig) (f : Frame), (perRegister t f).value = (t.perRegisterDelay.getD (.rat 0)).value * (registerCount f : ℝ))

/-- R301 to R306: the delay of a legal configuration is the detection term, the processing term, the per-register term
and the transmission term, so it lies between the sums of their least and greatest values, and is not negative. The
frame counted, the order of the detection forms and the free draw are the spec's decisions D20, D24 and D23; the form in
which reals are held is log 4. -/
def Obligations.DelayWithinItsTerms : Prop :=
  ∀ (p : Params) (t : TimingConfig) (f : Frame) (k : Nat), legalTiming t = true →
    let fixedPart := (t.perRegisterDelay.getD (.rat 0)).value * (registerCount f : ℝ) +
      (if t.transmissionEnable then
        ((if p.crcEnable then f.length + 2 else f.length : Nat) : ℝ) * 11 * 1000 / (t.baudRate.getD (.rat 0)).value else 0)
    (detectionRange t).1 + (processingRange t).1 + fixedPart ≤ (delay p t f k).1.value ∧
    (delay p t f k).1.value ≤ (detectionRange t).2 + (processingRange t).2 + fixedPart ∧
    0 ≤ (detectionRange t).1 + (processingRange t).1 + fixedPart

/-- R308: the worked examples. -/
def Obligations.DelayWorkedExample : Prop :=
  ∀ (p : Params) (k : Nat), p.crcEnable = false →
    (let d := (delay p
      { detectionDelay := some (.fixed (.rat 5)), pollingInterval := none,
        processingDelay := some (.range (.rat 2) (.rat 4)), perRegisterDelay := some (.rat (1 / 2)),
        transmissionEnable := true, baudRate := some (.rat 9600) }
      [0x01, 0x03, 0x00, 0x00, 0x00, 0x0A] k).1.value
     151 / 8 ≤ d ∧ d ≤ 167 / 8) ∧
    (∀ f : Frame,
      (let d := (delay p { TimingConfig.empty with pollingInterval := some (.rat 100) } f k).1.value
       0 ≤ d ∧ d ≤ 100) ∧
      (delay p TimingConfig.empty f k).1.value = 0)

/-- R129: every response to a registered unit with a timing configuration, exception frames included, is due after that
configuration's delay for the request as received; a unit without one, an unregistered unit and a frame too short for a
function code are due at once. That exception frames are delayed alike is the spec's decision D22. -/
def Obligations.DelayAppliesToRegisteredDevices : Prop :=
  ∀ (s t : State) (f : Frame), dispatchFrame f s = .next t →
    (f.length < 2 → t.due = .rat 0) ∧
    (∀ (u fc : Byte) (body : Frame), f = u :: fc :: body →
      (present s.memory (u.toNat : Int) = false → t.due = .rat 0) ∧
      (∀ d, findDevice s.memory (u.toNat : Int) = some d →
        (d.timing = none → t.due = .rat 0) ∧
        (∀ tm, d.timing = some tm → t.due = (delay s.params tm f s.draws).1)))

/-! ## The framing stage -/

/-- R217: a frame whose CRC is bad is discarded: no dispatch, no store access, no response, nothing pending, the block
idle at once. The spec marks this as its decision D2. -/
def Obligations.BadCrcIsDropped : Prop :=
  ∀ (s : State) (ts : List Turn) (w : Frame) (rest : List Frame), s.params.crcEnable = true →
    s.turns = .dispatch :: ts → s.run = true → s.busy = false → s.requests = w :: rest →
    fitsChannel s.params w.length = true → checkStrip w = none →
    ∃ t, step s = .next t ∧ t.memory = s.memory ∧ t.responses = s.responses ∧ t.results = s.results ∧
      t.pending = none ∧ t.busy = false ∧ t.requests = rest ∧ t.run = true ∧ t.draws = s.draws

/-- R220: the checksum of a frame with its trailer is 0, and among frames of two or more bytes the zero checksum and the
comparison of the trailer accept the same ones. The algorithm is the spec's from general knowledge (G1). -/
def Obligations.CrcResidueIsZero : Prop :=
  (∀ c : Frame, crc16 (addCrc c) = 0) ∧
  (∀ w : Frame, 2 ≤ w.length → ((checkStrip w).isSome = true ↔ crc16 w = 0))

/-- R215, R216: the check accepts exactly the frames that appending the trailer builds, and gives back their core frame.
The algorithm is the spec's from general knowledge (G1). -/
def Obligations.CheckStripInvertsAddCrc : Prop :=
  ∀ w c : Frame, checkStrip w = some c ↔ w = addCrc c

/-- R213: the worked example, shift by shift. -/
def Obligations.CrcWorkedExample : Prop :=
  0xFFFF#16 ^^^ 0x0001#16 = 0xFFFE#16 ∧
  crcShift 0xFFFE = 0x7FFF ∧ crcShift 0x7FFF = 0x9FFE ∧ crcShift 0x9FFE = 0x4FFF ∧ crcShift 0x4FFF = 0x87FE ∧
  crcShift 0x87FE = 0x43FF ∧ crcShift 0x43FF = 0x81FE ∧ crcShift 0x81FE = 0x40FF ∧ crcShift 0x40FF = 0x807E ∧
  crc16 [0x01] = 0x807E ∧ crc16 [0x00] = 0x40BF

/-! ## Host operations and reset -/

/-- R242, R243: a register write of the host port reports the first violated bound in the order address lower, address
upper, value lower, value upper, and then changes nothing; otherwise it writes that one register. That the address is
reported when both are out of range is the spec's decision D28 (R53, R247). -/
def Obligations.HostWritesRegister : Prop :=
  ∀ (s : State) (u a v : HostInt) (op : HostOp) (b : RegBank),
    ((op = .setHoldingRegister u a v ∧ b = .HR) ∨ (op = .setInputRegister u a v ∧ b = .IR)) →
    present s.memory u.toInt = true →
    (a.toInt < 0 → hostOp op s = (s, .error (.validation ⟨.address, .lower⟩))) ∧
    (65535 < a.toInt → hostOp op s = (s, .error (.validation ⟨.address, .upper⟩))) ∧
    (0 ≤ a.toInt → a.toInt ≤ 65535 →
      (v.toInt < 0 → hostOp op s = (s, .error (.validation ⟨.value, .lower⟩))) ∧
      (65535 < v.toInt → hostOp op s = (s, .error (.validation ⟨.value, .upper⟩))) ∧
      (0 ≤ v.toInt → v.toInt ≤ 65535 → s.memory.wf = true →
        ∃ m, hostOp op s = ({ s with memory := m }, .done) ∧
          ((readReg m u.toInt b a.toInt).toNat : Int) = v.toInt ∧
          (∀ u' b' a', ¬ (u' = u.toInt ∧ b' = b ∧ a' = a.toInt) → readReg m u' b' a' = readReg s.memory u' b' a') ∧
          (∀ u' b' a', readBit m u' b' a' = readBit s.memory u' b' a')))

/-- R244, R245: a bit write of the host port reports an address out of range and then changes nothing; otherwise it writes
that one bit. -/
def Obligations.HostWritesBit : Prop :=
  ∀ (s : State) (u a : HostInt) (v : Bool) (op : HostOp) (b : BitBank),
    ((op = .setCoil u a v ∧ b = .CO) ∨ (op = .setDiscreteInput u a v ∧ b = .DI)) →
    present s.memory u.toInt = true →
    (a.toInt < 0 → hostOp op s = (s, .error (.validation ⟨.address, .lower⟩))) ∧
    (65535 < a.toInt → hostOp op s = (s, .error (.validation ⟨.address, .upper⟩))) ∧
    (0 ≤ a.toInt → a.toInt ≤ 65535 → s.memory.wf = true →
      ∃ m, hostOp op s = ({ s with memory := m }, .done) ∧
        readBit m u.toInt b a.toInt = v ∧
        (∀ u' b' a', ¬ (u' = u.toInt ∧ b' = b ∧ a' = a.toInt) → readBit m u' b' a' = readBit s.memory u' b' a') ∧
        (∀ u' b' a', readReg m u' b' a' = readReg s.memory u' b' a'))

/-- R235, R238 to R241, R246: a host read returns the cell, 0 or false outside 0 to 65535, and changes nothing; the
eight store operations on an absent unit report `DeviceNotFoundError` and change nothing; `getDevice` returns the record
or none. The reads outside the range and the absent unit are the spec's decisions D29 and D17. -/
def Obligations.HostReadsAndAbsentUnits : Prop :=
  ∀ (s : State) (u a v : HostInt) (w : Bool),
    hostOp (.getDevice u) s = (s, .device (findDevice s.memory u.toInt)) ∧
    (present s.memory u.toInt = true →
      (∃ r, hostOp (.getHoldingRegister u a) s = (s, .register r) ∧ r = readReg s.memory u.toInt .HR a.toInt ∧
        ((a.toInt < 0 ∨ 65535 < a.toInt) → r = 0)) ∧
      (∃ r, hostOp (.getInputRegister u a) s = (s, .register r) ∧ r = readReg s.memory u.toInt .IR a.toInt ∧
        ((a.toInt < 0 ∨ 65535 < a.toInt) → r = 0)) ∧
      (∃ r, hostOp (.getCoil u a) s = (s, .bit r) ∧ r = readBit s.memory u.toInt .CO a.toInt ∧
        ((a.toInt < 0 ∨ 65535 < a.toInt) → r = false)) ∧
      (∃ r, hostOp (.getDiscreteInput u a) s = (s, .bit r) ∧ r = readBit s.memory u.toInt .DI a.toInt ∧
        ((a.toInt < 0 ∨ 65535 < a.toInt) → r = false))) ∧
    (present s.memory u.toInt = false →
      ∀ op ∈ [HostOp.getHoldingRegister u a, .getInputRegister u a, .getCoil u a, .getDiscreteInput u a,
          .setHoldingRegister u a v, .setInputRegister u a v, .setCoil u a w, .setDiscreteInput u a w],
        hostOp op s = (s, .error (.deviceNotFound u)))

/-- R231, R232, R233: `addDevice` is refused, and nothing changes, for a unit id outside 1 to 247, a unit already
present, an illegal timing configuration, and a seed with an address or a register value out of range, in this order.
(Which bound the `unitId` and `timing` reports carry is the model's reading and a free value, logs 13 and 14.) The
refusals are the spec's decisions D16, D23 and D34. -/
def Obligations.AddDeviceRefusals : Prop :=
  ∀ (s : State) (c : DeviceConfig),
    ((c.unitId.toInt < 1 ∨ 247 < c.unitId.toInt) →
      ∃ b, hostOp (.addDevice c) s = (s, .error (.validation ⟨.unitId, b⟩))) ∧
    (1 ≤ c.unitId.toInt → c.unitId.toInt ≤ 247 →
      (present s.memory c.unitId.toInt = true → hostOp (.addDevice c) s = (s, .error (.deviceExists c.unitId))) ∧
      (present s.memory c.unitId.toInt = false →
        (∀ t, c.timing = some t → legalTiming t = false →
          ∃ b, hostOp (.addDevice c) s = (s, .error (.validation ⟨.timing, b⟩))) ∧
        ((∀ t, c.timing = some t → legalTiming t = true) →
          ((∃ p ∈ c.holding ++ c.input, p.1.toInt < 0 ∨ 65535 < p.1.toInt ∨ p.2.toInt < 0 ∨ 65535 < p.2.toInt) ∨
            (∃ p ∈ c.coils ++ c.discrete, p.1.toInt < 0 ∨ 65535 < p.1.toInt)) →
          ∃ e, hostOp (.addDevice c) s = (s, .error (.validation e)) ∧ (e.field = .address ∨ e.field = .value))))

/-- R231, R232: otherwise `addDevice` creates and returns the record: seeded cells hold their values, every other cell
of the unit is 0 or false, the timing configuration is the one given, and no other unit changes. The shape of the seed
is the spec's decision D34. -/
def Obligations.AddDeviceCreates : Prop :=
  ∀ (s : State) (c : DeviceConfig),
    1 ≤ c.unitId.toInt → c.unitId.toInt ≤ 247 → present s.memory c.unitId.toInt = false →
    (∀ t, c.timing = some t → legalTiming t = true) →
    (∀ p ∈ c.holding ++ c.input, 0 ≤ p.1.toInt ∧ p.1.toInt ≤ 65535 ∧ 0 ≤ p.2.toInt ∧ p.2.toInt ≤ 65535) →
    (∀ p ∈ c.coils ++ c.discrete, 0 ≤ p.1.toInt ∧ p.1.toInt ≤ 65535) →
    (c.holding.map Prod.fst).Nodup → (c.input.map Prod.fst).Nodup →
    (c.coils.map Prod.fst).Nodup → (c.discrete.map Prod.fst).Nodup →
    ∃ m d, hostOp (.addDevice c) s = ({ s with memory := m }, .device (some d)) ∧
      findDevice m c.unitId.toInt = some d ∧ d.timing = c.timing ∧
      (∀ b l, (b = RegBank.HR ∧ l = c.holding) ∨ (b = RegBank.IR ∧ l = c.input) →
        (∀ p ∈ l, ((readReg m c.unitId.toInt b p.1.toInt).toNat : Int) = p.2.toInt) ∧
        (∀ a, (∀ p ∈ l, p.1.toInt ≠ a) → readReg m c.unitId.toInt b a = 0)) ∧
      (∀ b l, (b = BitBank.CO ∧ l = c.coils) ∨ (b = BitBank.DI ∧ l = c.discrete) →
        (∀ p ∈ l, readBit m c.unitId.toInt b p.1.toInt = p.2) ∧
        (∀ a, (∀ p ∈ l, p.1.toInt ≠ a) → readBit m c.unitId.toInt b a = false)) ∧
      ∀ u, u ≠ c.unitId.toInt → findDevice m u = findDevice s.memory u

/-- R234: `removeDevice` removes the record and its banks, so that the unit's next request is answered with 0x0B;
nothing happens for an absent unit; a pending response is not withdrawn, and every other unit stays. Its effect on an
absent unit and on a pending response is the spec's decision D17. -/
def Obligations.RemoveDeviceForgets : Prop :=
  ∀ (s : State) (u : HostInt),
    ∃ m, hostOp (.removeDevice u) s = ({ s with memory := m }, .done) ∧
      findDevice m u.toInt = none ∧
      (∀ u', u' ≠ u.toInt → findDevice m u' = findDevice s.memory u') ∧
      (present s.memory u.toInt = false → m = s.memory) ∧
      (∀ (x fc : Byte) (body : Frame), (x.toNat : Int) = u.toInt →
        ∃ t, dispatchFrame (x :: fc :: body) { s with memory := m } = .next t ∧
          t.pending = some (frameOut s.params [x, fc ||| 0x80, 0x0B]))

/-- R236, R237: `start` sets RUN and `stop` clears it; neither touches anything else, so a pending response and every
bank are kept. The spec marks these as its decision D18. -/
def Obligations.StartAndStop : Prop :=
  ∀ s : State, hostOp .start s = ({ s with run := true }, .done) ∧ hostOp .stop s = ({ s with run := false }, .done)

/-- R331, R332, R38: a reset empties the device table, clears RUN and the pending response, loses the waiting frames,
and does not touch the parameters. The waiting frames and the pending response are the spec's decision D35; what the
environment keeps is log 21. -/
def Obligations.ResetClearsTheBlock : Prop :=
  ∀ (s : State) (ts : List Turn), s.turns = .reset :: ts →
    ∃ t, step s = .next t ∧ t.memory = [] ∧ (∀ u, present t.memory u = false) ∧ t.run = false ∧ t.busy = false ∧
      t.pending = none ∧ t.due = .rat 0 ∧ t.waited = .rat 0 ∧ t.requests = [] ∧ t.params = s.params

/-! ## The client codec -/

/-- R181 to R189: what the builder builds for each operation, and when it refuses; what it builds is well-formed. The
refusals are the spec's decision D33. -/
def Obligations.BuilderBuildsTheLayouts : Prop :=
  (∀ (msb : Bool) (u : Byte) (a c : Word16) (v : Bool) (bits : List Bool) (bytes : Frame),
    buildRequest msb u (.readCoils a c) = some [u, 0x01, hi8 a, lo8 a, hi8 c, lo8 c] ∧
    buildRequest msb u (.readDiscreteInputs a c) = some [u, 0x02, hi8 a, lo8 a, hi8 c, lo8 c] ∧
    buildRequest msb u (.readHoldingRegisters a c) = some [u, 0x03, hi8 a, lo8 a, hi8 c, lo8 c] ∧
    buildRequest msb u (.readInputRegisters a c) = some [u, 0x04, hi8 a, lo8 a, hi8 c, lo8 c] ∧
    buildRequest msb u (.writeSingleCoil a v) = some [u, 0x05, hi8 a, lo8 a, if v then 0xFF else 0x00, 0x00] ∧
    buildRequest msb u (.writeSingleRegister a c) = some [u, 0x06, hi8 a, lo8 a, hi8 c, lo8 c] ∧
    (2040 < bits.length → buildRequest msb u (.writeMultipleCoils a bits) = none) ∧
    (bits.length ≤ 2040 → ∃ packed n, buildRequest msb u (.writeMultipleCoils a bits) =
        some ([u, 0x0F, hi8 a, lo8 a, hi8 n, lo8 n, BitVec.ofNat 8 (ceilDiv bits.length 8)] ++ packed) ∧
      n.toNat = bits.length ∧ packed.length = ceilDiv bits.length 8 ∧
      ∀ k < 8 * ceilDiv bits.length 8, coilBit msb packed k = bits.getD k false) ∧
    ((bytes.length % 2 = 1 ∨ 254 < bytes.length) → buildRequest msb u (.writeMultipleRegisters a bytes) = none) ∧
    (bytes.length % 2 = 0 → bytes.length ≤ 254 → ∃ n, buildRequest msb u (.writeMultipleRegisters a bytes) =
        some ([u, 0x10, hi8 a, lo8 a, hi8 n, lo8 n, BitVec.ofNat 8 bytes.length] ++ bytes) ∧
      n.toNat = bytes.length / 2)) ∧
  (∀ (msb : Bool) (u : Byte) (op : ClientOp) (i : Instr), buildInstr msb u op = some i →
    WellFormed i = true ∧ i.unit = u)

/-- R191 to R195: the parser's checks in their order, for any request and any response. R210, R219: with `CRC_ENABLE` a
frame from the channel whose trailer is bad is `Malformed(crc)` and nothing of the response is used; one whose trailer is
right is parsed as its core frame; without `CRC_ENABLE` the frame is parsed as it stands. The checks and their order are
the spec's decision D32; the trailer is the spec's from general knowledge (G1). -/
def Obligations.ParserChecksInOrder : Prop :=
  (∀ (p : Params) (q : Instr) (w : Frame),
    (p.crcEnable = true → checkStrip w = none → parseWire p q w = .malformed .crc) ∧
    (∀ r, p.crcEnable = true → checkStrip w = some r → parseWire p q w = parseFor q r) ∧
    (p.crcEnable = false → parseWire p q w = parseFor q w)) ∧
  ∀ (q : Instr) (r : Frame),
    (r.length < 3 → parseFor q r = .malformed .short) ∧
    ∀ (x fc third : Byte) (rest : Frame), r = x :: fc :: third :: rest →
      (x ≠ q.unit → parseFor q r = .malformed .unit) ∧
      (x = q.unit → fc = q.fn.code ||| 0x80 →
        (rest ≠ [] → parseFor q r = .malformed .length) ∧ (rest = [] → parseFor q r = .modbusException third)) ∧
      (x = q.unit → fc ≠ q.fn.code ||| 0x80 → fc ≠ q.fn.code → parseFor q r = .malformed .function) ∧
      (x = q.unit → fc = q.fn.code → IsRead q = true →
        (rest.length ≠ readLength q → parseFor q r = .malformed .length) ∧
        (rest.length = readLength q → third.toNat ≠ readLength q % 256 → parseFor q r = .malformed .bytecount) ∧
        (rest.length = readLength q → third.toNat = readLength q % 256 → parseFor q r = .data rest)) ∧
      (x = q.unit → fc = q.fn.code → IsRead q = false →
        (r.length ≠ 6 → parseFor q r = .malformed .length) ∧
        (r.length = 6 → r ≠ (encode q).take 6 → parseFor q r = .malformed .echo) ∧
        (r = (encode q).take 6 → parseFor q r = .done))

/-- R196: for every registered unit, address and count, what the client parses from the server's response to a read it
built is the data of the store: `2 × count` bytes whose register `k` is the bank's cell `addr + k`, or the packed bits.
The wire form is included: with `CRC_ENABLE` the trailer is appended and checked on the way. The spec derives R196
itself. -/
def Obligations.ReadRoundTrip : Prop :=
  ∀ (s : State) (u : Byte) (addr count : Word16), present s.memory (u.toNat : Int) = true →
    (∀ (op : ClientOp) (b : RegBank),
      ((op = .readHoldingRegisters addr count ∧ b = .HR) ∨ (op = .readInputRegisters addr count ∧ b = .IR)) →
      ∃ i, buildInstr s.params.coilMsbFirst u op = some i ∧ (HasRoom s.params i = true →
        ∃ t w data, dispatchFrame (encode i) s = .next t ∧ t.pending = some w ∧
          parseWire s.params i w = .data data ∧ data.length = 2 * count.toNat ∧
          ∀ k < count.toNat, dataRegister data k = readReg s.memory (u.toNat : Int) b ((addr.toNat + k : Nat) : Int))) ∧
    (∀ (op : ClientOp) (b : BitBank),
      ((op = .readCoils addr count ∧ b = .CO) ∨ (op = .readDiscreteInputs addr count ∧ b = .DI)) →
      ∃ i, buildInstr s.params.coilMsbFirst u op = some i ∧ (HasRoom s.params i = true →
        ∃ t w data, dispatchFrame (encode i) s = .next t ∧ t.pending = some w ∧
          parseWire s.params i w = .data data ∧ data.length = ceilDiv count.toNat 8 ∧
          ∀ k < count.toNat, coilBit s.params.coilMsbFirst data k =
            readBit s.memory (u.toNat : Int) b ((addr.toNat + k : Nat) : Int)))

/-- R196: for every request the builder can build and every state of the block, the client never finds the server's
response malformed. The spec derives R196 itself. -/
def Obligations.BuiltRequestsNeverMalformed : Prop :=
  ∀ (s t : State) (u : Byte) (op : ClientOp) (i : Instr) (w : Frame),
    buildInstr s.params.coilMsbFirst u op = some i → dispatchFrame (encode i) s = .next t → t.pending = some w →
    ∀ why, parseWire s.params i w ≠ .malformed why
end

