-- ==== Sys2Proof/Laws/Bank.lean ====
section
/-!
SUPPORT. Laws of one bank: what a cell reads after a write, and that a write keeps the canonical form.
-/

namespace Sys2Proof.Laws

open Sys2Proof Sys2Proof.Machine

variable {α : Type} [DecidableEq α] {unset : α}

omit [DecidableEq α] in
@[simp] theorem get_nil (a : Nat) : Bank.get unset ([] : Bank α) a = unset := rfl

/-- A write leaves every other cell alone, in any list. -/
theorem get_set_other (b : Bank α) {a a' : Nat} (v : α) (h : a' ≠ a) :
    Bank.get unset (Bank.set unset b a v) a' = Bank.get unset b a' := by
  induction b with
  | nil =>
    simp only [Bank.set]
    split <;> simp [Bank.get, h]
  | cons e rest ih =>
    obtain ⟨k, w⟩ := e
    simp only [Bank.set]
    split
    · split <;> simp [Bank.get, h]
    · split
      · rename_i hk
        subst hk
        split <;> simp [Bank.get, h]
      · simp [Bank.get, ih]

theorem wfFrom_mono {b : Bank α} {lo lo' : Nat} (h : lo' ≤ lo) (hw : Bank.wfFrom unset lo b = true) :
    Bank.wfFrom unset lo' b = true := by
  cases b with
  | nil => rfl
  | cons e rest =>
    obtain ⟨k, w⟩ := e
    simp only [Bank.wfFrom, Bool.and_eq_true, decide_eq_true_eq] at hw ⊢
    exact ⟨⟨⟨by omega, hw.1.1.2⟩, hw.1.2⟩, hw.2⟩

/-- A canonical bank lists nothing below its lower bound. -/
theorem get_below {b : Bank α} {lo a : Nat} (hw : Bank.wfFrom unset lo b = true) (h : a < lo) :
    Bank.get unset b a = unset := by
  induction b generalizing lo with
  | nil => rfl
  | cons e rest ih =>
    obtain ⟨k, w⟩ := e
    simp only [Bank.wfFrom, Bool.and_eq_true, decide_eq_true_eq] at hw
    have hne : a ≠ k := by omega
    simp only [Bank.get, hne, if_false]
    exact ih hw.2 (by omega)

/-- A canonical bank reads back what was written. -/
theorem get_set_self {b : Bank α} {lo : Nat} (hw : Bank.wfFrom unset lo b = true) (a : Nat) (v : α) :
    Bank.get unset (Bank.set unset b a v) a = v := by
  induction b generalizing lo with
  | nil =>
    simp only [Bank.set]
    split <;> simp_all [Bank.get]
  | cons e rest ih =>
    obtain ⟨k, w⟩ := e
    have hw' := hw
    simp only [Bank.wfFrom, Bool.and_eq_true, decide_eq_true_eq] at hw
    simp only [Bank.set]
    split
    · rename_i hlt
      split
      · rename_i hv
        subst hv
        have hne : a ≠ k := by omega
        simp only [Bank.get, hne, if_false]
        exact get_below hw.2 (by omega)
      · simp [Bank.get]
    · split
      · rename_i hk
        subst hk
        split
        · rename_i hv
          subst hv
          exact get_below hw.2 (by omega)
        · simp [Bank.get]
      · rename_i hne
        simp only [Bank.get, hne, if_false]
        exact ih hw.2

theorem wfFrom_set {b : Bank α} {lo a : Nat} {v : α} (hlo : lo ≤ a) (ha : a ≤ Config.addrMax)
    (hw : Bank.wfFrom unset lo b = true) : Bank.wfFrom unset lo (Bank.set unset b a v) = true := by
  induction b generalizing lo with
  | nil =>
    simp only [Bank.set]
    split
    · rfl
    · rename_i hv
      simp [Bank.wfFrom, hlo, ha, hv]
  | cons e rest ih =>
    obtain ⟨k, w⟩ := e
    have hw' := hw
    simp only [Bank.wfFrom, Bool.and_eq_true, decide_eq_true_eq] at hw
    simp only [Bank.set]
    split
    · rename_i hlt
      split
      · exact hw'
      · rename_i hv
        simp only [Bank.wfFrom, Bool.and_eq_true, decide_eq_true_eq]
        exact ⟨⟨⟨hlo, ha⟩, hv⟩, ⟨⟨by omega, hw.1.1.2⟩, hw.1.2⟩, hw.2⟩
    · split
      · rename_i hk
        subst hk
        split
        · exact wfFrom_mono (by omega) hw.2
        · rename_i hv
          simp only [Bank.wfFrom, Bool.and_eq_true, decide_eq_true_eq]
          exact ⟨⟨⟨hlo, ha⟩, hv⟩, hw.2⟩
      · simp only [Bank.wfFrom, Bool.and_eq_true, decide_eq_true_eq]
        exact ⟨hw.1, ih (by omega) hw.2⟩

/-- Writing the value a cell already holds changes nothing (R59). -/
theorem set_get_same {b : Bank α} {lo : Nat} (hw : Bank.wfFrom unset lo b = true) (a : Nat) :
    Bank.set unset b a (Bank.get unset b a) = b := by
  induction b generalizing lo with
  | nil => simp [Bank.set]
  | cons e rest ih =>
    obtain ⟨k, w⟩ := e
    simp only [Bank.wfFrom, Bool.and_eq_true, decide_eq_true_eq] at hw
    by_cases hlt : a < k
    · have hne : a ≠ k := by omega
      have := get_below (a := a) hw.2 (by omega)
      simp [Bank.set, Bank.get, hlt, hne, this]
    · by_cases hk : a = k
      · subst hk
        simp [Bank.set, Bank.get, hw.1.2]
      · simp [Bank.set, Bank.get, hlt, hk, ih hw.2]

/-- Two writes to one cell are the last of them. -/
theorem set_set {b : Bank α} {lo : Nat} (hw : Bank.wfFrom unset lo b = true) (a : Nat) (v v' : α) :
    Bank.set unset (Bank.set unset b a v) a v' = Bank.set unset b a v' := by
  induction b generalizing lo with
  | nil =>
    simp only [Bank.set]
    by_cases hv : v = unset <;> simp [hv, Bank.set]
  | cons e rest ih =>
    obtain ⟨k, w⟩ := e
    simp only [Bank.wfFrom, Bool.and_eq_true, decide_eq_true_eq] at hw
    by_cases hlt : a < k
    · by_cases hv : v = unset <;> simp [Bank.set, hlt, hv]
    · by_cases hk : a = k
      · subst hk
        by_cases hv : v = unset
        · subst hv
          simp only [Bank.set, lt_irrefl, if_false, if_true]
          cases rest with
          | nil => simp [Bank.set]
          | cons e' rest' =>
            obtain ⟨k', w'⟩ := e'
            have h2 := hw.2
            simp only [Bank.wfFrom, Bool.and_eq_true, decide_eq_true_eq] at h2
            have : a < k' := by omega
            simp [Bank.set, this]
        · simp [Bank.set, hv]
      · simp [Bank.set, hlt, hk, ih hw.2]

end Sys2Proof.Laws
end

