-- ==== Sys2Proof/Laws/Codec.lean ====
section
/-!
SUPPORT. Laws of the byte-order helpers, the opcode table and the field layouts.
-/

namespace Sys2Proof.Laws

open Sys2Proof

@[simp] theorem toNat_hi8 (v : Word16) : (hi8 v).toNat = v.toNat / 256 := by
  have := v.isLt
  simp only [hi8, BitVec.extractLsb'_toNat, Nat.shiftRight_eq_div_pow]
  omega

@[simp] theorem toNat_lo8 (v : Word16) : (lo8 v).toNat = v.toNat % 256 := by
  simp [lo8]

@[simp] theorem toNat_be16 (h l : Byte) : (be16 h l).toNat = h.toNat * 256 + l.toNat := by
  have := h.isLt
  have := l.isLt
  simp only [be16, BitVec.toNat_ofNat]
  omega

/-- `be16` of `[hi8(v), lo8(v)]` is `v` (R11). -/
@[simp] theorem be16_hi8_lo8 (v : Word16) : be16 (hi8 v) (lo8 v) = v := by
  apply BitVec.eq_of_toNat_eq
  simp only [toNat_be16, toNat_hi8, toNat_lo8]
  omega

@[simp] theorem hi8_be16 (h l : Byte) : hi8 (be16 h l) = h := by
  apply BitVec.eq_of_toNat_eq
  have := l.isLt
  simp only [toNat_be16, toNat_hi8]
  omega

@[simp] theorem lo8_be16 (h l : Byte) : lo8 (be16 h l) = l := by
  apply BitVec.eq_of_toNat_eq
  have := l.isLt
  simp only [toNat_be16, toNat_lo8]
  omega

/-- The table finds every function under its own code. -/
@[simp] theorem fnOf_code (fn : Fn) : fnOf fn.code = some fn := by
  cases fn <;> decide

/-- Every row is matched on the whole byte, under its function's own code (R93). -/
theorem fnTable_rows : ∀ r ∈ fnTable, r.mask = BitVec.allOnes 8 ∧ r.pattern = r.fn.code := by decide

/-- What the table finds was found under its own code. -/
theorem code_of_fnOf (fc : Byte) (fn : Fn) (h : fnOf fc = some fn) : fc = fn.code := by
  obtain ⟨r, hr, rfl⟩ := Option.map_eq_some_iff.mp h
  obtain ⟨hm, hp⟩ := fnTable_rows r (List.mem_of_find?_eq_some hr)
  have hc := List.find?_some hr
  simp only [FnRow.covers, hm, hp, BitVec.and_allOnes, decide_eq_true_eq] at hc
  exact hc

theorem fnOf_eq_some {fc : Byte} {fn : Fn} : fnOf fc = some fn ↔ fc = fn.code :=
  ⟨code_of_fnOf fc fn, fun h => h ▸ fnOf_code fn⟩

/-- A byte is unknown to the table exactly when it is none of the eight codes (R97). -/
theorem fnOf_eq_none {fc : Byte} : fnOf fc = none ↔ ∀ fn : Fn, fc ≠ fn.code := by
  constructor
  · rintro h fn rfl
    simp at h
  · intro h
    cases hf : fnOf fc with
    | none => rfl
    | some fn => exact absurd (code_of_fnOf fc fn hf) (h fn)

/-- The rows of the opcode table do not overlap (R93). -/
theorem fnTable_pairwise : fnTable.Pairwise (fun a b => a.pattern ≠ b.pattern) := by decide

theorem length_encodeRq6 (u fc : Byte) (a p : Word16) (x : Frame) :
    (encodeRq6 u fc a p x).length = 6 + x.length := by
  simp [encodeRq6]
  omega

theorem length_encodeRqm (u fc : Byte) (a c : Word16) (n : Byte) (p : Frame) :
    (encodeRqm u fc a c n p).length = 7 + p.length := by
  simp [encodeRqm]
  omega

theorem length_bytesOfNat (n w : Nat) : (bytesOfNat n w).length = n := by
  induction n generalizing w with
  | zero => rfl
  | succ n ih => simp [bytesOfNat, ih]

end Sys2Proof.Laws
end

