-- ==== Sys2Proof/Laws/Crc.lean ====
section
/-!
SUPPORT. Laws of the checksum and of the framing stage.
-/

namespace Sys2Proof.Laws

open Sys2Proof Sys2Proof.Machine

@[simp] theorem crcFrom_nil (c : Word16) : crcFrom c [] = c := rfl
@[simp] theorem crcFrom_cons (c : Word16) (b : Byte) (s : Frame) :
    crcFrom c (b :: s) = crcFrom (crcByte c b) s := rfl
theorem crcFrom_append (c : Word16) (s t : Frame) : crcFrom c (s ++ t) = crcFrom (crcFrom c s) t := by
  simp [crcFrom]

@[simp] theorem length_crcTrailer (c : Frame) : (crcTrailer c).length = 2 := rfl
@[simp] theorem length_addCrc (c : Frame) : (addCrc c).length = c.length + 2 := by simp [addCrc]

/-- A frame takes `channelLength` bytes on its channel. -/
@[simp] theorem length_frameOut (p : Params) (c : Frame) : (frameOut p c).length = channelLength p c.length := by
  unfold frameOut channelLength
  split <;> simp

/-- Framing loses nothing: two core frames with one channel form are equal. -/
theorem frameOut_inj {p : Params} {c c' : Frame} (h : frameOut p c = frameOut p c') : c = c' := by
  unfold frameOut at h
  split at h
  · exact (List.append_inj' h (by simp)).1
  · exact h

/-- A shift step loses nothing: bit 15 of the result tells which case it was. -/
theorem crcShift_inj {x y : Word16} (h : crcShift x = crcShift y) : x = y := by
  have hb : ∀ z : Word16, (crcShift z).getLsbD 15 = z.getLsbD 0 := by
    intro z
    unfold crcShift
    split <;> simp_all
  have h0 : x.getLsbD 0 = y.getLsbD 0 := by rw [← hb x, ← hb y, h]
  have hs : x >>> 1 = y >>> 1 := by
    unfold crcShift at h
    rw [h0] at h
    split at h
    · simpa using congrArg (· ^^^ 0xA001#16) h
    · exact h
  apply BitVec.eq_of_getLsbD_eq
  intro i hi
  cases i with
  | zero => exact h0
  | succ i =>
    have := congrArg (·.getLsbD i) hs
    simpa [BitVec.getLsbD_ushiftRight, Nat.add_comm] using this

theorem crcShift8_inj {x y : Word16} (h : crcShift8 x = crcShift8 y) : x = y := by
  unfold crcShift8 at h
  exact crcShift_inj (crcShift_inj (crcShift_inj (crcShift_inj
    (crcShift_inj (crcShift_inj (crcShift_inj (crcShift_inj h)))))))

/-- Eight shifts move a high byte over an empty low byte down. -/
theorem crcShift8_high (h : Byte) : crcShift8 (be16 h 0#8) = h.setWidth 16 := by
  have key : ∀ k : Fin 256, crcShift8 (be16 (BitVec.ofFin k) 0#8) = (BitVec.ofFin (w := 8) k).setWidth 16 := by
    decide +kernel
  exact key h.toFin

end Sys2Proof.Laws
end

