-- ==== Sys2Proof/Laws/Memory.lean ====
section
/-!
SUPPORT. Laws of the device table and of the two access primitives: what every cell reads after a write, and that every
memory operation keeps the canonical form.
-/

namespace Sys2Proof.Laws

open Sys2Proof Sys2Proof.Machine

/-! ## Lookup -/

theorem unitId_of_findDevice {m : Memory} {u : Int} {d : Device} (h : findDevice m u = some d) :
    (d.unitId : Int) = u := by
  simpa using List.find?_some h

theorem mem_of_findDevice {m : Memory} {u : Int} {d : Device} (h : findDevice m u = some d) : d ∈ m :=
  List.mem_of_find?_eq_some h

theorem present_iff {m : Memory} {u : Int} : present m u = true ↔ ∃ d, findDevice m u = some d := by
  simp [present, Option.isSome_iff_exists]

theorem findDevice_cons (d : Device) (m : Memory) (u : Int) :
    findDevice (d :: m) u = if (d.unitId : Int) = u then some d else findDevice m u := by
  by_cases h : (d.unitId : Int) = u <;> simp [findDevice, h]

/-- A change of one record is seen under its unit id and nowhere else. -/
theorem findDevice_updateDevice {g : Device → Device} (hg : ∀ d, (g d).unitId = d.unitId) (m : Memory) (u u' : Int) :
    findDevice (updateDevice m u g) u' = if u' = u then (findDevice m u').map g else findDevice m u' := by
  induction m with
  | nil => simp [updateDevice, findDevice]
  | cons d m ih =>
    simp only [updateDevice, List.map_cons] at ih ⊢
    by_cases hd : (d.unitId : Int) = u <;> by_cases hu : u' = u <;> by_cases hd' : (d.unitId : Int) = u' <;>
      simp_all [findDevice_cons]

@[simp] theorem unitId_setReg (d : Device) (b : RegBank) (a : Nat) (v : Word16) :
    (d.setReg b a v).unitId = d.unitId := by cases b <;> rfl
@[simp] theorem unitId_setBit (d : Device) (b : BitBank) (a : Nat) (v : Bool) :
    (d.setBit b a v).unitId = d.unitId := by cases b <;> rfl
@[simp] theorem timing_setReg (d : Device) (b : RegBank) (a : Nat) (v : Word16) :
    (d.setReg b a v).timing = d.timing := by cases b <;> rfl
@[simp] theorem timing_setBit (d : Device) (b : BitBank) (a : Nat) (v : Bool) :
    (d.setBit b a v).timing = d.timing := by cases b <;> rfl
@[simp] theorem bits_setReg (d : Device) (b : RegBank) (a : Nat) (v : Word16) (b' : BitBank) :
    (d.setReg b a v).bits b' = d.bits b' := by cases b <;> cases b' <;> rfl
@[simp] theorem regs_setBit (d : Device) (b : BitBank) (a : Nat) (v : Bool) (b' : RegBank) :
    (d.setBit b a v).regs b' = d.regs b' := by cases b <;> cases b' <;> rfl
theorem regs_setReg (d : Device) (b : RegBank) (a : Nat) (v : Word16) (b' : RegBank) :
    (d.setReg b a v).regs b' = if b' = b then Bank.set unsetRegister (d.regs b) a v else d.regs b' := by
  cases b <;> cases b' <;> rfl
theorem bits_setBit (d : Device) (b : BitBank) (a : Nat) (v : Bool) (b' : BitBank) :
    (d.setBit b a v).bits b' = if b' = b then Bank.set unsetBit (d.bits b) a v else d.bits b' := by
  cases b <;> cases b' <;> rfl

/-! ## The canonical form -/

theorem wf_regs {d : Device} (h : d.wf = true) (b : RegBank) : Bank.wfFrom unsetRegister 0 (d.regs b) = true := by
  simp only [Device.wf, Bool.and_eq_true] at h
  cases b <;> simp [Device.regs, h]

theorem wf_bits {d : Device} (h : d.wf = true) (b : BitBank) : Bank.wfFrom unsetBit 0 (d.bits b) = true := by
  simp only [Device.wf, Bool.and_eq_true] at h
  cases b <;> simp [Device.bits, h]

theorem wf_unitId {d : Device} (h : d.wf = true) : 1 ≤ d.unitId ∧ d.unitId ≤ 247 := by
  simp only [Device.wf, Bool.and_eq_true, decide_eq_true_eq] at h
  exact h.1.1.1.1

theorem wf_setReg {d : Device} (h : d.wf = true) (b : RegBank) {a : Nat} (ha : a ≤ Config.addrMax) (v : Word16) :
    (d.setReg b a v).wf = true := by
  simp only [Device.wf, Bool.and_eq_true] at h ⊢
  cases b <;> simp only [Device.setReg] <;> simp_all [wfFrom_set]

theorem wf_setBit {d : Device} (h : d.wf = true) (b : BitBank) {a : Nat} (ha : a ≤ Config.addrMax) (v : Bool) :
    (d.setBit b a v).wf = true := by
  simp only [Device.wf, Bool.and_eq_true] at h ⊢
  cases b <;> simp only [Device.setBit] <;> simp_all [wfFrom_set]

theorem wfFrom_cons {lo : Nat} {d : Device} {m : Memory} :
    Memory.wfFrom lo (d :: m) = true ↔ lo ≤ d.unitId ∧ d.wf = true ∧ Memory.wfFrom (d.unitId + 1) m = true := by
  simp [Memory.wfFrom, and_assoc]

theorem memory_wfFrom_mono {m : Memory} {lo lo' : Nat} (h : lo' ≤ lo) (hw : Memory.wfFrom lo m = true) :
    Memory.wfFrom lo' m = true := by
  cases m with
  | nil => rfl
  | cons d m =>
    rw [wfFrom_cons] at hw ⊢
    exact ⟨by omega, hw.2⟩

theorem wf_of_mem {m : Memory} {lo : Nat} (hw : Memory.wfFrom lo m = true) {d : Device} (hd : d ∈ m) :
    d.wf = true ∧ lo ≤ d.unitId := by
  induction m generalizing lo with
  | nil => simp at hd
  | cons e m ih =>
    rw [wfFrom_cons] at hw
    rcases List.mem_cons.mp hd with rfl | hd
    · exact ⟨hw.2.1, hw.1⟩
    · have := ih hw.2.2 hd
      exact ⟨this.1, by omega⟩

/-- The record a canonical memory finds is canonical. -/
theorem wf_of_findDevice {m : Memory} (hw : m.wf = true) {u : Int} {d : Device} (h : findDevice m u = some d) :
    d.wf = true := (wf_of_mem hw (mem_of_findDevice h)).1

/-- A registered unit id lies in 1 to 247 (R31). -/
theorem unit_of_present {m : Memory} (hw : m.wf = true) {u : Int} (h : present m u = true) : 1 ≤ u ∧ u ≤ 247 := by
  obtain ⟨d, hd⟩ := present_iff.mp h
  have := wf_unitId (wf_of_findDevice hw hd)
  have := unitId_of_findDevice hd
  omega

theorem memory_wf_updateDevice {m : Memory} {lo : Nat} {u : Int} {g : Device → Device}
    (hg : ∀ d, (g d).unitId = d.unitId) (hgw : ∀ d, d.wf = true → (g d).wf = true)
    (hw : Memory.wfFrom lo m = true) : Memory.wfFrom lo (updateDevice m u g) = true := by
  induction m generalizing lo with
  | nil => rfl
  | cons d m ih =>
    simp only [updateDevice, List.map_cons] at ih ⊢
    rw [wfFrom_cons] at hw ⊢
    split
    · exact ⟨by rw [hg]; exact hw.1, hgw d hw.2.1, by rw [hg]; exact ih hw.2.2⟩
    · exact ⟨hw.1, hw.2.1, ih hw.2.2⟩

theorem memory_wf_insertDevice {m : Memory} {lo : Nat} {d : Device} (hlo : lo ≤ d.unitId) (hd : d.wf = true)
    (hn : findDevice m (d.unitId : Int) = none) (hw : Memory.wfFrom lo m = true) :
    Memory.wfFrom lo (insertDevice d m) = true := by
  induction m generalizing lo with
  | nil => simp [insertDevice, Memory.wfFrom, hlo, hd]
  | cons e m ih =>
    rw [wfFrom_cons] at hw
    rw [findDevice_cons] at hn
    have hne : e.unitId ≠ d.unitId := by
      rintro h
      simp [h] at hn
    have hn' : findDevice m (d.unitId : Int) = none := by
      rw [if_neg (by omega)] at hn
      exact hn
    simp only [insertDevice]
    split
    · rw [wfFrom_cons, wfFrom_cons]
      exact ⟨hlo, hd, by omega, hw.2⟩
    · rw [wfFrom_cons]
      exact ⟨hw.1, hw.2.1, ih (by omega) hn' hw.2.2⟩

theorem memory_wf_dropDevice {m : Memory} {lo : Nat} (u : Int) (hw : Memory.wfFrom lo m = true) :
    Memory.wfFrom lo (dropDevice m u) = true := by
  induction m generalizing lo with
  | nil => rfl
  | cons d m ih =>
    rw [wfFrom_cons] at hw
    simp only [dropDevice, List.filter_cons] at ih ⊢
    split
    · rw [wfFrom_cons]
      exact ⟨hw.1, hw.2.1, ih hw.2.2⟩
    · exact memory_wfFrom_mono (by omega) (ih hw.2.2)

theorem findDevice_insertDevice (m : Memory) (d : Device) (hn : findDevice m (d.unitId : Int) = none) (u : Int) :
    findDevice (insertDevice d m) u = if (d.unitId : Int) = u then some d else findDevice m u := by
  induction m with
  | nil => simp [insertDevice, findDevice_cons]
  | cons e m ih =>
    rw [findDevice_cons] at hn
    have hne : (e.unitId : Int) ≠ d.unitId := by
      intro h
      simp [h] at hn
    rw [if_neg hne] at hn
    simp only [insertDevice]
    split
    · rw [findDevice_cons]
    · rw [findDevice_cons, findDevice_cons, ih hn]
      by_cases hu : (e.unitId : Int) = u
      · have : (d.unitId : Int) ≠ u := by omega
        simp [hu, this]
      · simp [hu]

theorem findDevice_dropDevice (m : Memory) (u u' : Int) :
    findDevice (dropDevice m u) u' = if u' = u then none else findDevice m u' := by
  induction m with
  | nil => simp [dropDevice, findDevice]
  | cons d m ih =>
    simp only [dropDevice, List.filter_cons] at ih ⊢
    by_cases hd : (d.unitId : Int) = u <;> by_cases hu : u' = u <;> by_cases hd' : (d.unitId : Int) = u' <;>
      simp_all [findDevice_cons]

/-! ## The two access primitives -/

theorem readReg_found {m : Memory} {u : Int} {d : Device} (h : findDevice m u = some d) (b : RegBank) (a : Int) :
    readReg m u b a = if inRange a then Bank.get unsetRegister (d.regs b) a.toNat else unsetRegister := by
  simp [readReg, h]

theorem readReg_absent {m : Memory} {u : Int} (h : findDevice m u = none) (b : RegBank) (a : Int) :
    readReg m u b a = unsetRegister := by simp [readReg, h]

theorem readBit_found {m : Memory} {u : Int} {d : Device} (h : findDevice m u = some d) (b : BitBank) (a : Int) :
    readBit m u b a = if inRange a then Bank.get unsetBit (d.bits b) a.toNat else unsetBit := by
  simp [readBit, h]

theorem readBit_absent {m : Memory} {u : Int} (h : findDevice m u = none) (b : BitBank) (a : Int) :
    readBit m u b a = unsetBit := by simp [readBit, h]

/-- A read looks at one record only. -/
theorem readReg_congr {m m' : Memory} {u : Int} (h : findDevice m u = findDevice m' u) (b : RegBank) (a : Int) :
    readReg m u b a = readReg m' u b a := by simp only [readReg, h]

theorem readBit_congr {m m' : Memory} {u : Int} (h : findDevice m u = findDevice m' u) (b : BitBank) (a : Int) :
    readBit m u b a = readBit m' u b a := by simp only [readBit, h]

theorem checkAddress_eq_none {a : Int} : checkAddress a = none ↔ 0 ≤ a ∧ a ≤ 65535 := by
  unfold checkAddress
  simp only [Config.addrMax]
  split_ifs <;> simp <;> omega

theorem checkValue_eq_none {v : Int} : checkValue v = none ↔ 0 ≤ v ∧ v ≤ 65535 := by
  unfold checkValue
  simp only [Config.valueMax]
  split_ifs <;> simp <;> omega

theorem inRange_iff {a : Int} : inRange a = true ↔ 0 ≤ a ∧ a ≤ 65535 := by
  simp only [inRange, Bool.and_eq_true, decide_eq_true_eq]
  exact Iff.rfl

/-- What `MemWrite` answers with `ok` (R53): the arguments were in range and one cell was written. -/
theorem writeReg_ok {m m' : Memory} {u : Int} {b : RegBank} {a v : Int} (h : writeReg m u b a v = .ok m') :
    (0 ≤ a ∧ a ≤ 65535) ∧ (0 ≤ v ∧ v ≤ 65535) ∧
      m' = updateDevice m u fun d => d.setReg b a.toNat (BitVec.ofInt 16 v) := by
  unfold writeReg at h
  split at h
  · simp at h
  · rename_i ha
    split at h
    · simp at h
    · rename_i hv
      exact ⟨checkAddress_eq_none.mp ha, checkValue_eq_none.mp hv, by simpa using h.symm⟩

theorem writeBit_ok {m m' : Memory} {u : Int} {b : BitBank} {a : Int} {v : Bool} (h : writeBit m u b a v = .ok m') :
    (0 ≤ a ∧ a ≤ 65535) ∧ m' = updateDevice m u fun d => d.setBit b a.toNat v := by
  unfold writeBit at h
  split at h
  · simp at h
  · rename_i ha
    exact ⟨checkAddress_eq_none.mp ha, by simpa using h.symm⟩

/-- `MemWrite` of an in-range cell succeeds. -/
theorem writeReg_inRange (m : Memory) (u : Int) (b : RegBank) {a : Nat} (ha : a ≤ 65535) (v : Word16) :
    writeReg m u b (a : Int) (v.toNat : Int) = .ok (updateDevice m u fun d => d.setReg b a v) := by
  have := v.isLt
  have h1 : ¬ ((a : Int) < 0) := by omega
  have h2 : ¬ ((a : Int) > 65535) := by omega
  have h3 : ¬ ((v.toNat : Int) < 0) := by omega
  have h4 : ¬ ((v.toNat : Int) > 65535) := by omega
  simp [writeReg, checkAddress, checkValue, Config.addrMax, Config.valueMax, h1, h2, h3, h4]

theorem writeBit_inRange (m : Memory) (u : Int) (b : BitBank) {a : Nat} (ha : a ≤ 65535) (v : Bool) :
    writeBit m u b (a : Int) v = .ok (updateDevice m u fun d => d.setBit b a v) := by
  have h1 : ¬ ((a : Int) < 0) := by omega
  have h2 : ¬ ((a : Int) > 65535) := by omega
  simp [writeBit, checkAddress, Config.addrMax, h1, h2]

/-- `MemWrite` past the top raises `ValidationError(address, upper)` (R53, R56). -/
theorem writeReg_above (m : Memory) (u : Int) (b : RegBank) {a : Nat} (ha : 65535 < a) (v : Int) :
    writeReg m u b (a : Int) v = .error ⟨.address, .upper⟩ := by
  have h1 : ¬ ((a : Int) < 0) := by omega
  have h2 : (a : Int) > 65535 := by omega
  simp [writeReg, checkAddress, Config.addrMax, h1, h2]

theorem writeBit_above (m : Memory) (u : Int) (b : BitBank) {a : Nat} (ha : 65535 < a) (v : Bool) :
    writeBit m u b (a : Int) v = .error ⟨.address, .upper⟩ := by
  have h1 : ¬ ((a : Int) < 0) := by omega
  have h2 : (a : Int) > 65535 := by omega
  simp [writeBit, checkAddress, Config.addrMax, h1, h2]

/-- Every register after one register write but the written one. -/
theorem readReg_update_other {m : Memory} {u u' : Int} {b b' : RegBank} {a : Nat} {a' : Int} {v : Word16}
    (h : ¬ (u' = u ∧ b' = b ∧ a' = (a : Int))) :
    readReg (updateDevice m u fun d => d.setReg b a v) u' b' a' = readReg m u' b' a' := by
  have hf := findDevice_updateDevice (g := fun d => d.setReg b a v) (by simp) m u u'
  by_cases hu : u' = u
  · rw [if_pos hu] at hf
    cases hd : findDevice m u' with
    | none => rw [readReg_absent (by rw [hf, hd]; rfl), readReg_absent hd]
    | some d =>
      rw [readReg_found (by rw [hf, hd]; rfl), readReg_found hd, regs_setReg]
      by_cases hr : inRange a' = true
      · by_cases hb : b' = b
        · subst hb
          rw [if_pos hr, if_pos hr, if_pos rfl]
          refine get_set_other _ _ ?_
          have := inRange_iff.mp hr
          rintro rfl
          exact h ⟨hu, rfl, by omega⟩
        · rw [if_neg hb]
      · rw [if_neg hr, if_neg hr]
  · rw [if_neg hu] at hf
    exact readReg_congr hf b' a'

/-- The written register reads back (R53), in a canonical memory. -/
theorem readReg_update_self {m : Memory} (hw : m.wf = true) {u : Int} (hp : present m u = true) (b : RegBank)
    {a : Nat} (ha : a ≤ 65535) (v : Word16) :
    readReg (updateDevice m u fun d => d.setReg b a v) u b (a : Int) = v := by
  obtain ⟨d, hd⟩ := present_iff.mp hp
  have hf := findDevice_updateDevice (g := fun d => d.setReg b a v) (by simp) m u u
  rw [if_pos rfl, hd, Option.map_some] at hf
  rw [readReg_found hf, if_pos (inRange_iff.mpr (by omega)), regs_setReg, if_pos rfl, Int.toNat_natCast]
  exact get_set_self (wf_regs (wf_of_findDevice hw hd) b) a v

@[simp] theorem readBit_update_setReg (m : Memory) (u u' : Int) (b : RegBank) (a : Nat) (v : Word16) (b' : BitBank)
    (a' : Int) : readBit (updateDevice m u fun d => d.setReg b a v) u' b' a' = readBit m u' b' a' := by
  have hf := findDevice_updateDevice (g := fun d => d.setReg b a v) (by simp) m u u'
  by_cases hu : u' = u
  · rw [if_pos hu] at hf
    cases hd : findDevice m u' with
    | none => rw [readBit_absent (by rw [hf, hd]; rfl), readBit_absent hd]
    | some d => rw [readBit_found (by rw [hf, hd]; rfl), readBit_found hd, bits_setReg]
  · rw [if_neg hu] at hf
    exact readBit_congr hf b' a'

/-- Every bit after one bit write but the written one. -/
theorem readBit_update_other {m : Memory} {u u' : Int} {b b' : BitBank} {a : Nat} {a' : Int} {v : Bool}
    (h : ¬ (u' = u ∧ b' = b ∧ a' = (a : Int))) :
    readBit (updateDevice m u fun d => d.setBit b a v) u' b' a' = readBit m u' b' a' := by
  have hf := findDevice_updateDevice (g := fun d => d.setBit b a v) (by simp) m u u'
  by_cases hu : u' = u
  · rw [if_pos hu] at hf
    cases hd : findDevice m u' with
    | none => rw [readBit_absent (by rw [hf, hd]; rfl), readBit_absent hd]
    | some d =>
      rw [readBit_found (by rw [hf, hd]; rfl), readBit_found hd, bits_setBit]
      by_cases hr : inRange a' = true
      · by_cases hb : b' = b
        · subst hb
          rw [if_pos hr, if_pos hr, if_pos rfl]
          refine get_set_other _ _ ?_
          have := inRange_iff.mp hr
          rintro rfl
          exact h ⟨hu, rfl, by omega⟩
        · rw [if_neg hb]
      · rw [if_neg hr, if_neg hr]
  · rw [if_neg hu] at hf
    exact readBit_congr hf b' a'

/-- The written bit reads back (R53), in a canonical memory. -/
theorem readBit_update_self {m : Memory} (hw : m.wf = true) {u : Int} (hp : present m u = true) (b : BitBank)
    {a : Nat} (ha : a ≤ 65535) (v : Bool) :
    readBit (updateDevice m u fun d => d.setBit b a v) u b (a : Int) = v := by
  obtain ⟨d, hd⟩ := present_iff.mp hp
  have hf := findDevice_updateDevice (g := fun d => d.setBit b a v) (by simp) m u u
  rw [if_pos rfl, hd, Option.map_some] at hf
  rw [readBit_found hf, if_pos (inRange_iff.mpr (by omega)), bits_setBit, if_pos rfl, Int.toNat_natCast]
  exact get_set_self (wf_bits (wf_of_findDevice hw hd) b) a v

@[simp] theorem readReg_update_setBit (m : Memory) (u u' : Int) (b : BitBank) (a : Nat) (v : Bool) (b' : RegBank)
    (a' : Int) : readReg (updateDevice m u fun d => d.setBit b a v) u' b' a' = readReg m u' b' a' := by
  have hf := findDevice_updateDevice (g := fun d => d.setBit b a v) (by simp) m u u'
  by_cases hu : u' = u
  · rw [if_pos hu] at hf
    cases hd : findDevice m u' with
    | none => rw [readReg_absent (by rw [hf, hd]; rfl), readReg_absent hd]
    | some d => rw [readReg_found (by rw [hf, hd]; rfl), readReg_found hd, regs_setBit]
  · rw [if_neg hu] at hf
    exact readReg_congr hf b' a'

/-! ## Runs of cells -/

/-- Everything a run of register writes can do (R58): the cells of the run that lie in the bank get their values, no other
cell of any bank changes, records keep their unit ids and timing, the canonical form is kept, and the run raises exactly
when it passes the top. -/
theorem writeRegs_spec (u : Int) (b : RegBank) (vs : List Word16) (m : Memory) (a : Nat) :
    (∀ u' b' a', ¬ (u' = u ∧ b' = b ∧ (a : Int) ≤ a' ∧ a' < a + vs.length) →
        readReg (writeRegs u b m a vs).1 u' b' a' = readReg m u' b' a') ∧
    (∀ u' b' a', readBit (writeRegs u b m a vs).1 u' b' a' = readBit m u' b' a') ∧
    (∀ u', (findDevice (writeRegs u b m a vs).1 u').map Device.timing = (findDevice m u').map Device.timing) ∧
    (∀ lo, Memory.wfFrom lo m = true → Memory.wfFrom lo (writeRegs u b m a vs).1 = true) ∧
    ((writeRegs u b m a vs).2 = none ↔ vs = [] ∨ a + vs.length ≤ 65536) := by
  induction vs generalizing m a with
  | nil => simp [writeRegs]
  | cons v vs ih =>
    by_cases ha : a ≤ 65535
    · obtain ⟨h1, h2, h3, h4, h5⟩ := ih (updateDevice m u fun d => d.setReg b a v) (a + 1)
      simp only [writeRegs, writeReg_inRange m u b ha v]
      refine ⟨?_, ?_, ?_, ?_, ?_⟩
      · intro u' b' a' hn
        rw [h1 u' b' a' (by
          rintro ⟨rfl, rfl, hl, hr⟩
          exact hn ⟨rfl, rfl, by omega, by simp only [List.length_cons]; omega⟩)]
        apply readReg_update_other
        rintro ⟨rfl, rfl, rfl⟩
        exact hn ⟨rfl, rfl, by omega, by simp only [List.length_cons]; omega⟩
      · intro u' b' a'
        rw [h2, readBit_update_setReg]
      · intro u'
        rw [h3, findDevice_updateDevice (by simp)]
        split_ifs
        · cases findDevice m u' <;> simp
        · rfl
      · intro lo hw
        exact h4 lo (memory_wf_updateDevice (by simp) (fun d hd => wf_setReg hd b ha v) hw)
      · rw [h5]
        simp only [List.length_cons, reduceCtorEq, false_or]
        constructor
        · rintro (rfl | h)
          · simp only [List.length_nil]
            omega
          · omega
        · intro h
          right
          omega
    · simp only [writeRegs, writeReg_above m u b (by omega : 65535 < a) _]
      refine ⟨fun _ _ _ _ => trivial, fun _ _ _ => trivial, fun _ => trivial, fun _ h => h, ?_⟩
      simp only [List.length_cons, reduceCtorEq, false_or, false_iff]
      omega

/-- The cells of a run of register writes read back. -/
theorem writeRegs_reads (u : Int) (b : RegBank) (vs : List Word16) (m : Memory) (a : Nat) (hw : m.wf = true)
    (hp : present m u = true) (k : Nat) (hk : k < vs.length) (ha : a + k ≤ 65535) :
    readReg (writeRegs u b m a vs).1 u b ((a + k : Nat) : Int) = vs.getD k 0#16 := by
  induction vs generalizing m a k with
  | nil => simp at hk
  | cons v vs ih =>
    have ha' : a ≤ 65535 := by omega
    simp only [writeRegs, writeReg_inRange m u b ha' v]
    have hw' : Memory.wf (updateDevice m u fun d => d.setReg b a v) = true :=
      memory_wf_updateDevice (by simp) (fun d hd => wf_setReg hd b ha' v) hw
    have hp' : present (updateDevice m u fun d => d.setReg b a v) u = true := by
      obtain ⟨d, hd⟩ := present_iff.mp hp
      exact present_iff.mpr ⟨d.setReg b a v, by rw [findDevice_updateDevice (by simp)]; simp [hd]⟩
    cases k with
    | zero =>
      rw [(writeRegs_spec u b vs _ (a + 1)).1 u b _ (by rintro ⟨-, -, h, -⟩; omega)]
      simpa using readReg_update_self hw hp b ha' v
    | succ k =>
      have := ih _ (a + 1) hw' hp' k (by simpa using hk) (by omega)
      rw [show a + (k + 1) = a + 1 + k by omega]
      simpa using this

/-- Everything a run of bit writes can do (R58), as `writeRegs_spec`. -/
theorem writeBits_spec (u : Int) (b : BitBank) (vs : List Bool) (m : Memory) (a : Nat) :
    (∀ u' b' a', ¬ (u' = u ∧ b' = b ∧ (a : Int) ≤ a' ∧ a' < a + vs.length) →
        readBit (writeBits u b m a vs).1 u' b' a' = readBit m u' b' a') ∧
    (∀ u' b' a', readReg (writeBits u b m a vs).1 u' b' a' = readReg m u' b' a') ∧
    (∀ u', (findDevice (writeBits u b m a vs).1 u').map Device.timing = (findDevice m u').map Device.timing) ∧
    (∀ lo, Memory.wfFrom lo m = true → Memory.wfFrom lo (writeBits u b m a vs).1 = true) ∧
    ((writeBits u b m a vs).2 = none ↔ vs = [] ∨ a + vs.length ≤ 65536) := by
  induction vs generalizing m a with
  | nil => simp [writeBits]
  | cons v vs ih =>
    by_cases ha : a ≤ 65535
    · obtain ⟨h1, h2, h3, h4, h5⟩ := ih (updateDevice m u fun d => d.setBit b a v) (a + 1)
      simp only [writeBits, writeBit_inRange m u b ha v]
      refine ⟨?_, ?_, ?_, ?_, ?_⟩
      · intro u' b' a' hn
        rw [h1 u' b' a' (by
          rintro ⟨rfl, rfl, hl, hr⟩
          exact hn ⟨rfl, rfl, by omega, by simp only [List.length_cons]; omega⟩)]
        apply readBit_update_other
        rintro ⟨rfl, rfl, rfl⟩
        exact hn ⟨rfl, rfl, by omega, by simp only [List.length_cons]; omega⟩
      · intro u' b' a'
        rw [h2, readReg_update_setBit]
      · intro u'
        rw [h3, findDevice_updateDevice (by simp)]
        split_ifs
        · cases findDevice m u' <;> simp
        · rfl
      · intro lo hw
        exact h4 lo (memory_wf_updateDevice (by simp) (fun d hd => wf_setBit hd b ha v) hw)
      · rw [h5]
        simp only [List.length_cons, reduceCtorEq, false_or]
        constructor
        · rintro (rfl | h)
          · simp only [List.length_nil]
            omega
          · omega
        · intro h
          right
          omega
    · simp only [writeBits, writeBit_above m u b (by omega : 65535 < a) _]
      refine ⟨fun _ _ _ _ => trivial, fun _ _ _ => trivial, fun _ => trivial, fun _ h => h, ?_⟩
      simp only [List.length_cons, reduceCtorEq, false_or, false_iff]
      omega

/-- The cells of a run of bit writes read back. -/
theorem writeBits_reads (u : Int) (b : BitBank) (vs : List Bool) (m : Memory) (a : Nat) (hw : m.wf = true)
    (hp : present m u = true) (k : Nat) (hk : k < vs.length) (ha : a + k ≤ 65535) :
    readBit (writeBits u b m a vs).1 u b ((a + k : Nat) : Int) = vs.getD k false := by
  induction vs generalizing m a k with
  | nil => simp at hk
  | cons v vs ih =>
    have ha' : a ≤ 65535 := by omega
    simp only [writeBits, writeBit_inRange m u b ha' v]
    have hw' : Memory.wf (updateDevice m u fun d => d.setBit b a v) = true :=
      memory_wf_updateDevice (by simp) (fun d hd => wf_setBit hd b ha' v) hw
    have hp' : present (updateDevice m u fun d => d.setBit b a v) u = true := by
      obtain ⟨d, hd⟩ := present_iff.mp hp
      exact present_iff.mpr ⟨d.setBit b a v, by rw [findDevice_updateDevice (by simp)]; simp [hd]⟩
    cases k with
    | zero =>
      rw [(writeBits_spec u b vs _ (a + 1)).1 u b _ (by rintro ⟨-, -, h, -⟩; omega)]
      simpa using readBit_update_self hw hp b ha' v
    | succ k =>
      have := ih _ (a + 1) hw' hp' k (by simpa using hk) (by omega)
      rw [show a + (k + 1) = a + 1 + k by omega]
      simpa using this

@[simp] theorem length_readRegs (m : Memory) (u : Int) (b : RegBank) (a n : Nat) : (readRegs m u b a n).length = n := by
  simp [readRegs]

@[simp] theorem length_readBits (m : Memory) (u : Int) (b : BitBank) (a n : Nat) : (readBits m u b a n).length = n := by
  simp [readBits]

theorem readRegs_getD (m : Memory) (u : Int) (b : RegBank) (a n k : Nat) (hk : k < n) :
    (readRegs m u b a n).getD k 0#16 = readReg m u b ((a + k : Nat) : Int) := by
  rw [List.getD_eq_getElem _ _ (by simpa using hk)]
  simp [readRegs]

theorem readBits_getD (m : Memory) (u : Int) (b : BitBank) (a n k : Nat) (hk : k < n) :
    (readBits m u b a n).getD k false = readBit m u b ((a + k : Nat) : Int) := by
  rw [List.getD_eq_getElem _ _ (by simpa using hk)]
  simp [readBits]

/-! ## Cells outside 0 to 65535, and writes that change nothing -/

/-- A register outside 0 to 65535 reads 0 (R52). -/
theorem readReg_outside {m : Memory} {u : Int} {b : RegBank} {a : Int} (h : a < 0 ∨ 65535 < a) :
    readReg m u b a = 0#16 := by
  have : inRange a = false := by
    rw [← Bool.not_eq_true, inRange_iff]
    omega
  unfold readReg
  split <;> simp [this, unsetRegister]

/-- A bit outside 0 to 65535 reads false (R52). -/
theorem readBit_outside {m : Memory} {u : Int} {b : BitBank} {a : Int} (h : a < 0 ∨ 65535 < a) :
    readBit m u b a = false := by
  have : inRange a = false := by
    rw [← Bool.not_eq_true, inRange_iff]
    omega
  unfold readBit
  split <;> simp [this, unsetBit]

/-- In a canonical table every record is the one found under its unit id. -/
theorem findDevice_of_mem {m : Memory} {lo : Nat} (hw : Memory.wfFrom lo m = true) {d : Device} (hd : d ∈ m) :
    findDevice m (d.unitId : Int) = some d := by
  induction m generalizing lo with
  | nil => simp at hd
  | cons e m ih =>
    rw [wfFrom_cons] at hw
    rw [findDevice_cons]
    rcases List.mem_cons.mp hd with rfl | hd
    · simp
    · have := (wf_of_mem hw.2.2 hd).2
      rw [if_neg (by omega)]
      exact ih hw.2.2 hd

/-- A change that leaves the unit's record as it is leaves the table as it is. -/
theorem updateDevice_eq_self {m : Memory} {lo : Nat} (hw : Memory.wfFrom lo m = true) {u : Int}
    {g : Device → Device} (h : ∀ d, findDevice m u = some d → g d = d) : updateDevice m u g = m := by
  unfold updateDevice
  conv_rhs => rw [← List.map_id m]
  apply List.map_congr_left
  intro d hd
  split
  · rename_i hu
    exact h d (hu ▸ findDevice_of_mem hw hd)
  · rfl

/-- Writing a register the value it reads changes no part of memory (R59). -/
theorem updateDevice_setReg_eq_self {m : Memory} (hw : m.wf = true) {u : Int} {b : RegBank} {a : Nat} {v : Word16}
    (ha : a ≤ 65535) (h : readReg m u b (a : Int) = v) : updateDevice m u (fun d => d.setReg b a v) = m := by
  apply updateDevice_eq_self hw
  intro d hd
  have hd' := wf_of_findDevice hw hd
  rw [readReg_found hd, if_pos (inRange_iff.mpr ⟨by omega, by omega⟩)] at h
  subst h
  cases b <;> simp only [Device.setReg, Device.regs, Int.toNat_natCast]
  · have := set_get_same (wf_regs hd' .HR) a
    simp only [Device.regs] at this
    rw [this]
  · have := set_get_same (wf_regs hd' .IR) a
    simp only [Device.regs] at this
    rw [this]

/-- Writing a bit the value it reads changes no part of memory (R59). -/
theorem updateDevice_setBit_eq_self {m : Memory} (hw : m.wf = true) {u : Int} {b : BitBank} {a : Nat} {v : Bool}
    (ha : a ≤ 65535) (h : readBit m u b (a : Int) = v) : updateDevice m u (fun d => d.setBit b a v) = m := by
  apply updateDevice_eq_self hw
  intro d hd
  have hd' := wf_of_findDevice hw hd
  rw [readBit_found hd, if_pos (inRange_iff.mpr ⟨by omega, by omega⟩)] at h
  subst h
  cases b <;> simp only [Device.setBit, Device.bits, Int.toNat_natCast]
  · have := set_get_same (wf_bits hd' .CO) a
    simp only [Device.bits] at this
    rw [this]
  · have := set_get_same (wf_bits hd' .DI) a
    simp only [Device.bits] at this
    rw [this]

/-- A run of register writes over cells that already hold the values changes no part of memory (R59). -/
theorem writeRegs_eq_self (u : Int) (b : RegBank) (vs : List Word16) : ∀ (m : Memory) (a : Nat), m.wf = true →
    (∀ k < vs.length, a + k ≤ 65535 → readReg m u b ((a + k : Nat) : Int) = vs.getD k 0#16) →
    (writeRegs u b m a vs).1 = m := by
  induction vs with
  | nil => intros; rfl
  | cons v vs ih =>
    intro m a hw h
    by_cases ha : a ≤ 65535
    · simp only [writeRegs, writeReg_inRange _ _ _ ha]
      rw [updateDevice_setReg_eq_self hw ha (by simpa using h 0 (by simp) (by omega))]
      refine ih m (a + 1) hw fun k hk hak => ?_
      have := h (k + 1) (by simpa using hk) (by omega)
      simpa [Nat.add_assoc, Nat.add_comm 1 k] using this
    · simp only [writeRegs, writeReg_above _ _ _ (Nat.lt_of_not_le ha)]

/-- A run of bit writes over cells that already hold the values changes no part of memory (R59). -/
theorem writeBits_eq_self (u : Int) (b : BitBank) (vs : List Bool) : ∀ (m : Memory) (a : Nat), m.wf = true →
    (∀ k < vs.length, a + k ≤ 65535 → readBit m u b ((a + k : Nat) : Int) = vs.getD k false) →
    (writeBits u b m a vs).1 = m := by
  induction vs with
  | nil => intros; rfl
  | cons v vs ih =>
    intro m a hw h
    by_cases ha : a ≤ 65535
    · simp only [writeBits, writeBit_inRange _ _ _ ha]
      rw [updateDevice_setBit_eq_self hw ha (by simpa using h 0 (by simp) (by omega))]
      refine ih m (a + 1) hw fun k hk hak => ?_
      have := h (k + 1) (by simpa using hk) (by omega)
      simpa [Nat.add_assoc, Nat.add_comm 1 k] using this
    · simp only [writeBits, writeBit_above _ _ _ (Nat.lt_of_not_le ha)]

/-! ## A run of writes sees and changes one record only (R26) -/

theorem writeRegs_congr (u : Int) (b : RegBank) (vs : List Word16) : ∀ (m m' : Memory) (a : Nat),
    findDevice m u = findDevice m' u →
    findDevice (writeRegs u b m a vs).1 u = findDevice (writeRegs u b m' a vs).1 u ∧
      (writeRegs u b m a vs).2 = (writeRegs u b m' a vs).2 := by
  induction vs with
  | nil => intro m m' a h; exact ⟨h, rfl⟩
  | cons v vs ih =>
    intro m m' a h
    by_cases ha : a ≤ 65535
    · simp only [writeRegs, writeReg_inRange _ _ _ ha]
      apply ih
      rw [findDevice_updateDevice (by simp), findDevice_updateDevice (by simp), if_pos rfl, if_pos rfl, h]
    · simp only [writeRegs, writeReg_above _ _ _ (Nat.lt_of_not_le ha)]
      exact ⟨h, trivial⟩

theorem writeBits_congr (u : Int) (b : BitBank) (vs : List Bool) : ∀ (m m' : Memory) (a : Nat),
    findDevice m u = findDevice m' u →
    findDevice (writeBits u b m a vs).1 u = findDevice (writeBits u b m' a vs).1 u ∧
      (writeBits u b m a vs).2 = (writeBits u b m' a vs).2 := by
  induction vs with
  | nil => intro m m' a h; exact ⟨h, rfl⟩
  | cons v vs ih =>
    intro m m' a h
    by_cases ha : a ≤ 65535
    · simp only [writeBits, writeBit_inRange _ _ _ ha]
      apply ih
      rw [findDevice_updateDevice (by simp), findDevice_updateDevice (by simp), if_pos rfl, if_pos rfl, h]
    · simp only [writeBits, writeBit_above _ _ _ (Nat.lt_of_not_le ha)]
      exact ⟨h, trivial⟩

theorem findDevice_writeRegs_other {u u' : Int} (hu : u' ≠ u) (b : RegBank) (vs : List Word16) :
    ∀ (m : Memory) (a : Nat), findDevice (writeRegs u b m a vs).1 u' = findDevice m u' := by
  induction vs with
  | nil => intro m a; rfl
  | cons v vs ih =>
    intro m a
    by_cases ha : a ≤ 65535
    · simp only [writeRegs, writeReg_inRange _ _ _ ha, ih]
      rw [findDevice_updateDevice (by simp), if_neg hu]
    · simp only [writeRegs, writeReg_above _ _ _ (Nat.lt_of_not_le ha)]

theorem findDevice_writeBits_other {u u' : Int} (hu : u' ≠ u) (b : BitBank) (vs : List Bool) :
    ∀ (m : Memory) (a : Nat), findDevice (writeBits u b m a vs).1 u' = findDevice m u' := by
  induction vs with
  | nil => intro m a; rfl
  | cons v vs ih =>
    intro m a
    by_cases ha : a ≤ 65535
    · simp only [writeBits, writeBit_inRange _ _ _ ha, ih]
      rw [findDevice_updateDevice (by simp), if_neg hu]
    · simp only [writeBits, writeBit_above _ _ _ (Nat.lt_of_not_le ha)]

end Sys2Proof.Laws
end

