-- ==== Sys2Proof/Laws/Pack.lean ====
section
/-!
SUPPORT. Laws of the operand forms: coil packing and register payloads.
-/

namespace Sys2Proof.Laws

open Sys2Proof Sys2Proof.Machine

@[simp] theorem coilOfSentinel_sentinelOfCoil (b : Bool) : coilOfSentinel (sentinelOfCoil b) = some b := by
  cases b <;> decide

theorem coilOfSentinel_eq_none {p : Word16} : coilOfSentinel p = none ↔ p ≠ 0xFF00#16 ∧ p ≠ 0x0000#16 := by
  unfold coilOfSentinel
  split
  · simp_all
  · split <;> simp_all

/-- Bit `pos(i)` of a packed byte is coil `i` (R92). -/
theorem packByte_bit (msb : Bool) (bits : List Bool) {i : Nat} (h : i < 8) :
    (packByte msb bits).getLsbD (bitPos msb i) = bits.getD i false := by
  have key : ∀ (msb b0 b1 b2 b3 b4 b5 b6 b7 : Bool) (i : Fin 8),
      (packByte msb [b0, b1, b2, b3, b4, b5, b6, b7]).getLsbD (bitPos msb i) =
        [b0, b1, b2, b3, b4, b5, b6, b7].getD i false := by
    decide +kernel
  have h8 : packByte msb bits = packByte msb [bits.getD 0 false, bits.getD 1 false, bits.getD 2 false,
      bits.getD 3 false, bits.getD 4 false, bits.getD 5 false, bits.getD 6 false, bits.getD 7 false] := by
    simp [packByte, List.range_succ]
  rw [h8]
  have := key msb (bits.getD 0 false) (bits.getD 1 false) (bits.getD 2 false) (bits.getD 3 false)
    (bits.getD 4 false) (bits.getD 5 false) (bits.getD 6 false) (bits.getD 7 false) ⟨i, h⟩
  simp only at this
  rw [this]
  obtain rfl | rfl | rfl | rfl | rfl | rfl | rfl | rfl : i = 0 ∨ i = 1 ∨ i = 2 ∨ i = 3 ∨ i = 4 ∨ i = 5 ∨ i = 6 ∨ i = 7 := by
    omega
  all_goals rfl

theorem bitPos_mod (msb : Bool) (i : Nat) : bitPos msb (i % 8) = bitPos msb i := by simp [bitPos]

@[simp] theorem length_packBits (msb : Bool) (bits : List Bool) :
    (packBits msb bits).length = ceilDiv bits.length 8 := by simp [packBits]

/-- Coil `i` of packed coils is the `i`-th of the list, and a pad bit is 0 (R92). -/
theorem payloadBit_packBits (msb : Bool) (bits : List Bool) {i : Nat} (h : i < 8 * ceilDiv bits.length 8) :
    payloadBit msb (packBits msb bits) i = bits.getD i false := by
  have hk : i / 8 < ceilDiv bits.length 8 := by omega
  have hget : (packBits msb bits).getD (i / 8) 0#8 = packByte msb (bits.drop (8 * (i / 8))) := by
    rw [List.getD_eq_getElem _ _ (by simpa using hk)]
    simp [packBits]
  unfold payloadBit
  rw [hget, ← bitPos_mod, packByte_bit msb _ (Nat.mod_lt _ (by omega))]
  simp only [List.getD_eq_getElem?_getD, List.getElem?_drop]
  rw [Nat.div_add_mod]

@[simp] theorem length_unpackBits (msb : Bool) (p : Frame) (n : Nat) : (unpackBits msb p n).length = n := by
  simp [unpackBits]

@[simp] theorem length_registerBytes (vs : List Word16) : (registerBytes vs).length = 2 * vs.length := by
  induction vs with
  | nil => rfl
  | cons v vs ih =>
    simp only [registerBytes, List.flatMap_cons, List.length_append, List.length_cons] at ih ⊢
    simp only [List.length_nil]
    omega

/-- A payload laid out from registers gives them back (R89). -/
@[simp] theorem registersOf_registerBytes (vs : List Word16) : registersOf (registerBytes vs) = vs := by
  induction vs with
  | nil => rfl
  | cons v vs ih =>
    simp only [registerBytes, List.flatMap_cons, List.cons_append, List.nil_append, registersOf] at ih ⊢
    simp [ih]

/-- An even payload has half as many registers. -/
theorem length_registersOf : ∀ p : Frame, (registersOf p).length = p.length / 2
  | [] => rfl
  | [_] => by simp [registersOf]
  | _ :: _ :: rest => by
    simp only [registersOf, List.length_cons, length_registersOf rest]
    omega

/-- Register `k` of a payload is `be16` of bytes `2k` and `2k + 1` (R89). -/
theorem registersOf_getD : ∀ (p : Frame) (k : Nat), 2 * k + 1 < p.length →
    (registersOf p).getD k 0#16 = be16 (p.getD (2 * k) 0#8) (p.getD (2 * k + 1) 0#8)
  | [], k, h => by simp at h
  | [_], k, h => by simp at h
  | a :: b :: rest, 0, _ => rfl
  | a :: b :: rest, k + 1, h => by
    have := registersOf_getD rest k (by simp at h; omega)
    simp only [registersOf, List.getD_cons_succ, Nat.mul_add, Nat.mul_one] at this ⊢
    exact this

/-- Coil `k` of the unpacked payload (R92). -/
theorem unpackBits_getD (msb : Bool) (p : Frame) {n k : Nat} (h : k < n) :
    (unpackBits msb p n).getD k false = payloadBit msb p k := by
  rw [List.getD_eq_getElem _ _ (by simpa using h)]
  simp [unpackBits]

/-- Every bit of a byte is the place of one of its eight coils (R92). -/
theorem exists_bitPos (msb : Bool) {j : Nat} (hj : j < 8) : ∃ i < 8, bitPos msb i = j := by
  cases msb
  · exact ⟨j, hj, by simp [bitPos]; omega⟩
  · exact ⟨7 - j, by omega, by simp [bitPos]; omega⟩

/-- Packed bytes are told apart by their coils, pad bits among them (R92). -/
theorem eq_of_payloadBit {msb : Bool} {d p : Frame} (hl : d.length = p.length)
    (h : ∀ k < 8 * p.length, payloadBit msb d k = payloadBit msb p k) : d = p := by
  apply List.ext_getElem hl
  intro j h1 h2
  apply BitVec.eq_of_getLsbD_eq
  intro b hb
  obtain ⟨i, hi, rfl⟩ := exists_bitPos msb hb
  have := h (8 * j + i) (by omega)
  simp only [payloadBit] at this
  rw [show (8 * j + i) / 8 = j by omega, ← bitPos_mod, show (8 * j + i) % 8 = i by omega] at this
  rwa [List.getD_eq_getElem _ _ h1, List.getD_eq_getElem _ _ h2] at this

end Sys2Proof.Laws
end

