-- ==== Sys2Proof/Laws/State.lean ====
section
/-!
SUPPORT. One lemma per field for each operation that updates the state, so that no proof unfolds a record update.
-/

namespace Sys2Proof.Laws

open Sys2Proof Sys2Proof.Machine

section respond
variable (s : State) (tm : Option TimingConfig) (f r : Frame)
@[simp] theorem respond_params : (respond s tm f r).params = s.params := rfl
@[simp] theorem respond_memory : (respond s tm f r).memory = s.memory := rfl
@[simp] theorem respond_run : (respond s tm f r).run = s.run := rfl
@[simp] theorem respond_busy : (respond s tm f r).busy = true := rfl
@[simp] theorem respond_pending : (respond s tm f r).pending = some (frameOut s.params r) := rfl
@[simp] theorem respond_due : (respond s tm f r).due = (dueFor s.params tm f s.draws).1 := rfl
@[simp] theorem respond_waited : (respond s tm f r).waited = .rat 0 := rfl
@[simp] theorem respond_requests : (respond s tm f r).requests = s.requests := rfl
@[simp] theorem respond_responses : (respond s tm f r).responses = s.responses := rfl
@[simp] theorem respond_results : (respond s tm f r).results = s.results := rfl
@[simp] theorem respond_turns : (respond s tm f r).turns = s.turns := rfl
@[simp] theorem respond_draws : (respond s tm f r).draws = (dueFor s.params tm f s.draws).2 := rfl
end respond

/-- Taking an exception is a response with the exception frame (R289). -/
theorem takeException_eq (s : State) (tm : Option TimingConfig) (f : Frame) (u fc : Byte) (c : ExceptionCode) :
    takeException s tm f u fc c = respond s tm f (excFrame u fc c) := rfl

section goIdle
variable (s : State)
@[simp] theorem goIdle_params : (goIdle s).params = s.params := rfl
@[simp] theorem goIdle_memory : (goIdle s).memory = s.memory := rfl
@[simp] theorem goIdle_run : (goIdle s).run = s.run := rfl
@[simp] theorem goIdle_busy : (goIdle s).busy = false := rfl
@[simp] theorem goIdle_pending : (goIdle s).pending = none := rfl
@[simp] theorem goIdle_due : (goIdle s).due = .rat 0 := rfl
@[simp] theorem goIdle_waited : (goIdle s).waited = .rat 0 := rfl
@[simp] theorem goIdle_requests : (goIdle s).requests = s.requests := rfl
@[simp] theorem goIdle_responses : (goIdle s).responses = s.responses := rfl
@[simp] theorem goIdle_results : (goIdle s).results = s.results := rfl
@[simp] theorem goIdle_turns : (goIdle s).turns = s.turns := rfl
@[simp] theorem goIdle_draws : (goIdle s).draws = s.draws := rfl
@[simp] theorem presentResponse_params : (presentResponse s).params = s.params := rfl
@[simp] theorem presentResponse_memory : (presentResponse s).memory = s.memory := rfl
@[simp] theorem presentResponse_run : (presentResponse s).run = s.run := rfl
@[simp] theorem presentResponse_busy : (presentResponse s).busy = false := rfl
@[simp] theorem presentResponse_pending : (presentResponse s).pending = none := rfl
@[simp] theorem presentResponse_due : (presentResponse s).due = .rat 0 := rfl
@[simp] theorem presentResponse_waited : (presentResponse s).waited = .rat 0 := rfl
@[simp] theorem presentResponse_requests : (presentResponse s).requests = s.requests := rfl
@[simp] theorem presentResponse_responses :
    (presentResponse s).responses = s.responses ++ s.pending.toList := rfl
@[simp] theorem presentResponse_results : (presentResponse s).results = s.results := rfl
@[simp] theorem presentResponse_turns : (presentResponse s).turns = s.turns := rfl
@[simp] theorem presentResponse_draws : (presentResponse s).draws = s.draws := rfl
end goIdle

section resetTurn
variable (s : State)
@[simp] theorem resetTurn_params : (resetTurn s).params = s.params := rfl
@[simp] theorem resetTurn_memory : (resetTurn s).memory = [] := rfl
@[simp] theorem resetTurn_run : (resetTurn s).run = false := rfl
@[simp] theorem resetTurn_busy : (resetTurn s).busy = false := rfl
@[simp] theorem resetTurn_pending : (resetTurn s).pending = none := rfl
@[simp] theorem resetTurn_due : (resetTurn s).due = .rat 0 := rfl
@[simp] theorem resetTurn_waited : (resetTurn s).waited = .rat 0 := rfl
@[simp] theorem resetTurn_requests : (resetTurn s).requests = [] := rfl
@[simp] theorem resetTurn_responses : (resetTurn s).responses = s.responses := rfl
@[simp] theorem resetTurn_results : (resetTurn s).results = s.results := rfl
@[simp] theorem resetTurn_turns : (resetTurn s).turns = s.turns := rfl
@[simp] theorem resetTurn_draws : (resetTurn s).draws = s.draws := rfl
end resetTurn

section offerFrame
variable (s : State) (f : Frame)
@[simp] theorem offerFrame_params : (offerFrame f s).params = s.params := rfl
@[simp] theorem offerFrame_memory : (offerFrame f s).memory = s.memory := rfl
@[simp] theorem offerFrame_run : (offerFrame f s).run = true := rfl
@[simp] theorem offerFrame_busy : (offerFrame f s).busy = false := rfl
@[simp] theorem offerFrame_pending : (offerFrame f s).pending = none := rfl
@[simp] theorem offerFrame_requests : (offerFrame f s).requests = frameOut s.params f :: s.requests := rfl
@[simp] theorem offerFrame_turns : (offerFrame f s).turns = .dispatch :: s.turns := rfl
end offerFrame

section runHostOp
variable (s : State) (op : HostOp)
@[simp] theorem runHostOp_memory : (runHostOp op s).memory = (hostOp op s).1.memory := rfl
@[simp] theorem runHostOp_run : (runHostOp op s).run = (hostOp op s).1.run := rfl
@[simp] theorem runHostOp_results :
    (runHostOp op s).results = (hostOp op s).1.results ++ [(hostOp op s).2] := rfl
end runHostOp

end Sys2Proof.Laws
end

