-- ==== Sys2Proof/Laws/Timer.lean ====
section
/-!
SUPPORT. Laws of the timer's terms.
-/

namespace Sys2Proof.Laws

open Sys2Proof Sys2Proof.Machine

/-! ## Real numbers as data -/

@[simp] theorem value_rat (q : Rat) : (RealNum.rat q).value = (q : ℝ) := rfl
@[simp] theorem value_real (k : Nat) : (RealNum.real k).value = Config.freeReal k := rfl
@[simp] theorem value_draw (lo hi : RealNum) (k : Nat) :
    (draw lo hi k).value = max lo.value (min hi.value (Config.freeDraw k)) := rfl

@[simp] theorem le_iff (x y : RealNum) : RealNum.le x y = true ↔ x.value ≤ y.value := by
  cases x <;> cases y <;> first
    | exact @decide_eq_true_iff _ (Classical.propDecidable _)
    | simp [RealNum.le]

@[simp] theorem le_eq_false_iff (x y : RealNum) : RealNum.le x y = false ↔ y.value < x.value := by
  rw [← Bool.not_eq_true, le_iff, not_le]

@[simp] theorem value_plus (x y : RealNum) : (RealNum.plus x y).value = x.value + y.value := by
  cases x <;> cases y <;> simp [RealNum.plus, RealNum.value]

@[simp] theorem value_minus (x y : RealNum) : (RealNum.minus x y).value = x.value - y.value := by
  cases x <;> cases y <;> simp [RealNum.minus, RealNum.value]

@[simp] theorem value_times (x y : RealNum) : (RealNum.times x y).value = x.value * y.value := by
  cases x <;> cases y <;> simp [RealNum.times, RealNum.value]

@[simp] theorem value_over (x y : RealNum) : (RealNum.over x y).value = x.value / y.value := by
  cases x <;> cases y <;> simp [RealNum.over, RealNum.value]

/-! ## The terms of the delay -/

/-- A draw lies in its interval (R303). -/
theorem draw_mem {lo hi : RealNum} (h : lo.value ≤ hi.value) (k : Nat) :
    lo.value ≤ (draw lo hi k).value ∧ (draw lo hi k).value ≤ hi.value :=
  ⟨le_max_left _ _, max_le h (min_le_left _ _)⟩

/-- `draw(v, v) = v` (R303). -/
theorem draw_self (v : RealNum) (k : Nat) : (draw v v k).value = v.value :=
  le_antisymm (draw_mem le_rfl k).2 (draw_mem le_rfl k).1

/-- Every real of the interval is one the confinement lets through, so a draw is as free as R303 says. -/
theorem confine_of_mem {lo hi x : ℝ} (h : lo ≤ x ∧ x ≤ hi) : max lo (min hi x) = x := by
  rw [min_eq_right h.2, max_eq_right h.1]

/-- A sample of a legal setting: not negative, at most one free value taken (R302 to R304). -/
theorem sampleSetting_mem {d : DelaySetting} (h : legalSetting d = true) (k : Nat) :
    0 ≤ (sampleSetting k d).1.value ∧ k ≤ (sampleSetting k d).2 ∧ (sampleSetting k d).2 ≤ k + 1 := by
  cases d with
  | fixed v =>
    simp only [legalSetting, le_iff, value_rat, Rat.cast_zero] at h
    exact ⟨h, le_refl _, Nat.le_succ _⟩
  | range a b =>
    simp only [legalSetting, Bool.and_eq_true, le_iff, value_rat, Rat.cast_zero] at h
    exact ⟨h.1.trans (draw_mem h.2 k).1, Nat.le_succ _, le_refl _⟩

/-- How many free values a response takes: none without a timing configuration, at most two with one. -/
theorem dueFor_draws (p : Params) (tm : Option TimingConfig) (f : Frame) (k : Nat) :
    k ≤ (dueFor p tm f k).2 ∧ (dueFor p tm f k).2 ≤ k + 2 := by
  cases tm with
  | none => exact ⟨le_refl _, Nat.le_add_right _ _⟩
  | some t =>
    have hs : ∀ (d : DelaySetting) k, k ≤ (sampleSetting k d).2 ∧ (sampleSetting k d).2 ≤ k + 1 := by
      intro d k
      cases d <;> simp [sampleSetting]
    have hd : k ≤ (detection t k).2 ∧ (detection t k).2 ≤ k + 1 := by
      unfold detection
      split
      · exact hs _ _
      · split <;> simp
    have hp : ∀ k, k ≤ (processing t k).2 ∧ (processing t k).2 ≤ k + 1 := by
      intro k
      unfold processing
      split
      · exact hs _ _
      · simp
    have := hp (detection t k).2
    simp only [dueFor, delay]
    omega

/-- The parts of a legal configuration. -/
theorem legalTiming_iff {t : TimingConfig} : legalTiming t = true ↔
    (∀ d, t.detectionDelay = some d → legalSetting d = true) ∧
    (∀ p, t.pollingInterval = some p → 0 ≤ p.value) ∧
    (∀ d, t.processingDelay = some d → legalSetting d = true) ∧
    (∀ r, t.perRegisterDelay = some r → 0 ≤ r.value) ∧
    (∀ b, t.baudRate = some b → 0 < b.value) ∧ (t.transmissionEnable = true → t.baudRate.isSome = true) := by
  obtain ⟨dd, pi, pd, pr, te, br⟩ := t
  simp only [legalTiming, Bool.and_eq_true]
  cases dd <;> cases pi <;> cases pd <;> cases pr <;> cases te <;> cases br <;> simp [and_assoc]

theorem value_perRegister (t : TimingConfig) (f : Frame) :
    (perRegister t f).value = (t.perRegisterDelay.getD (.rat 0)).value * (registerCount f : ℝ) := by
  unfold perRegister
  split <;> rename_i h <;> simp [h]

theorem value_transmission (p : Params) (t : TimingConfig) (f : Frame) :
    (transmission p t f).value = if t.transmissionEnable then
      ((channelLength p f.length : Nat) : ℝ) * 11 * 1000 / (t.baudRate.getD (.rat 0)).value else 0 := by
  unfold transmission
  split
  · split <;> rename_i h <;> simp [h, Config.bitsPerChar]
  · simp

theorem value_delay (p : Params) (t : TimingConfig) (f : Frame) (k : Nat) :
    (delay p t f k).1.value = (detection t k).1.value + (processing t (detection t k).2).1.value +
      (perRegister t f).value + (transmission p t f).value := by
  simp [delay]

/-- The delay of a legal configuration is not negative (R301). -/
theorem delay_nonneg {t : TimingConfig} (h : legalTiming t = true) (p : Params) (f : Frame) (k : Nat) :
    0 ≤ (delay p t f k).1.value := by
  obtain ⟨h1, h2, h3, h4, h5, -⟩ := legalTiming_iff.mp h
  have hd : ∀ k, 0 ≤ (detection t k).1.value := by
    intro k
    unfold detection
    split
    · rename_i d hd
      exact (sampleSetting_mem (h1 d hd) k).1
    · split
      · rename_i q hq
        exact le_trans (by simp) (draw_mem (lo := .rat 0) (by simpa using h2 q hq) k).1
      · simp
  have hp : ∀ k, 0 ≤ (processing t k).1.value := by
    intro k
    unfold processing
    split
    · rename_i d hd
      exact (sampleSetting_mem (h3 d hd) k).1
    · simp
  have hr : 0 ≤ (perRegister t f).value := by
    unfold perRegister
    split
    · rename_i r hr
      simpa using mul_nonneg (h4 r hr) (Nat.cast_nonneg (registerCount f))
    · simp
  have ht : 0 ≤ (transmission p t f).value := by
    unfold transmission
    split
    · split
      · rename_i b hb
        rw [value_over, value_rat]
        exact div_nonneg (by exact_mod_cast Nat.zero_le _) (h5 b hb).le
      · simp
    · simp
  rw [value_delay]
  linarith [hd k, hp (detection t k).2]

theorem dueFor_nonneg {tm : Option TimingConfig} (h : ∀ t, tm = some t → legalTiming t = true) (p : Params)
    (f : Frame) (k : Nat) : 0 ≤ (dueFor p tm f k).1.value := by
  cases tm with
  | none => simp [dueFor]
  | some t => exact delay_nonneg (h t rfl) p f k

end Sys2Proof.Laws
end

