-- ==== Sys2Proof/Laws/Exec.lean ====
section
/-!
SUPPORT. Everything an accepted request can do, said once: `exec` is `serve` with the instruction's handler, `serve` has
three outcomes, and a handler keeps its frame.
-/

namespace Sys2Proof.Laws

open Sys2Proof Sys2Proof.Machine Sys2Proof.Safety

/-- The handler of an instruction. -/
def handlerOf (p : Params) : Instr → Memory → Reply
  | .readCoils u a c _ => readBitsHandler p .CO u 0x01#8 a c
  | .readDiscreteInputs u a c _ => readBitsHandler p .DI u 0x02#8 a c
  | .readHoldingRegisters u a c _ => readRegsHandler p .HR u 0x03#8 a c
  | .readInputRegisters u a c _ => readRegsHandler p .IR u 0x04#8 a c
  | .writeSingleCoil u a v x => writeSingleCoilHandler (encode (.writeSingleCoil u a v x)) u a v
  | .writeSingleRegister u a v x => writeSingleRegisterHandler (encode (.writeSingleRegister u a v x)) u a v
  | .writeMultipleCoils u a c n d =>
    writeMultipleCoilsHandler p (encode (.writeMultipleCoils u a c n d)) u a c n d
  | .writeMultipleRegisters u a c n d =>
    writeMultipleRegistersHandler p (encode (.writeMultipleRegisters u a c n d)) u a c n d

/-- Every meaning is its handler in the frame of R120. -/
theorem exec_eq_serve (i : Instr) (s : State) :
    exec i s = serve s (encode i) i.unit i.fn.code (handlerOf s.params i) := by
  cases i <;> rfl

/-- A request to an absent unit (R122). -/
theorem serve_absent {s : State} {f : Frame} {u fc : Byte} {H : Memory → Reply}
    (h : findDevice s.memory (u.toNat : Int) = none) :
    serve s f u fc H = .next (takeException s none f u fc .gatewayTargetFailed) := by
  simp [serve, h]

theorem serve_answer {s : State} {f : Frame} {u fc : Byte} {H : Memory → Reply} {d : Device} {m : Memory} {r : Frame}
    (h : findDevice s.memory (u.toNat : Int) = some d) (hr : H s.memory = .answer m r) :
    serve s f u fc H = .next (respond { s with memory := m } d.timing f r) := by
  simp [serve, h, hr]

theorem serve_raise {s : State} {f : Frame} {u fc : Byte} {H : Memory → Reply} {d : Device} {m : Memory}
    (h : findDevice s.memory (u.toNat : Int) = some d) (hr : H s.memory = .raise m) :
    serve s f u fc H = .next (takeException { s with memory := m } d.timing f u fc .illegalDataValue) := by
  simp [serve, h, hr]

/-- Everything `serve` can answer `next` with (R120). -/
theorem serve_next {s t : State} {f : Frame} {u fc : Byte} {H : Memory → Reply} (h : serve s f u fc H = .next t) :
    (findDevice s.memory (u.toNat : Int) = none ∧
      t = respond s none f (excFrame u fc .gatewayTargetFailed)) ∨
    ∃ d m, findDevice s.memory (u.toNat : Int) = some d ∧
      ((∃ r, H s.memory = .answer m r ∧ t = respond { s with memory := m } d.timing f r) ∨
       (H s.memory = .raise m ∧
         t = respond { s with memory := m } d.timing f (excFrame u fc .illegalDataValue))) := by
  unfold serve at h
  split at h
  · rename_i hf
    left
    injection h with h
    exact ⟨hf, h.symm⟩
  · rename_i d hd
    right
    split at h
    · rename_i m r hr
      injection h with h
      exact ⟨d, m, hd, .inl ⟨r, hr, h.symm⟩⟩
    · rename_i m hr
      injection h with h
      exact ⟨d, m, hd, .inr ⟨hr, h.symm⟩⟩
    · simp at h

/-- A response leaves everything but memory, the pending response and the index of the free values alone. -/
theorem answers_respond (s : State) (m : Memory) (tm : Option TimingConfig) (f r : Frame) :
    Answers s (respond { s with memory := m } tm f r) r :=
  ⟨rfl, rfl, rfl, rfl, rfl, rfl, rfl, rfl, rfl⟩

theorem answers_respond' (s : State) (tm : Option TimingConfig) (f r : Frame) : Answers s (respond s tm f r) r :=
  ⟨rfl, rfl, rfl, rfl, rfl, rfl, rfl, rfl, rfl⟩

/-! ## Handlers -/

/-- The memory a reply leaves, if it is one. -/
def replyMemory : Reply → Option Memory
  | .answer m _ => some m
  | .raise m => some m
  | .tooLong => none

theorem replyRead_cases (p : Params) (u fc : Byte) (m : Memory) (data : Frame) :
    (fitsChannel p (channelLength p (3 + data.length)) = true ∧
      replyRead p u fc m data = .answer m (readResponse u fc data)) ∨
    (fitsChannel p (channelLength p (3 + data.length)) = false ∧ replyRead p u fc m data = .tooLong) := by
  unfold replyRead
  split <;> simp_all

theorem replyMemory_replyWrite (f : Frame) (r : Memory × Option ValidationError) :
    replyMemory (replyWrite f r) = some r.1 := by
  obtain ⟨m, e⟩ := r
  cases e <;> rfl

theorem length_readData (p : Params) (i : Instr) (h : IsRead i = true) (m : Memory) :
    ∃ data : Frame, data.length = readLength i ∧
      handlerOf p i m = replyRead p i.unit i.fn.code m data := by
  cases i <;> simp only [IsRead, reduceCtorEq] at h <;>
    exact ⟨_, by simp [readLength], rfl⟩

/-- A read with room for its response answers and leaves memory alone. -/
theorem read_answers {p : Params} {i : Instr} (h : IsRead i = true) (hr : HasRoom p i = true) (m : Memory) :
    ∃ data : Frame, data.length = readLength i ∧ handlerOf p i m = .answer m (readResponse i.unit i.fn.code data) := by
  obtain ⟨data, hl, hd⟩ := length_readData p i h m
  refine ⟨data, hl, ?_⟩
  rcases replyRead_cases p i.unit i.fn.code m data with ⟨-, h'⟩ | ⟨h', -⟩
  · rw [hd, h']
  · rw [hl, show fitsChannel p (channelLength p (3 + readLength i)) = true from hr] at h'
    simp at h'

/-- A read leaves memory alone. -/
theorem read_memory {p : Params} {i : Instr} (h : IsRead i = true) {m m' : Memory}
    (hm : replyMemory (handlerOf p i m) = some m') : m' = m := by
  obtain ⟨data, -, hd⟩ := length_readData p i h m
  rw [hd] at hm
  rcases replyRead_cases p i.unit i.fn.code m data with ⟨-, h'⟩ | ⟨-, h'⟩ <;> rw [h'] at hm <;>
    simp [replyMemory] at hm
  exact hm.symm

/-- Everything a write's handler can do: raise before the first cell, or run over its span (R160). -/
theorem write_cases (p : Params) {i : Instr} (hi : IsRead i = false) (m : Memory) :
    handlerOf p i m = .raise m ∨
    (IsCoilWrite i = true ∧ ∃ vs : List Bool, vs.length = i.cells ∧
      handlerOf p i m = replyWrite (encode i) (writeBits (i.unit.toNat : Int) .CO m i.addr.toNat vs)) ∨
    (IsRegWrite i = true ∧ ∃ vs : List Word16, vs.length = i.cells ∧
      handlerOf p i m = replyWrite (encode i) (writeRegs (i.unit.toNat : Int) .HR m i.addr.toNat vs)) := by
  cases i with
  | readCoils | readDiscreteInputs | readHoldingRegisters | readInputRegisters => simp [IsRead] at hi
  | writeSingleCoil u a v x =>
    simp only [handlerOf, writeSingleCoilHandler]
    split
    · exact .inl rfl
    · exact .inr (.inl ⟨rfl, [_], rfl, rfl⟩)
  | writeSingleRegister u a v x => exact .inr (.inr ⟨rfl, [v], rfl, rfl⟩)
  | writeMultipleCoils u a c n d =>
    simp only [handlerOf, writeMultipleCoilsHandler]
    split_ifs
    · exact .inl rfl
    · exact .inl rfl
    · exact .inl rfl
    · exact .inr (.inl ⟨rfl, _, length_unpackBits _ _ _, rfl⟩)
  | writeMultipleRegisters u a c n d =>
    simp only [handlerOf, writeMultipleRegistersHandler]
    split_ifs with h1 h2
    · exact .inl rfl
    · exact .inl rfl
    · exact .inl rfl
    · refine .inr (.inr ⟨rfl, _, ?_, rfl⟩)
      simp only [ne_eq, Decidable.not_not] at h1 h2
      rw [length_registersOf, ← h1, h2]
      simp [Instr.cells]

theorem take_encode (i : Instr) : 3 ≤ ((encode i).take 6).length ∧ ((encode i).take 6).getD 0 0 = i.unit ∧
    ((encode i).take 6).getD 1 0 = i.fn.code := by
  cases i <;> simp [encode, encodeRq6, encodeRqm, Instr.unit, Instr.fn, Fn.code]

/-- A success response has at least three bytes: the unit id, the request's function code, and more (R131). -/
theorem answer_shape {p : Params} {i : Instr} {m m' : Memory} {r : Frame} (h : handlerOf p i m = .answer m' r) :
    3 ≤ r.length ∧ r.getD 0 0 = i.unit ∧ r.getD 1 0 = i.fn.code := by
  have hwrite : ∀ w : Memory × Option ValidationError, replyWrite (encode i) w = .answer m' r →
      r = (encode i).take 6 := by
    rintro ⟨w, e⟩ h
    cases e <;> simp [replyWrite, writeResponse] at h
    exact h.2.symm
  by_cases hi : IsRead i = true
  · obtain ⟨data, -, hd⟩ := length_readData p i hi m
    rw [hd] at h
    rcases replyRead_cases p i.unit i.fn.code m data with ⟨-, h'⟩ | ⟨-, h'⟩ <;> rw [h'] at h <;> simp at h
    rw [← h.2]
    simp [readResponse]
  · rcases write_cases p (by simpa using hi) m with h' | ⟨-, vs, -, h'⟩ | ⟨-, vs, -, h'⟩ <;> rw [h'] at h
    · simp at h
    · rw [hwrite _ h]
      exact take_encode i
    · rw [hwrite _ h]
      exact take_encode i

/-- What a reply leaves in memory keeps the frame of R172 and the canonical form. -/
theorem reply_memory_frame {p : Params} {i : Instr} {m m' : Memory}
    (h : replyMemory (handlerOf p i m) = some m') :
    (∀ u b a, ¬ (IsRegWrite i = true ∧ u = (i.unit.toNat : Int) ∧ b = RegBank.HR ∧ InSpan i a) →
      readReg m' u b a = readReg m u b a) ∧
    (∀ u b a, ¬ (IsCoilWrite i = true ∧ u = (i.unit.toNat : Int) ∧ b = BitBank.CO ∧ InSpan i a) →
      readBit m' u b a = readBit m u b a) ∧
    (∀ u, (findDevice m' u).map Device.timing = (findDevice m u).map Device.timing) ∧
    (∀ lo, Memory.wfFrom lo m = true → Memory.wfFrom lo m' = true) := by
  by_cases hi : IsRead i = true
  · rw [read_memory hi h]
    exact ⟨fun _ _ _ _ => rfl, fun _ _ _ _ => rfl, fun _ => rfl, fun _ h => h⟩
  · rcases write_cases p (by simpa using hi) m with h' | ⟨hc, vs, hl, h'⟩ | ⟨hc, vs, hl, h'⟩ <;> rw [h'] at h
    · simp only [replyMemory, Option.some.injEq] at h
      subst h
      exact ⟨fun _ _ _ _ => rfl, fun _ _ _ _ => rfl, fun _ => rfl, fun _ h => h⟩
    · rw [replyMemory_replyWrite, Option.some.injEq] at h
      subst h
      obtain ⟨h1, h2, h3, h4, -⟩ := writeBits_spec (i.unit.toNat : Int) .CO vs m i.addr.toNat
      refine ⟨fun u b a _ => h2 u b a, fun u b a hn => h1 u b a ?_, h3, h4⟩
      rintro ⟨rfl, rfl, hlo, hhi⟩
      exact hn ⟨hc, rfl, rfl, hlo, by rw [← hl]; exact hhi⟩
    · rw [replyMemory_replyWrite, Option.some.injEq] at h
      subst h
      obtain ⟨h1, h2, h3, h4, -⟩ := writeRegs_spec (i.unit.toNat : Int) .HR vs m i.addr.toNat
      refine ⟨fun u b a hn => h1 u b a ?_, fun u b a _ => h2 u b a, h3, h4⟩
      rintro ⟨rfl, rfl, hlo, hhi⟩
      exact hn ⟨hc, rfl, rfl, hlo, by rw [← hl]; exact hhi⟩

/-- Everything `exec` can answer `next` with: a response to the request as received, over a memory its handler left, with
the timing of the addressed record (R120). -/
theorem exec_next {i : Instr} {s t : State} (h : exec i s = .next t) :
    ∃ m tm r, t = respond { s with memory := m } tm (encode i) r ∧
      ((findDevice s.memory (i.unit.toNat : Int) = none ∧ m = s.memory ∧ tm = none ∧
          r = excFrame i.unit i.fn.code .gatewayTargetFailed) ∨
       (∃ d, findDevice s.memory (i.unit.toNat : Int) = some d ∧ tm = d.timing ∧
          replyMemory (handlerOf s.params i s.memory) = some m ∧
          (handlerOf s.params i s.memory = .answer m r ∨
            (handlerOf s.params i s.memory = .raise m ∧ r = excFrame i.unit i.fn.code .illegalDataValue)))) := by
  rw [exec_eq_serve] at h
  rcases serve_next h with ⟨hf, rfl⟩ | ⟨d, m, hd, ⟨r, hr, rfl⟩ | ⟨hr, rfl⟩⟩
  · exact ⟨s.memory, none, _, rfl, .inl ⟨hf, rfl, rfl, rfl⟩⟩
  · exact ⟨m, d.timing, r, rfl, .inr ⟨d, hd, rfl, by simp [hr, replyMemory], .inl hr⟩⟩
  · exact ⟨m, d.timing, _, rfl, .inr ⟨d, hd, rfl, by simp [hr, replyMemory], .inr ⟨hr, rfl⟩⟩⟩

/-- What `exec` leaves in memory keeps the frame of R172, every record's timing and the canonical form. -/
theorem exec_memory_frame {i : Instr} {s t : State} (h : exec i s = .next t) :
    (∀ u b a, ¬ (IsRegWrite i = true ∧ u = (i.unit.toNat : Int) ∧ b = RegBank.HR ∧ InSpan i a) →
      readReg t.memory u b a = readReg s.memory u b a) ∧
    (∀ u b a, ¬ (IsCoilWrite i = true ∧ u = (i.unit.toNat : Int) ∧ b = BitBank.CO ∧ InSpan i a) →
      readBit t.memory u b a = readBit s.memory u b a) ∧
    (∀ u, (findDevice t.memory u).map Device.timing = (findDevice s.memory u).map Device.timing) ∧
    (∀ lo, Memory.wfFrom lo s.memory = true → Memory.wfFrom lo t.memory = true) := by
  obtain ⟨m, tm, r, rfl, ⟨-, rfl, -, -⟩ | ⟨d, -, -, hm, -⟩⟩ := exec_next h
  · exact ⟨fun _ _ _ _ => rfl, fun _ _ _ _ => rfl, fun _ => rfl, fun _ h => h⟩
  · exact reply_memory_frame hm

/-! ## Completing and raising -/

theorem replyWrite_done {f : Frame} {r : Memory × Option ValidationError} (h : r.2 = none) :
    replyWrite f r = .answer r.1 (f.take 6) := by
  obtain ⟨m, e⟩ := r
  simp only at h
  subst h
  rfl

theorem replyWrite_raised {f : Frame} {r : Memory × Option ValidationError} (h : r.2 ≠ none) :
    replyWrite f r = .raise r.1 := by
  obtain ⟨m, e⟩ := r
  cases e
  · simp at h
  · rfl

/-- A request whose handler answers (R120). -/
theorem exec_answer {i : Instr} {s : State} {d : Device} {m : Memory} {r : Frame}
    (hd : findDevice s.memory (i.unit.toNat : Int) = some d) (h : handlerOf s.params i s.memory = .answer m r) :
    exec i s = .next (respond { s with memory := m } d.timing (encode i) r) := by
  rw [exec_eq_serve, serve_answer hd h]

/-- A request whose handler raises (R127). -/
theorem exec_raise {i : Instr} {s : State} {d : Device} {m : Memory}
    (hd : findDevice s.memory (i.unit.toNat : Int) = some d) (h : handlerOf s.params i s.memory = .raise m) :
    exec i s =
      .next (respond { s with memory := m } d.timing (encode i) (excFrame i.unit i.fn.code .illegalDataValue)) := by
  rw [exec_eq_serve, serve_raise hd h]
  rfl

/-- A 0x10 request whose checks pass runs over its registers (R164). -/
theorem writeMultipleRegisters_runs {p : Params} {u : Byte} {addr count : Word16} {n : Byte} {payload : Frame}
    {m : Memory} (h1 : n.toNat = payload.length) (h2 : n.toNat = 2 * count.toNat)
    (h3 : p.multiWritePrecheck = false ∨ addr.toNat + count.toNat ≤ 65536) :
    handlerOf p (.writeMultipleRegisters u addr count n payload) m =
      replyWrite (encode (.writeMultipleRegisters u addr count n payload))
        (writeRegs (u.toNat : Int) .HR m addr.toNat (registersOf payload)) := by
  simp only [handlerOf, writeMultipleRegistersHandler, h1]
  rw [if_neg (by simp), if_neg (by omega), if_neg]
  rcases h3 with h | h <;> simp [h, rangeFits, Config.addrMax]

/-- A 0x0F request whose checks pass runs over its coils (R168). -/
theorem writeMultipleCoils_runs {p : Params} {u : Byte} {addr count : Word16} {n : Byte} {payload : Frame}
    {m : Memory} (h1 : n.toNat = payload.length) (h2 : n.toNat = ceilDiv count.toNat 8)
    (h3 : p.multiWritePrecheck = false ∨ addr.toNat + count.toNat ≤ 65536) :
    handlerOf p (.writeMultipleCoils u addr count n payload) m =
      replyWrite (encode (.writeMultipleCoils u addr count n payload))
        (writeBits (u.toNat : Int) .CO m addr.toNat (unpackBits p.coilMsbFirst payload count.toNat)) := by
  simp only [handlerOf, writeMultipleCoilsHandler, h1]
  rw [if_neg (by simp), if_neg (by omega), if_neg]
  rcases h3 with h | h <;> simp [h, rangeFits, Config.addrMax]

/-- What a write's handler does is the same for every memory: it raises, or it runs over the same values. -/
theorem write_uniform (p : Params) {i : Instr} (hi : IsRead i = false) :
    (∀ m, handlerOf p i m = .raise m) ∨
    (∃ vs : List Bool, ∀ m, handlerOf p i m =
      replyWrite (encode i) (writeBits (i.unit.toNat : Int) .CO m i.addr.toNat vs)) ∨
    (∃ vs : List Word16, ∀ m, handlerOf p i m =
      replyWrite (encode i) (writeRegs (i.unit.toNat : Int) .HR m i.addr.toNat vs)) := by
  cases i with
  | readCoils | readDiscreteInputs | readHoldingRegisters | readInputRegisters => simp [IsRead] at hi
  | writeSingleCoil u a v x =>
    simp only [handlerOf, writeSingleCoilHandler]
    split
    · exact .inl fun _ => rfl
    · exact .inr (.inl ⟨[_], fun _ => rfl⟩)
  | writeSingleRegister u a v x => exact .inr (.inr ⟨[v], fun _ => rfl⟩)
  | writeMultipleCoils u a c n d =>
    simp only [handlerOf, writeMultipleCoilsHandler]
    split_ifs
    · exact .inl fun _ => rfl
    · exact .inl fun _ => rfl
    · exact .inl fun _ => rfl
    · exact .inr (.inl ⟨_, fun _ => rfl⟩)
  | writeMultipleRegisters u a c n d =>
    simp only [handlerOf, writeMultipleRegistersHandler]
    split_ifs with h1 h2
    · exact .inl fun _ => rfl
    · exact .inl fun _ => rfl
    · exact .inl fun _ => rfl
    · exact .inr (.inr ⟨_, fun _ => rfl⟩)

end Sys2Proof.Laws
end

