-- ==== Sys2Proof/Laws/Dispatch.lean ====
section
/-!
SUPPORT. The function codes by the length of their layouts, what decoding a body can give, and everything the dispatcher
and one step can do, said once.
-/

namespace Sys2Proof.Laws

open Sys2Proof Sys2Proof.Machine Sys2Proof.Safety

theorem code_mem (fn : Fn) :
    (fn.code ∈ rq6Codes ∧ fn.minLength = 6) ∨ (fn.code ∈ rqmCodes ∧ fn.minLength = 7) := by
  cases fn <;> decide

theorem fnOf_of_rq6 {fc : Byte} (h : fc ∈ rq6Codes) : ∃ fn, fnOf fc = some fn ∧ fn.minLength = 6 := by
  revert h
  revert fc
  unfold rq6Codes
  simp
  decide

theorem fnOf_of_rqm {fc : Byte} (h : fc ∈ rqmCodes) : ∃ fn, fnOf fc = some fn ∧ fn.minLength = 7 := by
  revert h
  revert fc
  unfold rqmCodes
  simp
  decide

/-- A byte is unknown to the table exactly when it is in neither list of codes (R97). -/
theorem fnOf_eq_none_iff_codes {fc : Byte} : fnOf fc = none ↔ fc ∉ rq6Codes ∧ fc ∉ rqmCodes := by
  constructor
  · intro h
    constructor <;> intro hc
    · obtain ⟨fn, h1, _⟩ := fnOf_of_rq6 hc
      simp [h] at h1
    · obtain ⟨fn, h1, _⟩ := fnOf_of_rqm hc
      simp [h] at h1
  · rintro ⟨h1, h2⟩
    cases hf : fnOf fc with
    | none => rfl
    | some fn =>
      have := code_of_fnOf fc fn hf
      subst this
      rcases code_mem fn with h | h
      · exact absurd h.1 h1
      · exact absurd h.1 h2

/-- Everything decoding a body can give: an instruction when the frame has its function's minimum length, and else a
rejection (R95, R125). -/
theorem decodeBody_cases (u fc : Byte) (body : Frame) (fn : Fn) :
    (fn.minLength ≤ body.length + 2 ∧ ∃ i, decodeBody u fc body fn = .instr i ∧ i.fn = fn ∧ i.unit = u) ∨
    (body.length + 2 < fn.minLength ∧ decodeBody u fc body fn = .rejected (.belowMinimum u fc)) := by
  cases fn <;> simp only [decodeBody, Fn.minLength] <;>
  · first
    | (match body with
       | a :: b :: c :: d :: e :: x => left; exact ⟨by simp, _, rfl, rfl, rfl⟩
       | [a, b, c, d] => first | (left; exact ⟨by simp, _, rfl, rfl, rfl⟩) | (right; exact ⟨by simp, rfl⟩)
       | [a, b, c] => right; exact ⟨by simp, rfl⟩
       | [a, b] => right; exact ⟨by simp, rfl⟩
       | [a] => right; exact ⟨by simp, rfl⟩
       | [] => right; exact ⟨by simp, rfl⟩)

/-- Everything the dispatcher can answer `next` with: `exec` of the decoded instruction, or an exception frame with no
timing or the timing of a registered record (R121 to R125). -/
theorem dispatchFrame_next {f : Frame} {s t : State} (h : dispatchFrame f s = .next t) :
    (∃ i, decode f = .instr i ∧ exec i s = .next t) ∨
    (∃ tm u fc c, t = respond s tm f (excFrame u fc c) ∧
      (tm = none ∨ ∃ d, findDevice s.memory (u.toNat : Int) = some d ∧ tm = d.timing)) := by
  unfold dispatchFrame at h
  split at h
  · rename_i i hi
    exact .inl ⟨i, hi, h⟩
  · rename_i why hw
    right
    injection h with h
    subst h
    cases why with
    | noFunctionCode u => exact ⟨none, u, _, _, rfl, .inl rfl⟩
    | unknownFunction u fc =>
      simp only [rejectFrame]
      split
      · exact ⟨none, u, _, _, rfl, .inl rfl⟩
      · rename_i d hd
        exact ⟨d.timing, u, _, _, rfl, .inr ⟨d, hd, rfl⟩⟩
    | belowMinimum u fc =>
      simp only [rejectFrame]
      split
      · exact ⟨none, u, _, _, rfl, .inl rfl⟩
      · rename_i d hd
        exact ⟨d.timing, u, _, _, rfl, .inr ⟨d, hd, rfl⟩⟩

/-- The shape of every answer: a response of at least three bytes over a memory that keeps the input banks, every
record's timing and the canonical form. -/
theorem dispatchFrame_shape {f : Frame} {s t : State} (h : dispatchFrame f s = .next t) :
    ∃ m tm f' r, t = respond { s with memory := m } tm f' r ∧ 3 ≤ r.length ∧
      (tm = none ∨ ∃ d u, findDevice s.memory u = some d ∧ tm = d.timing) ∧
      (∀ u a, readReg m u .IR a = readReg s.memory u .IR a) ∧
      (∀ u a, readBit m u .DI a = readBit s.memory u .DI a) ∧
      (∀ u, (findDevice m u).map Device.timing = (findDevice s.memory u).map Device.timing) ∧
      (∀ lo, Memory.wfFrom lo s.memory = true → Memory.wfFrom lo m = true) := by
  rcases dispatchFrame_next h with ⟨i, -, hx⟩ | ⟨tm, u, fc, c, rfl, htm⟩
  · obtain ⟨g1, g2, g3, g4⟩ := exec_memory_frame hx
    obtain ⟨m, tm, r, rfl, hh⟩ := exec_next hx
    refine ⟨m, tm, encode i, r, rfl, ?_, ?_, fun u a => g1 u _ a (by simp), fun u a => g2 u _ a (by simp), g3, g4⟩
    · rcases hh with ⟨-, -, -, rfl⟩ | ⟨d, -, -, -, hr' | ⟨-, rfl⟩⟩
      · simp [excFrame]
      · exact (answer_shape hr').1
      · simp [excFrame]
    · rcases hh with ⟨-, -, rfl, -⟩ | ⟨d, hd, rfl, -⟩
      · exact .inl rfl
      · exact .inr ⟨d, _, hd, rfl⟩
  · refine ⟨s.memory, tm, f, _, rfl, by simp [excFrame], ?_, fun _ _ => rfl, fun _ _ => rfl, fun _ => rfl,
      fun _ h => h⟩
    rcases htm with h | ⟨d, h1, h2⟩
    · exact .inl h
    · exact .inr ⟨d, _, h1, h2⟩

/-- Everything the dispatcher's move can do: nothing, drop a bad frame, or dispatch a good one (R119, R217). -/
theorem dispatchTurn_next {s t : State} (h : dispatchTurn s = .next t) :
    t = s ∨ (s.run = true ∧ s.busy = false ∧ ∃ w rest, s.requests = w :: rest ∧
      ((frameIn s.params w = none ∧ t = goIdle { s with requests := rest }) ∨
       (∃ f, frameIn s.params w = some f ∧ dispatchFrame f { s with requests := rest } = .next t))) := by
  unfold dispatchTurn at h
  split at h
  · rename_i hg
    simp at hg
    split at h
    · injection h with h
      exact .inl h.symm
    · rename_i w rest hq
      right
      refine ⟨hg.1, hg.2, w, rest, hq, ?_⟩
      unfold receiveFrame at h
      split at h
      · split at h
        · rename_i hf
          injection h with h
          exact .inl ⟨hf, h.symm⟩
        · rename_i f hf
          exact .inr ⟨f, hf, h⟩
      · simp at h
  · injection h with h
    exact .inl h.symm

/-- A step is one move: the first of the list, or the block's own when none is listed. -/
theorem step_turn {s t : State} (h : step s = .next t) : ∃ tr ts, takeTurn tr { s with turns := ts } = .next t ∧
    ((s.turns = tr :: ts) ∨ (s.turns = [] ∧ ts = [] ∧ tr = ownTurn s)) := by
  unfold step at h
  split at h
  · rename_i he
    refine ⟨ownTurn s, [], ?_, .inr ⟨he, rfl, rfl⟩⟩
    rw [← h]
    congr 1
    cases s
    simp_all
  · rename_i tr ts he
    exact ⟨tr, ts, h, .inl he⟩

/-- The block by itself calls no host operation and does not reset. -/
theorem wireTurn_ownTurn (s : State) : WireTurn (ownTurn s) = true := by
  unfold ownTurn
  split
  · split <;> rfl
  · rfl

end Sys2Proof.Laws
end

