-- ==== Sys2Proof/Laws/HostOps.lean ====
section
/-!
SUPPORT. Laws of the host operations: when a seed raises, what a seeded device reads, and that every operation changes
nothing but memory and RUN and keeps memory good.
-/

namespace Sys2Proof.Laws

open Sys2Proof Sys2Proof.Machine

theorem seedError_eq_none {c : DeviceConfig} : seedError c = none ↔ seedErrors c = [] := by
  unfold seedError
  split <;> simp_all

/-- The report of a failing seed is one that a pair of it raises (R232). -/
theorem seedError_mem {c : DeviceConfig} (h : seedErrors c ≠ []) : ∃ e, seedError c = some e ∧ e ∈ seedErrors c := by
  unfold seedError
  split
  · rename_i h'
    exact absurd h' h
  · rename_i e he
    exact ⟨e, rfl, by simp [he]⟩
  · rename_i e es hne he
    refine ⟨_, rfl, ?_⟩
    rw [he, List.getD_eq_getElem _ _ (Nat.mod_lt _ (by simp))]
    exact List.getElem_mem _

theorem regSeedErrors_eq_nil {l : List (HostInt × HostInt)} : regSeedErrors l = [] ↔
    ∀ p ∈ l, (0 ≤ p.1.toInt ∧ p.1.toInt ≤ 65535) ∧ (0 ≤ p.2.toInt ∧ p.2.toInt ≤ 65535) := by
  simp [regSeedErrors, checkAddress_eq_none, checkValue_eq_none]

theorem bitSeedErrors_eq_nil {l : List (HostInt × Bool)} : bitSeedErrors l = [] ↔
    ∀ p ∈ l, (0 ≤ p.1.toInt ∧ p.1.toInt ≤ 65535) := by
  simp [bitSeedErrors, checkAddress_eq_none]

theorem seedRegs_wf {b : RegBank} {l : List (HostInt × HostInt)} : ∀ {d : Device}, d.wf = true →
    (∀ p ∈ l, (0 ≤ p.1.toInt ∧ p.1.toInt ≤ 65535)) →
    (seedRegs b l d).wf = true ∧ (seedRegs b l d).unitId = d.unitId ∧ (seedRegs b l d).timing = d.timing := by
  induction l with
  | nil => intro d h _; exact ⟨h, rfl, rfl⟩
  | cons p l ih =>
    intro d h hl
    have hp := hl p (by simp)
    have := ih (d := d.setReg b p.1.toInt.toNat (BitVec.ofInt 16 p.2.toInt))
      (wf_setReg h b (by simp [Config.addrMax]; omega) _) (fun q hq => hl q (by simp [hq]))
    simpa [seedRegs] using this

theorem seedBits_wf {b : BitBank} {l : List (HostInt × Bool)} : ∀ {d : Device}, d.wf = true →
    (∀ p ∈ l, (0 ≤ p.1.toInt ∧ p.1.toInt ≤ 65535)) →
    (seedBits b l d).wf = true ∧ (seedBits b l d).unitId = d.unitId ∧ (seedBits b l d).timing = d.timing := by
  induction l with
  | nil => intro d h _; exact ⟨h, rfl, rfl⟩
  | cons p l ih =>
    intro d h hl
    have hp := hl p (by simp)
    have := ih (d := d.setBit b p.1.toInt.toNat p.2)
      (wf_setBit h b (by simp [Config.addrMax]; omega) _) (fun q hq => hl q (by simp [hq]))
    simpa [seedBits] using this

theorem wf_freshDevice {u : Nat} (h1 : 1 ≤ u) (h2 : u ≤ 247) (tm : Option TimingConfig) :
    (freshDevice u tm).wf = true := by
  rw [show (freshDevice u tm).wf = (decide (1 ≤ u) && decide (u ≤ 247) && true && true && true && true) from rfl]
  simp only [Bool.and_true, Bool.and_eq_true]
  exact ⟨decide_eq_true h1, decide_eq_true h2⟩

/-- What the cells of a seeded register bank hold, and that no other bank changes (R232). -/
theorem seedRegs_get {b : RegBank} {l : List (HostInt × HostInt)} : ∀ {d : Device}, d.wf = true →
    (∀ p ∈ l, (0 ≤ p.1.toInt ∧ p.1.toInt ≤ 65535)) → (l.map Prod.fst).Nodup →
    (∀ p ∈ l, Bank.get unsetRegister ((seedRegs b l d).regs b) p.1.toInt.toNat = BitVec.ofInt 16 p.2.toInt) ∧
    (∀ a : Nat, (∀ p ∈ l, p.1.toInt ≠ a) →
      Bank.get unsetRegister ((seedRegs b l d).regs b) a = Bank.get unsetRegister (d.regs b) a) ∧
    (∀ b', b' ≠ b → (seedRegs b l d).regs b' = d.regs b') ∧ (∀ b', (seedRegs b l d).bits b' = d.bits b') := by
  induction l with
  | nil => intro d h _ _; exact ⟨by simp, fun _ _ => rfl, fun _ _ => rfl, fun _ => rfl⟩
  | cons p l ih =>
    intro d hw hl hn
    have hp := hl p (by simp)
    simp only [List.map_cons, List.nodup_cons] at hn
    let d' := d.setReg b p.1.toInt.toNat (BitVec.ofInt 16 p.2.toInt)
    have hd' : d'.wf = true := wf_setReg hw b (by simp [Config.addrMax]; omega) _
    obtain ⟨i1, i2, i3, i4⟩ := ih hd' (fun q hq => hl q (by simp [hq])) hn.2
    have hself : Bank.get unsetRegister (d'.regs b) p.1.toInt.toNat = BitVec.ofInt 16 p.2.toInt := by
      simp only [d', regs_setReg, if_true]
      exact get_set_self (wf_regs hw b) _ _
    refine ⟨fun q hq => ?_, fun a ha => ?_, fun b' hb' => ?_, fun b' => ?_⟩
    · rcases List.mem_cons.mp hq with rfl | hq
      · have := i2 q.1.toInt.toNat (fun r hr he => hn.1 (by
          have hr' := hl r (by simp [hr])
          have : r.1 = q.1 := BitVec.eq_of_toInt_eq (by omega)
          rw [← this]
          exact List.mem_map_of_mem hr))
        exact this.trans hself
      · exact i1 q hq
    · refine (i2 a (fun r hr => ha r (by simp [hr]))).trans ?_
      simp only [d', regs_setReg, if_true]
      exact get_set_other _ _ (by have := ha p (by simp); omega)
    · exact (i3 b' hb').trans (by simp only [d', regs_setReg, if_neg hb'])
    · exact (i4 b').trans (by simp [d'])

/-- What the cells of a seeded bit bank hold, and that no other bank changes (R232). -/
theorem seedBits_get {b : BitBank} {l : List (HostInt × Bool)} : ∀ {d : Device}, d.wf = true →
    (∀ p ∈ l, (0 ≤ p.1.toInt ∧ p.1.toInt ≤ 65535)) → (l.map Prod.fst).Nodup →
    (∀ p ∈ l, Bank.get unsetBit ((seedBits b l d).bits b) p.1.toInt.toNat = p.2) ∧
    (∀ a : Nat, (∀ p ∈ l, p.1.toInt ≠ a) →
      Bank.get unsetBit ((seedBits b l d).bits b) a = Bank.get unsetBit (d.bits b) a) ∧
    (∀ b', b' ≠ b → (seedBits b l d).bits b' = d.bits b') ∧ (∀ b', (seedBits b l d).regs b' = d.regs b') := by
  induction l with
  | nil => intro d h _ _; exact ⟨by simp, fun _ _ => rfl, fun _ _ => rfl, fun _ => rfl⟩
  | cons p l ih =>
    intro d hw hl hn
    have hp := hl p (by simp)
    simp only [List.map_cons, List.nodup_cons] at hn
    let d' := d.setBit b p.1.toInt.toNat p.2
    have hd' : d'.wf = true := wf_setBit hw b (by simp [Config.addrMax]; omega) _
    obtain ⟨i1, i2, i3, i4⟩ := ih hd' (fun q hq => hl q (by simp [hq])) hn.2
    have hself : Bank.get unsetBit (d'.bits b) p.1.toInt.toNat = p.2 := by
      simp only [d', bits_setBit, if_true]
      exact get_set_self (wf_bits hw b) _ _
    refine ⟨fun q hq => ?_, fun a ha => ?_, fun b' hb' => ?_, fun b' => ?_⟩
    · rcases List.mem_cons.mp hq with rfl | hq
      · have := i2 q.1.toInt.toNat (fun r hr he => hn.1 (by
          have hr' := hl r (by simp [hr])
          have : r.1 = q.1 := BitVec.eq_of_toInt_eq (by omega)
          rw [← this]
          exact List.mem_map_of_mem hr))
        exact this.trans hself
      · exact i1 q hq
    · refine (i2 a (fun r hr => ha r (by simp [hr]))).trans ?_
      simp only [d', bits_setBit, if_true]
      exact get_set_other _ _ (by have := ha p (by simp); omega)
    · exact (i3 b' hb').trans (by simp only [d', bits_setBit, if_neg hb'])
    · exact (i4 b').trans (by simp [d'])

/-- A record whose seed raises nothing is canonical, under its unit id, with its timing (R231). -/
theorem seededDevice_wf {c : DeviceConfig} (h1 : 1 ≤ c.unitId.toInt) (h2 : c.unitId.toInt ≤ 247)
    (h : seedErrors c = []) :
    (seededDevice c).wf = true ∧ ((seededDevice c).unitId : Int) = c.unitId.toInt ∧
      (seededDevice c).timing = c.timing := by
  simp only [seedErrors, List.append_eq_nil_iff, regSeedErrors_eq_nil, bitSeedErrors_eq_nil] at h
  obtain ⟨⟨⟨ha, hb⟩, hc⟩, hd⟩ := h
  have e1 := seedRegs_wf (b := .HR) (l := c.holding)
    (wf_freshDevice (u := c.unitId.toInt.toNat) (by omega) (by omega) c.timing) (fun p hp => (ha p hp).1)
  have e2 := seedRegs_wf (b := .IR) (l := c.input) e1.1 (fun p hp => (hb p hp).1)
  have e3 := seedBits_wf (b := .CO) (l := c.coils) e2.1 hc
  have e4 := seedBits_wf (b := .DI) (l := c.discrete) e3.1 hd
  refine ⟨e4.1, ?_, ?_⟩
  · have : (seededDevice c).unitId = c.unitId.toInt.toNat := by
      unfold seededDevice
      rw [e4.2.1, e3.2.1, e2.2.1, e1.2.1]
      rfl
    omega
  · unfold seededDevice
    rw [e4.2.2, e3.2.2, e2.2.2, e1.2.2]
    rfl

theorem timing_filter_eq_none {o : Option TimingConfig} :
    o.filter (fun t => !(legalTiming t)) = none ↔ ∀ t, o = some t → legalTiming t = true := by
  cases o <;> simp

/-! ## Every operation -/

/-- Memory is canonical and every timing configuration in it is legal (R31, R233). -/
def MemoryGood (m : Memory) : Prop := m.wf = true ∧ ∀ d ∈ m, ∀ t, d.timing = some t → legalTiming t = true

theorem mem_insertDevice {m : Memory} {d e : Device} (h : e ∈ insertDevice d m) : e = d ∨ e ∈ m := by
  induction m with
  | nil => exact .inl (by simpa [insertDevice] using h)
  | cons x m ih =>
    simp only [insertDevice] at h
    split at h
    · simpa using h
    · simp only [List.mem_cons] at h ⊢
      rcases h with h | h
      · exact .inr (.inl h)
      · rcases ih h with h | h
        · exact .inl h
        · exact .inr (.inr h)

theorem mem_updateDevice {m : Memory} {u : Int} {g : Device → Device} {e : Device} (h : e ∈ updateDevice m u g) :
    ∃ d ∈ m, e = g d ∨ e = d := by
  simp only [updateDevice, List.mem_map] at h
  obtain ⟨d, hd, he⟩ := h
  refine ⟨d, hd, ?_⟩
  split at he <;> simp [← he]

theorem memoryGood_updateDevice {m : Memory} {u : Int} {g : Device → Device} (h : MemoryGood m)
    (h1 : ∀ d, (g d).unitId = d.unitId) (h2 : ∀ d, d.wf = true → (g d).wf = true)
    (h3 : ∀ d, (g d).timing = d.timing) : MemoryGood (updateDevice m u g) := by
  refine ⟨memory_wf_updateDevice h1 h2 h.1, fun e he t ht => ?_⟩
  obtain ⟨d, hd, rfl | rfl⟩ := mem_updateDevice he
  · rw [h3] at ht
    exact h.2 d hd t ht
  · exact h.2 e hd t ht

/-- A memory with the same timings under every unit id is as good. -/
theorem memoryGood_of_timing {m m' : Memory} (h : MemoryGood m) (hw : m'.wf = true)
    (ht : ∀ u, (findDevice m' u).map Device.timing = (findDevice m u).map Device.timing) : MemoryGood m' := by
  refine ⟨hw, fun d hd t htt => ?_⟩
  have h2 := ht (d.unitId : Int)
  rw [findDevice_of_mem hw hd] at h2
  simp only [Option.map_some] at h2
  cases hh : findDevice m (d.unitId : Int) with
  | none => simp [hh] at h2
  | some e =>
    rw [hh, Option.map_some, Option.some.injEq] at h2
    exact h.2 e (mem_of_findDevice hh) t (h2 ▸ htt)

/-- Everything a host operation can change: memory and RUN; good memory stays good (R230). -/
theorem hostOp_frame (op : HostOp) (s : State) : ∃ m run, (hostOp op s).1 = { s with memory := m, run := run } ∧
    (MemoryGood s.memory → MemoryGood m) := by
  have hfail : ∀ e, ∃ m run, (failHost s e).1 = { s with memory := m, run := run } ∧
      (MemoryGood s.memory → MemoryGood m) := fun e => ⟨_, _, rfl, id⟩
  have hg : ∀ b u a, ∃ m run, (getReg b u a s).1 = { s with memory := m, run := run } ∧
      (MemoryGood s.memory → MemoryGood m) := by
    intro b u a
    unfold getReg
    split
    · exact ⟨_, _, rfl, id⟩
    · exact hfail _
  have hgb : ∀ b u a, ∃ m run, (getBit b u a s).1 = { s with memory := m, run := run } ∧
      (MemoryGood s.memory → MemoryGood m) := by
    intro b u a
    unfold getBit
    split
    · exact ⟨_, _, rfl, id⟩
    · exact hfail _
  have hs : ∀ b u a v, ∃ m run, (setReg b u a v s).1 = { s with memory := m, run := run } ∧
      (MemoryGood s.memory → MemoryGood m) := by
    intro b u a v
    unfold setReg
    split
    · cases hw : writeReg s.memory u.toInt b a.toInt v.toInt with
      | error e => exact hfail _
      | ok m =>
        obtain ⟨ha, -, rfl⟩ := writeReg_ok hw
        exact ⟨_, _, rfl, fun h => memoryGood_updateDevice h (by simp)
          (fun d hd => wf_setReg hd _ (by simp [Config.addrMax]; omega) _) (by simp)⟩
    · exact hfail _
  have hsb : ∀ b u a v, ∃ m run, (setBit b u a v s).1 = { s with memory := m, run := run } ∧
      (MemoryGood s.memory → MemoryGood m) := by
    intro b u a v
    unfold setBit
    split
    · cases hw : writeBit s.memory u.toInt b a.toInt v with
      | error e => exact hfail _
      | ok m =>
        obtain ⟨ha, rfl⟩ := writeBit_ok hw
        exact ⟨_, _, rfl, fun h => memoryGood_updateDevice h (by simp)
          (fun d hd => wf_setBit hd _ (by simp [Config.addrMax]; omega) _) (by simp)⟩
    · exact hfail _
  cases op with
  | addDevice c =>
    simp only [hostOp, addDevice]
    split
    · exact hfail _
    · rename_i hr
      split
      · exact hfail _
      · rename_i hp
        split
        · exact hfail _
        · rename_i ht
          split
          · exact hfail _
          · rename_i hse
            simp [Config.unitMin, Config.unitMax] at hr
            obtain ⟨w1, w2, w3⟩ := seededDevice_wf (c := c) hr.1 hr.2 (seedError_eq_none.mp hse)
            refine ⟨_, _, rfl, fun h => ⟨memory_wf_insertDevice (by simp [Config.unitMin]; omega) w1 ?_ h.1,
              fun e he t het => ?_⟩⟩
            · rw [w2]
              simpa [present] using hp
            · rcases mem_insertDevice he with rfl | he
              · rw [w3] at het
                exact timing_filter_eq_none.mp ht t het
              · exact h.2 e he t het
  | removeDevice u =>
    exact ⟨_, _, rfl, fun h => ⟨memory_wf_dropDevice _ h.1, fun e he t ht => h.2 e (List.mem_of_mem_filter he) t ht⟩⟩
  | getDevice u => exact ⟨_, _, rfl, id⟩
  | start => exact ⟨_, _, rfl, id⟩
  | stop => exact ⟨_, _, rfl, id⟩
  | getHoldingRegister u a => exact hg _ _ _
  | getInputRegister u a => exact hg _ _ _
  | getCoil u a => exact hgb _ _ _
  | getDiscreteInput u a => exact hgb _ _ _
  | setHoldingRegister u a v => exact hs _ _ _ _
  | setInputRegister u a v => exact hs _ _ _ _
  | setCoil u a v => exact hsb _ _ _ _
  | setDiscreteInput u a v => exact hsb _ _ _ _

end Sys2Proof.Laws
end

