-- ==== Sys2Proof/Laws/PerInstr.lean ====
section
/-!
SUPPORT. One statement for every instruction as syntax, a lemma per constructor: the layout of its frame (R81, R82, R83,
R87): the unit id and the function code first, then the address high byte first, and never less than its function's
minimum length (R95).
-/

namespace Sys2Proof.Laws.Layout

open Sys2Proof

/-- The header, the address field and the minimum length of an instruction's frame. -/
def Statement (i : Instr) : Prop :=
  (encode i).take 4 = [i.unit, i.fn.code, hi8 i.addr, lo8 i.addr] ∧ i.fn.minLength ≤ (encode i).length

theorem readCoils (u : Byte) (a c : Word16) (x : Frame) : Statement (.readCoils u a c x) :=
  ⟨rfl, by simp [encode, encodeRq6, Fn.minLength, Instr.fn]⟩
theorem readDiscreteInputs (u : Byte) (a c : Word16) (x : Frame) : Statement (.readDiscreteInputs u a c x) :=
  ⟨rfl, by simp [encode, encodeRq6, Fn.minLength, Instr.fn]⟩
theorem readHoldingRegisters (u : Byte) (a c : Word16) (x : Frame) : Statement (.readHoldingRegisters u a c x) :=
  ⟨rfl, by simp [encode, encodeRq6, Fn.minLength, Instr.fn]⟩
theorem readInputRegisters (u : Byte) (a c : Word16) (x : Frame) : Statement (.readInputRegisters u a c x) :=
  ⟨rfl, by simp [encode, encodeRq6, Fn.minLength, Instr.fn]⟩
theorem writeSingleCoil (u : Byte) (a v : Word16) (x : Frame) : Statement (.writeSingleCoil u a v x) :=
  ⟨rfl, by simp [encode, encodeRq6, Fn.minLength, Instr.fn]⟩
theorem writeSingleRegister (u : Byte) (a v : Word16) (x : Frame) : Statement (.writeSingleRegister u a v x) :=
  ⟨rfl, by simp [encode, encodeRq6, Fn.minLength, Instr.fn]⟩
theorem writeMultipleCoils (u : Byte) (a c : Word16) (n : Byte) (p : Frame) : Statement (.writeMultipleCoils u a c n p) :=
  ⟨rfl, by simp [encode, encodeRqm, Fn.minLength, Instr.fn]⟩
theorem writeMultipleRegisters (u : Byte) (a c : Word16) (n : Byte) (p : Frame) : Statement (.writeMultipleRegisters u a c n p) :=
  ⟨rfl, by simp [encode, encodeRqm, Fn.minLength, Instr.fn]⟩

end Sys2Proof.Laws.Layout
end

