-- ==== Sys2Proof/Laws/Program.lean ====
section
/-!
SUPPORT. Laws of a program's end (R17) and of the timer's own moves (R309).
-/

namespace Sys2Proof.Laws

open Sys2Proof Sys2Proof.Machine Sys2Proof.Safety

theorem finished_iff {s : State} : Finished s = true ↔
    s.busy = false ∧ s.requests = [] ∧ ∀ t ∈ s.turns, ProgramTurn t = false := by
  simp [Finished, and_assoc]

theorem endState_eq_some {s : State} {m : Memory} :
    endState s = some m ↔ Finished s = true ∧ s.memory = m := by
  simp [endState]

/-- A program that has ended stays ended: the end state is kept, no result is added, and the only thing that still happens
is that responses are taken (R17). -/
theorem step_of_finished {s t : State} (hf : Finished s = true) (h : step s = .next t) :
    Finished t = true ∧ t.memory = s.memory ∧ t.run = s.run ∧ t.results = s.results ∧
      (t.responses = s.responses ∨ t.responses = s.responses.tail) := by
  obtain ⟨hb, hr, ht⟩ := finished_iff.mp hf
  cases hts : s.turns with
  | nil =>
    simp only [step, hts, ownTurn, hb, takeTurn, dispatchTurn, hr, Bool.not_false, Bool.and_true, ite_self,
      Bool.false_eq_true, if_false, Host.Outcome.next.injEq] at h
    subst h
    exact ⟨hf, rfl, rfl, rfl, .inl rfl⟩
  | cons tr ts =>
    rw [hts] at ht
    have hp := ht tr (by simp)
    have hq : ∀ t ∈ ts, ProgramTurn t = false := fun t h => ht t (by simp [h])
    cases tr <;> simp [ProgramTurn] at hp <;>
      simp [step, hts, takeTurn, dispatchTurn, clockTurn, timerTurn, hb, hr] at h <;> subst h <;>
      exact ⟨finished_iff.mpr ⟨rfl, rfl, hq⟩, rfl, rfl, rfl, by simp⟩

/-- What the timer's move does: it presents a response whose wait has reached `DUE`, and nothing else (R309). -/
theorem timerTurn_cases (s : State) :
    (s.busy = true ∧ s.due.value ≤ s.waited.value ∧ timerTurn s = presentResponse s) ∨
    ((s.busy = false ∨ s.waited.value < s.due.value) ∧ timerTurn s = s) := by
  unfold timerTurn
  cases hb : s.busy
  · simp
  · by_cases h : s.due.value ≤ s.waited.value
    · simp [h, (le_iff _ _).mpr h]
    · simp [(le_eq_false_iff _ _).mpr (not_le.mp h), not_le.mp h]

/-- What the clock's move does: only the running wait of a pending response moves, by an amount that is not negative
(R309, R310). -/
theorem clockTurn_eq (ms : RealNum) (s : State) :
    ∃ w, clockTurn ms s = { s with waited := w } ∧
      w.value = s.waited.value + if s.busy then max 0 ms.value else 0 := by
  unfold clockTurn
  by_cases hb : s.busy = true
  swap
  · exact ⟨s.waited, if_neg (by simp [hb]), by simp [hb]⟩
  · by_cases h : 0 ≤ ms.value
    · refine ⟨RealNum.plus s.waited ms, ?_, by simp [hb, h]⟩
      simp [hb, (le_iff (.rat 0) ms).mpr (by simpa using h)]
    · refine ⟨s.waited, ?_, by simp [max_eq_left (not_le.mp h).le]⟩
      simp [(le_eq_false_iff (.rat 0) ms).mpr (by simpa using h)]

end Sys2Proof.Laws
end

