-- ==== Sys2Proof/Tests/Slice0.lean ====
section
/-!
SUPPORT. The model's own tests: ill-formed terms, words written out from the encodings of 30_encoding.md, vectors of
95_test_vectors.md (each named by its id), and for every obligation with hypotheses a state and operands that meet them.
-/

namespace Sys2Proof.Tests

open Sys2Proof Sys2Proof.Machine Sys2Proof.Safety

/-! ## WellFormed refuses, one term per check -/

theorem test_wellFormed_refuses_extra_byte :
    WellFormed (.readCoils 1 0 1 [0x00]) = false ∧ WellFormed (.readDiscreteInputs 1 0 1 [0x00]) = false ∧
    WellFormed (.readHoldingRegisters 1 0 1 [0x00]) = false ∧ WellFormed (.readInputRegisters 1 0 1 [0x00]) = false ∧
    WellFormed (.writeSingleCoil 1 0 0xFF00 [0x00]) = false ∧ WellFormed (.writeSingleRegister 1 0 1 [0x00]) = false := by
  decide

theorem test_wellFormed_refuses_bad_sentinel : WellFormed (.writeSingleCoil 1 0 0x0001 []) = false := by decide

theorem test_wellFormed_refuses_payload_length :
    WellFormed (.writeMultipleCoils 1 0 9 2 [0xFF]) = false ∧
    WellFormed (.writeMultipleRegisters 1 0 1 2 [0x00]) = false := by decide

theorem test_wellFormed_refuses_byte_count :
    WellFormed (.writeMultipleCoils 1 0 9 1 [0xFF]) = false ∧
    WellFormed (.writeMultipleRegisters 1 0 2 2 [0x00, 0x05]) = false := by decide

theorem test_wellFormed_accepts :
    WellFormed (.writeSingleCoil 1 0 0xFF00 []) = true ∧ WellFormed (.writeMultipleCoils 1 0 9 2 [0xFF, 0x80]) = true ∧
    WellFormed (.writeMultipleRegisters 1 0 1 2 [0x00, 0x05]) = true ∧
    WellFormed (.writeMultipleRegisters 1 0 0 0 []) = true := by decide

/-! ## Decoding, bit by bit from the encodings (R81 to R83, R93) -/

theorem test_decode_readCoils :
    decode [0b00000001, 0b00000001, 0b00000000, 0b00010011, 0b00000001, 0b00000100] =
      .instr (.readCoils 1 19 260 []) := by decide

theorem test_decode_readDiscreteInputs :
    decode [0b00010001, 0b00000010, 0b00000001, 0b00000010, 0b00000000, 0b00001010] =
      .instr (.readDiscreteInputs 17 258 10 []) := by decide

theorem test_decode_readHoldingRegisters :
    decode [0b00000001, 0b00000011, 0b11111111, 0b11111111, 0b00000000, 0b00000010, 0b11111111] =
      .instr (.readHoldingRegisters 1 65535 2 [0xFF]) := by decide

theorem test_decode_readInputRegisters :
    decode [0b00000001, 0b00000100, 0b00000000, 0b00001000, 0b10000000, 0b00000010] =
      .instr (.readInputRegisters 1 8 32770 []) := by decide

theorem test_decode_writeSingleCoil :
    decode [0b00000001, 0b00000101, 0b00000000, 0b10101100, 0b11111111, 0b00000000] =
      .instr (.writeSingleCoil 1 172 0xFF00 []) := by decide

theorem test_decode_writeSingleRegister :
    decode [0b11110111, 0b00000110, 0b00000000, 0b00000001, 0b00010010, 0b00110100] =
      .instr (.writeSingleRegister 247 1 0x1234 []) := by decide

theorem test_decode_writeMultipleCoils :
    decode [0b00000001, 0b00001111, 0b00000000, 0b00010011, 0b00000000, 0b00001010, 0b00000010, 0b10110011, 0b10000000] =
      .instr (.writeMultipleCoils 1 19 10 2 [0xB3, 0x80]) := by decide

theorem test_decode_writeMultipleRegisters :
    decode [0b00000001, 0b00010000, 0b00000000, 0b00000111, 0b00000000, 0b00000001, 0b00000010, 0b00000001, 0b11110100] =
      .instr (.writeMultipleRegisters 1 7 1 2 [0x01, 0xF4]) := by decide

theorem test_decode_rejects :
    decode [] = .rejected (.noFunctionCode 0) ∧ decode [0x11] = .rejected (.noFunctionCode 0x11) ∧
    decode [0x01, 0x99] = .rejected (.unknownFunction 0x01 0x99) ∧
    decode [0x01, 0x03, 0x00, 0x00, 0x00] = .rejected (.belowMinimum 0x01 0x03) ∧
    decode [0x01, 0x10, 0x00, 0x00, 0x00, 0x00] = .rejected (.belowMinimum 0x01 0x10) := by decide

/-- Opcode-table words: the function code alone, and the frame with its byte 0 lowest. -/
theorem test_decodeTableWord :
    decodeTableWord 8 0x01 = some (.readCoils 0 0 0 []) ∧ decodeTableWord 8 0x10 = some (.writeMultipleRegisters 0 0 0 0 []) ∧
    decodeTableWord 48 0x010000000301 = some (.readHoldingRegisters 1 0 1 []) ∧ decodeTableWord 8 0x07 = none := by decide

/-! ## States -/

/-- Start state A of 95_test_vectors.md, part 2. -/
def stateA : State :=
  { State.reset with
    run := true
    memory :=
      [ { unitId := 1, holding := [(0, 230), (1, 65535), (65535, 43981)], input := [(8, 4660)],
          coils := [(19, true), (21, true), (22, true), (65535, true)], discrete := [(0, true), (9, true)],
          timing := none },
        { unitId := 17, holding := [], input := [], coils := [], discrete := [], timing := none } ] }

/-- State A with parameters. -/
def stateP (p : Params) : State := { stateA with params := p }

/-- State A with unit 17 under a timing configuration. -/
def stateT : State :=
  { stateA with memory := stateA.memory.map fun d => if d.unitId = 17 then { d with timing := some TimingConfig.empty } else d }

/-- State A while a response waits for `due`. -/
def stateBusy (due : RealNum) : State := { stateA with busy := true, pending := some [0x01, 0x83, 0x03], due := due }

/-- The next state, if the outcome is one. -/
def after : Host.Outcome State Fault Refusal → Option State
  | .next t => some t
  | .fault _ => none
  | .refused _ => none

/-- Whether the outcome is a next state. -/
def isNext (o : Host.Outcome State Fault Refusal) : Bool := (after o).isSome

/-- What one step of the dispatcher leaves in `PENDING` for a frame on the channel. -/
noncomputable def answer (s : State) (f : Frame) : Option (Option Frame) :=
  (after (step { s with requests := [f], turns := [.dispatch] })).map State.pending

/-- What a request leaves in memory. -/
def memoryAfter (s : State) (f : Frame) : Memory :=
  ((after (dispatchFrame f s)).map State.memory).getD []

theorem test_reset_memory_wf : State.reset.memory.wf = true := by decide
theorem test_stateA_memory_wf : stateA.memory.wf = true := by decide

/-! ## Vectors of 95_test_vectors.md -/

theorem test_readCoils_V_R1_V_R11 :
    answer stateA [0x01, 0x01, 0x00, 0x13, 0x00, 0x04] = some (some [0x01, 0x01, 0x01, 0xB0]) ∧
    answer stateA [0x01, 0x01, 0xFF, 0xFF, 0x00, 0x03] = some (some [0x01, 0x01, 0x01, 0x80]) := by decide

theorem test_readCoils_V_RL1 :
    answer (stateP { Params.default with coilMsbFirst := false }) [0x01, 0x01, 0x00, 0x13, 0x00, 0x04] =
      some (some [0x01, 0x01, 0x01, 0x0D]) := by decide

theorem test_readDiscreteInputs_V_R3_V_R19 :
    answer stateA [0x01, 0x02, 0x00, 0x00, 0x00, 0x0A] = some (some [0x01, 0x02, 0x02, 0x80, 0x40]) ∧
    answer stateA [0x01, 0x02, 0x00] = some (some [0x01, 0x82, 0x03]) := by decide

theorem test_readHoldingRegisters_V_R5_V_R10 :
    answer stateA [0x01, 0x03, 0x00, 0x00, 0x00, 0x03] =
      some (some [0x01, 0x03, 0x06, 0x00, 0xE6, 0xFF, 0xFF, 0x00, 0x00]) ∧
    answer stateA [0x01, 0x03, 0xFF, 0xFF, 0x00, 0x02] = some (some [0x01, 0x03, 0x04, 0xAB, 0xCD, 0x00, 0x00]) := by
  decide

theorem test_readHoldingRegisters_V_R14 :
    ((answer stateA [0x01, 0x03, 0x00, 0x00, 0x00, 0xC8]).map fun r => r.map fun f => (f.length, f.getD 2 0)) =
      some (some (403, 0x90)) := by decide +kernel

theorem test_readInputRegisters_V_R6_V_R7 :
    answer stateA [0x01, 0x04, 0x00, 0x08, 0x00, 0x02] = some (some [0x01, 0x04, 0x04, 0x12, 0x34, 0x00, 0x00]) ∧
    answer stateA [0x01, 0x04, 0x00, 0x00, 0x00, 0x01] = some (some [0x01, 0x04, 0x02, 0x00, 0x00]) := by decide

theorem test_writeSingleCoil_V_W2_V_W6 :
    answer stateA [0x01, 0x05, 0x00, 0x13, 0x00, 0x00] = some (some [0x01, 0x05, 0x00, 0x13, 0x00, 0x00]) ∧
    readBit (memoryAfter stateA [0x01, 0x05, 0x00, 0x13, 0x00, 0x00]) 1 .CO 19 = false ∧
    answer stateA [0x01, 0x05, 0x00, 0xAC, 0xFF, 0xFF] = some (some [0x01, 0x85, 0x03]) := by decide

theorem test_writeSingleCoil_V_W8 :
    answer stateA [0x01, 0x05, 0x00, 0xAC, 0xFF, 0x00, 0xAA] = some (some [0x01, 0x05, 0x00, 0xAC, 0xFF, 0x00]) ∧
    readBit (memoryAfter stateA [0x01, 0x05, 0x00, 0xAC, 0xFF, 0x00, 0xAA]) 1 .CO 172 = true := by decide

theorem test_writeSingleRegister_V_W13 :
    answer stateA [0x01, 0x06, 0xFF, 0xFF, 0xFF, 0xFF] = some (some [0x01, 0x06, 0xFF, 0xFF, 0xFF, 0xFF]) ∧
    readReg (memoryAfter stateA [0x01, 0x06, 0xFF, 0xFF, 0xFF, 0xFF]) 1 .HR 65535 = 65535 := by decide

theorem test_writeSingleRegister_V_W35 :
    answer stateA [0x11, 0x06, 0x00, 0x00, 0x12, 0x34] = some (some [0x11, 0x06, 0x00, 0x00, 0x12, 0x34]) ∧
    readReg (memoryAfter stateA [0x11, 0x06, 0x00, 0x00, 0x12, 0x34]) 17 .HR 0 = 4660 ∧
    readReg (memoryAfter stateA [0x11, 0x06, 0x00, 0x00, 0x12, 0x34]) 1 .HR 0 = 230 := by decide

theorem test_writeMultipleCoils_V_W25 :
    answer stateA [0x01, 0x0F, 0x00, 0x13, 0x00, 0x0A, 0x02, 0xB3, 0x80] =
      some (some [0x01, 0x0F, 0x00, 0x13, 0x00, 0x0A]) ∧
    (readBits (memoryAfter stateA [0x01, 0x0F, 0x00, 0x13, 0x00, 0x0A, 0x02, 0xB3, 0x80]) 1 .CO 19 10) =
      [true, false, true, true, false, false, true, true, true, false] := by decide

theorem test_writeMultipleCoils_V_W33 :
    answer stateA [0x01, 0x0F, 0xFF, 0xFF, 0x00, 0x02, 0x01, 0x40] = some (some [0x01, 0x8F, 0x03]) ∧
    readBit (memoryAfter stateA [0x01, 0x0F, 0xFF, 0xFF, 0x00, 0x02, 0x01, 0x40]) 1 .CO 65535 = false := by decide

theorem test_writeMultipleRegisters_V_W15 :
    answer stateA [0x01, 0x10, 0x00, 0x00, 0x00, 0x03, 0x06, 0x01, 0xF4, 0x00, 0x64, 0x00, 0xC8] =
      some (some [0x01, 0x10, 0x00, 0x00, 0x00, 0x03]) ∧
    readRegs (memoryAfter stateA [0x01, 0x10, 0x00, 0x00, 0x00, 0x03, 0x06, 0x01, 0xF4, 0x00, 0x64, 0x00, 0xC8]) 1 .HR 0 3 =
      [500, 100, 200] := by decide

theorem test_writeMultipleRegisters_V_W23 :
    answer stateA [0x01, 0x10, 0xFF, 0xFE, 0x00, 0x03, 0x06, 0x00, 0x0A, 0x00, 0x0B, 0x00, 0x0C] =
      some (some [0x01, 0x90, 0x03]) ∧
    readRegs (memoryAfter stateA
      [0x01, 0x10, 0xFF, 0xFE, 0x00, 0x03, 0x06, 0x00, 0x0A, 0x00, 0x0B, 0x00, 0x0C]) 1 .HR 65534 2 = [10, 11] := by decide

theorem test_dispatch_order_V_D1_to_V_D5_S6 :
    answer stateA [] = some (some [0x00, 0x80, 0x03]) ∧ answer stateA [0x05] = some (some [0x05, 0x80, 0x03]) ∧
    answer stateA [0x05, 0x03] = some (some [0x05, 0x83, 0x0B]) ∧ answer stateA [0x01, 0x99] = some (some [0x01, 0x99, 0x01]) := by
  decide

theorem test_crc_check_value : crc16 [0x31, 0x32, 0x33, 0x34, 0x35, 0x36, 0x37, 0x38, 0x39] = 0x4B37 := by decide +kernel

/-- V-KS1, V-KS2 and V-KS8: a good frame answered, a short one answered, a bad one dropped. -/
theorem test_crc_stage :
    answer (stateP { Params.default with crcEnable := true }) [0x01, 0x03, 0x00, 0x00, 0x00, 0x01, 0x84, 0x0A] =
      some (some [0x01, 0x03, 0x02, 0x00, 0xE6, 0x39, 0xCE]) ∧
    answer (stateP { Params.default with crcEnable := true }) [0xFF, 0xFF] = some (some [0x00, 0x80, 0x03, 0x50, 0x01]) ∧
    answer (stateP { Params.default with crcEnable := true }) [0x01, 0x03, 0x00, 0x00, 0x00, 0x01, 0x84, 0x0B] =
      some none := by decide +kernel

/-- With a finite `MAX_FRAME_BYTES`: a request over it and a response over it are refused by name (R342, R147). -/
theorem test_max_frame_bytes :
    isNext (step { stateP { Params.default with maxFrameBytes := some 5 } with
      requests := [[0x01, 0x03, 0x00, 0x00, 0x00, 0x01]] }) = false ∧
    isNext (exec (.readHoldingRegisters 1 0 2 []) (stateP { Params.default with maxFrameBytes := some 6 })) = false ∧
    isNext (exec (.readHoldingRegisters 1 0 2 []) (stateP { Params.default with maxFrameBytes := some 7 })) = true := by
  decide

/-- The probe of an opcode-table word, as the first instruction after reset: no unit is registered, so the answer is 0x0B. -/
theorem test_withFetchWord :
    (after (step (State.reset.withFetchWord 8 0x03))).map State.pending = some (some [0x00, 0x83, 0x0B]) ∧
    (after (step (State.reset.withFetchWord 8 0x10))).map State.pending = some (some [0x00, 0x90, 0x0B]) := by decide

/-! ## Witnesses: states and operands that meet the hypotheses of each obligation, clause by clause -/

theorem test_witness_DecodeAndEncodeAgree :
    decode [0x01, 0x03, 0xFF, 0xFF, 0x00, 0x02, 0xAA] = .instr (.readHoldingRegisters 1 65535 2 [0xAA]) := by decide

theorem test_witness_DecodeAcceptsExactly :
    (0x06#8 ∈ rq6Codes ∧ 6 ≤ ([0x01, 0x06, 0, 0, 0, 0] : Frame).length) ∧
    (0x10#8 ∈ rqmCodes ∧ 7 ≤ ([0x01, 0x10, 0, 0, 0, 0, 0] : Frame).length) := by decide

theorem test_witness_StepRunsDecodedInstruction :
    let f : Frame := [0x01, 0x03, 0x00, 0x00, 0x00, 0x01]
    stateA.run = true ∧ stateA.busy = false ∧ stateA.turns = [] ∧ fitsChannel stateA.params f.length = true ∧
      frameIn stateA.params f = some f ∧ decode f = .instr (.readHoldingRegisters 1 0 1 []) := by decide

theorem test_witness_FetchWordRunsItsInstruction :
    decodeTableWord 8 0x0F = some (.writeMultipleCoils 0 0 0 0 []) ∧
    fitsChannel stateA.params (channelLength stateA.params (tableFrame 8 0x0F).length) = true := by decide

theorem test_witness_ShortFrameAnswered : ([] : Frame).length < 2 ∧ ([0x11] : Frame).length < 2 := by decide

theorem test_witness_UnregisteredUnitAnswered :
    present stateA.memory ((5 : Byte).toNat : Int) = false ∧ stateA.memory.wf = true ∧
    248 ≤ (248 : Byte).toNat ∧ 248 ≤ (255 : Byte).toNat := by decide

theorem test_witness_UnknownFunctionAnswered :
    present stateA.memory ((1 : Byte).toNat : Int) = true ∧ (0x00#8 ∉ rq6Codes ∧ 0x00#8 ∉ rqmCodes) ∧
    (0x07#8 ∉ rq6Codes ∧ 0x07#8 ∉ rqmCodes) ∧ (0x11#8 ∉ rq6Codes ∧ 0x11#8 ∉ rqmCodes) := by decide

theorem test_witness_ShortForFunctionAnswered :
    present stateA.memory ((1 : Byte).toNat : Int) = true ∧
    (0x06#8 ∈ rq6Codes ∧ ([0, 0, 0] : Frame).length + 2 < 6) ∧
    (0x0F#8 ∈ rqmCodes ∧ ([0, 0, 0, 0] : Frame).length + 2 < 7) := by decide

theorem test_witness_DispatchIsTotal : State.reset.params.maxFrameBytes = none := by decide

theorem test_witness_ResponseEchoesHeader :
    isNext (dispatchFrame [] stateA) = true ∧ isNext (dispatchFrame [0x01, 0x03, 0, 0, 0, 1] stateA) = true := by decide

theorem test_witness_ExceptionCodesHaveTheirCauses :
    isNext (dispatchFrame [0x01, 0x2B] stateA) = true ∧ isNext (dispatchFrame [0x00, 0x03] stateA) = true ∧
    isNext (dispatchFrame [0x01, 0x05, 0, 0, 0, 1] stateA) = true ∧ stateA.memory.wf = true ∧
    isNext (dispatchFrame [] stateA) = true ∧ ([] : Frame).length < 2 := by decide

theorem test_witness_ReadBitsResult :
    present stateA.memory ((1 : Byte).toNat : Int) = true ∧ ([0, 0, 0] : Frame).length < 4 ∧
    HasRoom (stateP { Params.default with maxFrameBytes := some 5 }).params (.readCoils 1 0xFFFF 9 []) = true ∧
    HasRoom (stateP { Params.default with maxFrameBytes := some 5 }).params (.readDiscreteInputs 1 0 16 [0x00]) = true := by
  decide

theorem test_witness_ReadRegistersResult :
    present stateA.memory ((17 : Byte).toNat : Int) = true ∧ ([0, 0, 0] : Frame).length < 4 ∧
    HasRoom (stateP { Params.default with maxFrameBytes := some 7 }).params (.readHoldingRegisters 17 0xFFFF 2 []) = true ∧
    HasRoom stateA.params (.readInputRegisters 17 0 0xFFFF []) = true := by decide

theorem test_witness_ZeroCountReadAnswered :
    present stateA.memory ((1 : Byte).toNat : Int) = true ∧
    HasRoom (stateP { Params.default with maxFrameBytes := some 3 }).params (.readCoils 1 0 0 []) = true := by decide

theorem test_witness_ReadPastTopReadsUnset :
    65536 < (0xFFFF#16).toNat + (2#16).toNat ∧ present stateA.memory ((1 : Byte).toNat : Int) = true ∧
    HasRoom stateA.params (.readInputRegisters 1 0xFFFF 2 []) = true ∧
    HasRoom stateA.params (.readCoils 1 0xFFFF 2 []) = true ∧ 65535 < (0xFFFF#16).toNat + 1 := by decide

theorem test_witness_WriteSingleCoilBadValue :
    (0xFF01#16 ≠ 0xFF00 ∧ 0xFF01#16 ≠ 0x0000) ∧ (0x0001#16 ≠ 0xFF00 ∧ 0x0001#16 ≠ 0x0000) ∧
    present stateA.memory ((1 : Byte).toNat : Int) = true := by decide

/-- Also of `WriteSingleCoilResult`, `WriteSingleRegisterResult`, `WriteThenReadRegisters` and `WriteThenReadCoils`. -/
theorem test_witness_WriteMultipleResults :
    stateA.memory.wf = true ∧ present stateA.memory ((1 : Byte).toNat : Int) = true ∧
    ((2 : Byte).toNat = ([0x12, 0x34] : Frame).length ∧ (2 : Byte).toNat = 2 * (1#16).toNat ∧
      (0xFFFF#16).toNat + (1#16).toNat ≤ 65536) ∧
    ((2 : Byte).toNat = ([0xB3, 0x80] : Frame).length ∧ (2 : Byte).toNat = ceilDiv (10#16).toNat 8 ∧
      (0xFFF6#16).toNat + (10#16).toNat ≤ 65536) := by decide

theorem test_witness_WriteThenRead :
    HasRoom stateA.params (.readHoldingRegisters 1 0xFFFF 1 []) = true ∧
    isNext (exec (.writeMultipleRegisters 1 0xFFFF 1 2 [0x12, 0x34]) stateA) = true ∧
    HasRoom stateA.params (.readCoils 1 0xFFFE 2 []) = true ∧
    isNext (exec (.writeMultipleCoils 1 0xFFFE 2 1 (packBits true [true, false])) stateA) = true := by decide

theorem test_witness_MultipleWriteChecks :
    present stateA.memory ((1 : Byte).toNat : Int) = true ∧ ([0, 0, 0, 0] : Frame).length + 2 < 7 ∧
    (2 : Byte).toNat ≠ ([0x00] : Frame).length ∧ (2 : Byte).toNat ≠ 2 * (2#16).toNat ∧ (1 : Byte).toNat % 2 = 1 ∧
    127 < (128#16).toNat ∧ (1 : Byte).toNat ≠ ceilDiv (9#16).toNat 8 ∧ 2040 < (2041#16).toNat := by decide

theorem test_witness_WriteAcrossTop :
    stateA.memory.wf = true ∧ present stateA.memory ((1 : Byte).toNat : Int) = true ∧
    65536 < (0xFFFF#16).toNat + (2#16).toNat ∧ (0xFFFF#16).toNat + 0 ≤ 65535 ∧
    (4 : Byte).toNat = ([0, 1, 0, 2] : Frame).length ∧ (4 : Byte).toNat = 2 * (2#16).toNat ∧
    (1 : Byte).toNat = ([0xC0] : Frame).length ∧ (1 : Byte).toNat = ceilDiv (2#16).toNat 8 ∧
    stateA.params.multiWritePrecheck = false ∧
    (stateP { Params.default with multiWritePrecheck := true }).params.multiWritePrecheck = true := by decide

theorem test_witness_PadBitsAndZeroCounts :
    ([0x80] : Frame).length = ([0xFF] : Frame).length ∧
    (∀ k < (1#16).toNat, coilBit stateA.params.coilMsbFirst [0x80] k = coilBit stateA.params.coilMsbFirst [0xFF] k) ∧
    present stateA.memory ((1 : Byte).toNat : Int) = true := by decide

theorem test_witness_WritesKeepTheirFrame :
    (IsRead (.writeSingleRegister 1 0 5 []) = false ∧ IsRegWrite (.writeSingleRegister 1 0 5 []) = true ∧
      isNext (exec (.writeSingleRegister 1 0 5 []) stateA) = true) ∧
    (IsRead (.writeSingleCoil 1 0 5 []) = false ∧ IsCoilWrite (.writeSingleCoil 1 0 5 []) = true ∧
      (after (exec (.writeSingleCoil 1 0 5 []) stateA)).map State.pending =
        some (some (frameOut stateA.params [1, 0x05 ||| 0x80, 0x03]))) := by decide

/-- The clauses for writes of `ExecKeepsItsFrame`: a coil write and a register write that complete. -/
theorem test_witness_ExecKeepsItsFrame :
    isNext (exec (.writeSingleCoil 1 0 0xFF00 []) stateA) = true ∧ IsCoilWrite (.writeSingleCoil 1 0 0xFF00 []) = true ∧
    isNext (exec (.writeSingleRegister 1 0 5 []) stateA) = true ∧ IsRegWrite (.writeSingleRegister 1 0 5 []) = true ∧
    isNext (exec (.readCoils 1 0 1 []) stateA) = true ∧ IsRead (.readCoils 1 0 1 []) = true := by decide

/-- Two states that differ in unit 1 only, and a request to unit 17. -/
theorem test_witness_AnswerDependsOnlyOnItsUnit :
    let s' : State := { stateA with memory := stateA.memory.drop 1 }
    s'.params = stateA.params ∧ s'.draws = stateA.draws ∧ s'.memory ≠ stateA.memory ∧
      findDevice s'.memory 17 = findDevice stateA.memory 17 ∧
      isNext (exec (.writeSingleRegister 17 0 5 []) stateA) = true := by decide

theorem test_witness_RepeatedRequestChangesNothing :
    stateA.memory.wf = true ∧
    ((after (exec (.writeSingleCoil 1 0 0xFF00 []) stateA)).map fun t =>
      isNext (exec (.writeSingleCoil 1 0 0xFF00 []) (presentResponse t))) = some true := by decide

theorem test_witness_StepKeepsInvariant : Inv stateA ∧ isNext (step stateA) = true ∧ Inv (stateBusy (.rat 5)) := by
  refine ⟨⟨by decide, ?_, rfl, fun _ => ⟨rfl, rfl⟩, by simp [stateA, State.reset, State.resetWith],
    by simp [stateA, State.reset, State.resetWith]⟩, by decide,
    ⟨by decide, ?_, rfl, by simp [stateBusy], by simp [stateBusy],
      by simp [stateBusy, stateA, State.reset, State.resetWith]⟩⟩ <;>
  · intro d hd t ht
    simp only [stateA, stateBusy, List.mem_cons, List.not_mem_nil, or_false] at hd
    rcases hd with rfl | rfl <;> simp at ht

theorem test_witness_StepKeepsResponsesGood : ResponsesGood (stateBusy (.rat 0)) ∧ isNext (step (stateBusy (.rat 0))) = true := by
  refine ⟨⟨fun w hw => ⟨w, rfl, ?_⟩, ?_⟩, by decide +kernel⟩
  · simp only [stateBusy, Option.some.injEq] at hw
    simp [← hw]
  · simp [stateBusy, stateA, State.reset, State.resetWith]

theorem test_witness_WireCannotReachControlState :
    isNext (step { stateA with turns := [.submit [0x01]] }) = true ∧ WireTurn (.submit [0x01]) = true ∧
    isNext (step { stateA with requests := [[0x01, 0x06, 0, 0, 0, 1]], turns := [.dispatch] }) = true ∧
    WireTurn .dispatch = true := by decide

theorem test_witness_AcceptanceGate :
    State.reset.run = false ∧ (stateBusy (.rat 5)).busy = true ∧ stateA.run = true ∧ stateA.busy = false ∧
    frameIn stateA.params [0x01] = some [0x01] ∧
    isNext (step { stateA with requests := [[0x01]], turns := [.dispatch] }) = true := by decide

theorem test_witness_PendingUntouchedWhileWaiting :
    (stateBusy (.rat 5)).busy = true ∧ isNext (step { stateBusy (.rat 5) with turns := [.dispatch] }) = true ∧
    isNext (step { stateBusy (.rat 5) with turns := [.host .stop] }) = true ∧ Turn.dispatch ≠ .timer ∧ Turn.dispatch ≠ .reset := by
  decide

theorem test_witness_PresentedNoSoonerThanDue :
    (stateBusy (.rat 0)).busy = true ∧
    ((after (step { stateBusy (.rat 0) with turns := [.timer] })).map State.busy) = some false := by decide +kernel

theorem test_witness_ResponsePresentedWithinTwoSteps : (stateBusy (.rat 5)).busy = true ∧ (stateBusy (.rat 5)).turns = [] := by decide

theorem test_witness_RegisterCountOfRequest :
    (0x10#8 ∈ ([0x01, 0x02, 0x03, 0x04, 0x0F, 0x10] : List Byte) ∧ 4 ≤ ([0, 0, 1, 2] : Frame).length) ∧
    ([0, 0, 1] : Frame).length < 4 ∧ (0x07#8 ∉ rq6Codes ∧ 0x07#8 ∉ rqmCodes) ∧ ([0x01] : Frame).length < 2 := by decide

theorem test_witness_DelayWithinItsTerms :
    legalTiming TimingConfig.empty = true ∧
    legalTiming { TimingConfig.empty with
      processingDelay := some (.range (.rat 2) (.rat 4)), transmissionEnable := true,
      baudRate := some (.rat 9600) } = true := by decide +kernel

theorem test_witness_DelayWorkedExample : Params.default.crcEnable = false := by decide

theorem test_witness_DelayAppliesToRegisteredDevices :
    isNext (dispatchFrame [0x01] stateT) = true ∧ isNext (dispatchFrame [0x05, 0x03] stateT) = true ∧
    present stateT.memory 5 = false ∧ isNext (dispatchFrame [0x01, 0x99] stateT) = true ∧
    (findDevice stateT.memory 1).map Device.timing = some none ∧ isNext (dispatchFrame [0x11, 0x03] stateT) = true ∧
    (findDevice stateT.memory 17).map Device.timing = some (some TimingConfig.empty) := by decide

theorem test_witness_BadCrcIsDropped :
    checkStrip [0x01] = none ∧ checkStrip [0xFF, 0xFE] = none ∧ fitsChannel Params.default 1 = true ∧
    stateA.run = true ∧ stateA.busy = false := by decide +kernel

theorem test_witness_CrcResidueIsZero : 2 ≤ ([0xFF, 0xFF] : Frame).length ∧ checkStrip [0xFF, 0xFF] = some [] := by
  decide +kernel

theorem test_witness_CheckStripInvertsAddCrc : checkStrip [0x01, 0x7E, 0x80] = some [0x01] := by decide +kernel

theorem test_witness_HostWritesRegister :
    present stateA.memory ((1 : HostInt).toInt) = true ∧ stateA.memory.wf = true ∧ (-1 : HostInt).toInt < 0 ∧
    65535 < (65536 : HostInt).toInt ∧ 0 ≤ (0 : HostInt).toInt ∧ (65535 : HostInt).toInt ≤ 65535 := by decide

theorem test_witness_HostWritesBit :
    present stateA.memory ((17 : HostInt).toInt) = true ∧ stateA.memory.wf = true ∧ (-1 : HostInt).toInt < 0 ∧
    65535 < (65536 : HostInt).toInt ∧ (65535 : HostInt).toInt ≤ 65535 := by decide

theorem test_witness_HostReadsAndAbsentUnits :
    present stateA.memory ((1 : HostInt).toInt) = true ∧ present stateA.memory ((2 : HostInt).toInt) = false ∧
    (-1 : HostInt).toInt < 0 ∧ 65535 < (65536 : HostInt).toInt := by decide

/-- A configuration for unit 2 with one seeded cell in each bank. -/
def configTwo : DeviceConfig where
  unitId := 2
  holding := [(0, 230)]
  input := [(65535, 65535)]
  coils := [(0, true)]
  discrete := [(9, true)]
  timing := some TimingConfig.empty

theorem test_witness_AddDeviceRefusals :
    ((0 : HostInt).toInt < 1 ∧ 247 < (248 : HostInt).toInt) ∧
    (1 ≤ (1 : HostInt).toInt ∧ present stateA.memory ((1 : HostInt).toInt) = true) ∧
    (1 ≤ configTwo.unitId.toInt ∧ configTwo.unitId.toInt ≤ 247 ∧ present stateA.memory configTwo.unitId.toInt = false) ∧
    legalTiming { TimingConfig.empty with transmissionEnable := true } = false ∧ legalTiming TimingConfig.empty = true ∧
    65535 < (65536 : HostInt).toInt := by decide

theorem test_witness_AddDeviceCreates :
    (1 ≤ configTwo.unitId.toInt ∧ configTwo.unitId.toInt ≤ 247 ∧ present stateA.memory configTwo.unitId.toInt = false) ∧
    legalTiming TimingConfig.empty = true ∧
    (∀ p ∈ configTwo.holding ++ configTwo.input,
      0 ≤ p.1.toInt ∧ p.1.toInt ≤ 65535 ∧ 0 ≤ p.2.toInt ∧ p.2.toInt ≤ 65535) ∧
    (∀ p ∈ configTwo.coils ++ configTwo.discrete, 0 ≤ p.1.toInt ∧ p.1.toInt ≤ 65535) ∧
    (configTwo.holding.map Prod.fst).Nodup ∧ (configTwo.input.map Prod.fst).Nodup ∧
    (configTwo.coils.map Prod.fst).Nodup ∧ (configTwo.discrete.map Prod.fst).Nodup := by
  refine ⟨by decide, by decide, ?_, ?_, ?_, ?_, ?_, ?_⟩ <;> simp [configTwo] <;> decide

theorem test_witness_RemoveDeviceForgets :
    present stateA.memory ((2 : HostInt).toInt) = false ∧ ((17 : Byte).toNat : Int) = (17 : HostInt).toInt := by decide

theorem test_witness_ResetClearsTheBlock : ({ stateA with turns := [.reset] } : State).turns = .reset :: [] := rfl

theorem test_witness_BuilderBuildsTheLayouts :
    2040 < (List.replicate 2041 false).length ∧ (List.replicate 2040 false).length ≤ 2040 ∧
    (List.replicate 255 (0 : Byte)).length % 2 = 1 ∧ 254 < (List.replicate 256 (0 : Byte)).length ∧
    (List.replicate 254 (0 : Byte)).length % 2 = 0 ∧ (List.replicate 254 (0 : Byte)).length ≤ 254 ∧
    buildInstr true 1 (.writeMultipleCoils 0 []) = some (.writeMultipleCoils 1 0 0 0 []) := by
  refine ⟨?_, ?_, ?_, ?_, ?_, ?_, rfl⟩ <;> rw [List.length_replicate] <;> decide

/-- Answers of the parser in the order of its checks (R191 to R194). -/
theorem test_witness_ParserChecksInOrder :
    parseFor (.readHoldingRegisters 1 0 1 []) [0x01, 0x03] = .malformed .short ∧
    parseFor (.readHoldingRegisters 1 0 1 []) [0x02, 0x03, 0x02, 0x00, 0xE6] = .malformed .unit ∧
    parseFor (.readHoldingRegisters 1 0 1 []) [0x01, 0x83, 0x0B] = .modbusException 0x0B ∧
    parseFor (.readHoldingRegisters 1 0 1 []) [0x01, 0x04, 0x02, 0x00, 0xE6] = .malformed .function ∧
    parseFor (.readHoldingRegisters 1 0 1 []) [0x01, 0x03, 0x03, 0x00, 0xE6] = .malformed .bytecount ∧
    parseFor (.readHoldingRegisters 1 0 1 []) [0x01, 0x03, 0x02, 0x00, 0xE6] = .data [0x00, 0xE6] ∧
    parseFor (.writeSingleRegister 1 1 3 []) [0x01, 0x06, 0x00, 0x01, 0x00, 0x04] = .malformed .echo ∧
    parseFor (.writeSingleRegister 1 1 3 []) [0x01, 0x06, 0x00, 0x01, 0x00, 0x03] = .done := by decide

theorem test_witness_ReadRoundTrip :
    present stateA.memory ((1 : Byte).toNat : Int) = true ∧
    HasRoom stateA.params (.readHoldingRegisters 1 0xFFFF 2 []) = true ∧
    HasRoom stateA.params (.readCoils 1 0 9 []) = true := by decide

theorem test_witness_BuiltRequestsNeverMalformed :
    buildInstr true 1 (.writeSingleCoil 172 true) = some (.writeSingleCoil 1 172 0xFF00 []) ∧
    ((after (dispatchFrame (encode (.writeSingleCoil 1 172 0xFF00 [])) stateA)).map fun t => t.pending.isSome) =
      some true := by decide

/-- With `CRC_ENABLE` a bad trailer, a right one, and the frame as it stands without (R210, R219). -/
theorem test_witness_ParserChecksTrailer :
    let p := { Params.default with crcEnable := true }
    parseWire p (.readHoldingRegisters 1 0 1 []) [0x01, 0x03, 0x02, 0x00, 0xE6, 0x00, 0x00] = .malformed .crc ∧
    parseWire p (.readHoldingRegisters 1 0 1 []) (addCrc [0x01, 0x03, 0x02, 0x00, 0xE6]) = .data [0x00, 0xE6] ∧
    parseWire Params.default (.readHoldingRegisters 1 0 1 []) [0x01, 0x03, 0x02, 0x00, 0xE6] = .data [0x00, 0xE6] := by
  decide +kernel

/-- The end of a program (R17): not while a response is pending, a frame waits, or a request or host operation is still to
come; the moves that are left may be the block's and the taking of responses. -/
theorem test_finished :
    Finished { stateA with turns := [.take, .clock (.rat 1)] } = true ∧ endState stateA = some stateA.memory ∧
    Finished (stateBusy (.rat 5)) = false ∧ Finished { stateA with requests := [[0x01]] } = false ∧
    Finished { State.reset with turns := [.submit [0x01, 0x03, 0, 0, 0, 1]] } = false ∧
    Finished { State.reset with turns := [.host .start] } = false := by decide

/-- A setting may be any real number (R307), legal by its value. -/
theorem test_real_setting :
    legalTiming { TimingConfig.empty with perRegisterDelay := some (.real 3) } = true ↔ 0 ≤ Config.freeReal 3 := by
  rw [Laws.legalTiming_iff]
  simp [TimingConfig.empty, RealNum.value]

end Sys2Proof.Tests
end

/-!
The statements about the state (10_state.md). What one move of one agent can do is said once, as `MoveEffect` with the
inversions `takeTurn_effect` and `step_effect`; the statements about a step are derived from that. Those about `exec` are
derived from `exec_next` and what a handler leaves in memory.
-/

namespace Sys2Proof.Proofs

open Sys2Proof Sys2Proof.Machine Sys2Proof.Safety Sys2Proof.Laws

/-- Everything one move can make of a state (R119, R217, R309, R230, R331). -/
inductive MoveEffect (s : State) : Turn → State → Prop
  | submit (f : Frame) : MoveEffect s (.submit f) { s with requests := s.requests ++ [f] }
  | waits : MoveEffect s .dispatch s
  | drop {w : Frame} {rest : List Frame} (hrun : s.run = true) (hbusy : s.busy = false)
      (hq : s.requests = w :: rest) (hf : frameIn s.params w = none) :
      MoveEffect s .dispatch (goIdle { s with requests := rest })
  | accept {w f : Frame} {rest : List Frame} {t : State} (hrun : s.run = true) (hbusy : s.busy = false)
      (hq : s.requests = w :: rest) (hf : frameIn s.params w = some f)
      (ht : dispatchFrame f { s with requests := rest } = .next t) : MoveEffect s .dispatch t
  | clockIdle (ms : RealNum) (hbusy : s.busy = false) : MoveEffect s (.clock ms) s
  | clockBusy (ms w : RealNum) (hbusy : s.busy = true) (hw : w.value = s.waited.value + max 0 ms.value) :
      MoveEffect s (.clock ms) { s with waited := w }
  | notDue (h : s.busy = false ∨ s.waited.value < s.due.value) : MoveEffect s .timer s
  | present (hbusy : s.busy = true) (hdue : s.due.value ≤ s.waited.value) :
      MoveEffect s .timer (presentResponse s)
  | host (op : HostOp) (m : Memory) (run : Bool) (results : List HostResult)
      (hm : MemoryGood s.memory → MemoryGood m) :
      MoveEffect s (.host op) { s with memory := m, run := run, results := results }
  | take : MoveEffect s .take { s with responses := s.responses.tail }
  | reset : MoveEffect s .reset (resetTurn s)

theorem dispatchTurn_effect {s t : State} (h : dispatchTurn s = .next t) : MoveEffect s .dispatch t := by
  rcases dispatchTurn_next h with rfl | ⟨hrun, hbusy, w, rest, hq, ⟨hf, rfl⟩ | ⟨f, hf, ht⟩⟩
  · exact .waits
  · exact .drop hrun hbusy hq hf
  · exact .accept hrun hbusy hq hf ht

theorem clockTurn_effect (ms : RealNum) (s : State) : MoveEffect s (.clock ms) (clockTurn ms s) := by
  cases hbusy : s.busy with
  | false =>
    rw [show clockTurn ms s = s by simp [clockTurn, hbusy]]
    exact .clockIdle ms hbusy
  | true =>
    obtain ⟨w, hs, hw⟩ := clockTurn_eq ms s
    rw [hs]
    exact .clockBusy ms w hbusy (by simpa [hbusy] using hw)

theorem timerTurn_effect (s : State) : MoveEffect s .timer (timerTurn s) := by
  rcases timerTurn_cases s with ⟨hbusy, hdue, hs⟩ | ⟨hnot, hs⟩ <;> rw [hs]
  · exact .present hbusy hdue
  · exact .notDue hnot

theorem runHostOp_effect (op : HostOp) (s : State) : MoveEffect s (.host op) (runHostOp op s) := by
  obtain ⟨m, run, hs, hm⟩ := hostOp_frame op s
  rw [show runHostOp op s = { s with
      memory := m, run := run, results := s.results ++ [(hostOp op s).2] } by simp [runHostOp, hs]]
  exact .host op m run _ hm

theorem takeTurn_effect {tr : Turn} {s t : State} (h : takeTurn tr s = .next t) : MoveEffect s tr t := by
  cases tr with
  | dispatch => exact dispatchTurn_effect h
  | submit f => cases h; exact .submit f
  | clock ms => cases h; exact clockTurn_effect ms s
  | timer => cases h; exact timerTurn_effect s
  | host op => cases h; exact runHostOp_effect op s
  | take => cases h; exact .take
  | reset => cases h; exact .reset

/-- A step is the effect of one move, the first of the list or the block's own. -/
theorem step_effect {s t : State} (h : step s = .next t) : ∃ tr ts, MoveEffect { s with turns := ts } tr t ∧
    (s.turns = tr :: ts ∨ (s.turns = [] ∧ ts = [] ∧ tr = ownTurn s)) := by
  obtain ⟨tr, ts, ht, hwho⟩ := step_turn h
  exact ⟨tr, ts, takeTurn_effect ht, hwho⟩

/-! ## The invariant of the block -/

theorem memoryGood_of_inv {s : State} (h : Inv s) : MemoryGood s.memory := ⟨h.memory_wf, h.timing_legal⟩

/-- An idle block over good memory meets the invariant (R132). -/
theorem inv_of_idle {t : State} (hm : MemoryGood t.memory) (hbusy : t.busy = false) (hpending : t.pending = none)
    (hdue : t.due = .rat 0) (hwaited : t.waited = .rat 0) : Inv t where
  memory_wf := hm.1
  timing_legal := hm.2
  busy_pending := by simp [hbusy, hpending]
  idle _ := ⟨hdue, hwaited⟩
  due_nonneg := by simp [hdue]
  waited_nonneg := by simp [hwaited]

/-- A response to a request meets the invariant when the memory is good and the timing that applies is legal (R301). -/
theorem inv_respond {s : State} {tm : Option TimingConfig} (hm : MemoryGood s.memory)
    (htm : ∀ t, tm = some t → legalTiming t = true) (f r : Frame) : Inv (respond s tm f r) where
  memory_wf := hm.1
  timing_legal := hm.2
  busy_pending := rfl
  idle h := by simp at h
  due_nonneg := dueFor_nonneg htm s.params f s.draws
  waited_nonneg := by simp

/-- The dispatcher's answer meets the invariant, whatever the frame (R120). -/
theorem dispatchFrame_inv {f : Frame} {s t : State} (h : dispatchFrame f s = .next t) (hm : MemoryGood s.memory) :
    Inv t ∧ t.params = s.params := by
  obtain ⟨m, tm, f', r, rfl, -, htm, -, -, htiming, hwf⟩ := dispatchFrame_shape h
  have hm' : MemoryGood m := memoryGood_of_timing hm (hwf _ hm.1) htiming
  refine ⟨inv_respond hm' (fun tc htc => ?_) f' r, rfl⟩
  rcases htm with rfl | ⟨d, u, hd, rfl⟩
  · cases htc
  · exact hm.2 d (mem_of_findDevice hd) tc htc

/-- Every move keeps the invariant and the parameters, whoever makes it. -/
theorem moveEffect_inv {s t : State} {tr : Turn} (hs : Inv s) (h : MoveEffect s tr t) :
    Inv t ∧ t.params = s.params := by
  have hm := memoryGood_of_inv hs
  cases h with
  | submit | take => exact ⟨{ hs with }, rfl⟩
  | waits | clockIdle | notDue => exact ⟨hs, rfl⟩
  | drop | present => exact ⟨inv_of_idle hm rfl rfl rfl rfl, rfl⟩
  | accept _ _ _ _ ht =>
    obtain ⟨hinv, hparams⟩ := dispatchFrame_inv ht hm
    exact ⟨hinv, hparams⟩
  | clockBusy ms w hbusy hw =>
    have hw0 : 0 ≤ w.value := hw ▸ add_nonneg hs.waited_nonneg (le_max_left _ _)
    exact ⟨{ hs with idle := fun hidle => by simp [hbusy] at hidle, waited_nonneg := hw0 }, rfl⟩
  | host op m run results hm' =>
    exact ⟨{ hs with memory_wf := (hm' hm).1, timing_legal := (hm' hm).2 }, rfl⟩
  | reset => exact ⟨inv_of_idle ⟨rfl, by simp⟩ rfl rfl rfl rfl, rfl⟩

/-- Settles O34: a step is the effect of one move, and every move keeps the invariant. -/
theorem stepKeepsInvariant : Obligations.StepKeepsInvariant := by
  intro s t hs h
  obtain ⟨tr, ts, heff, -⟩ := step_effect h
  exact moveEffect_inv (s := { s with turns := ts }) { hs with } heff

/-- Settles O33: the reset state is idle, over an empty device table, with nothing on its channels. -/
theorem resetMeetsInvariants : Obligations.ResetMeetsInvariants :=
  ⟨inv_of_idle ⟨rfl, by simp [State.reset, State.resetWith]⟩ rfl rfl rfl rfl,
    { pending_good := by simp [State.reset, State.resetWith]
      presented_good := by simp [State.reset, State.resetWith] }⟩

/-! ## What the wire side cannot reach -/

/-- The two states agree on control state and the read-only banks: RUN, the parameters, the records and their timing
configurations, input registers and discrete inputs (R30, R291). -/
structure ControlKept (s t : State) : Prop where
  run : t.run = s.run
  params : t.params = s.params
  records : ∀ u, (findDevice t.memory u).map Device.timing = (findDevice s.memory u).map Device.timing
  inputs : ∀ u a, readReg t.memory u .IR a = readReg s.memory u .IR a
  discretes : ∀ u a, readBit t.memory u .DI a = readBit s.memory u .DI a

/-- Control state is a matter of memory, RUN and the parameters only. -/
theorem controlKept_of_eq {s t : State} (hrun : t.run = s.run) (hparams : t.params = s.params)
    (hmemory : t.memory = s.memory) : ControlKept s t := by
  constructor <;> simp [hrun, hparams, hmemory]

/-- No answer of the dispatcher reaches control state. -/
theorem dispatchFrame_controlKept {f : Frame} {s t : State} (h : dispatchFrame f s = .next t) : ControlKept s t := by
  obtain ⟨m, tm, f', r, rfl, -, -, hir, hdi, htiming, -⟩ := dispatchFrame_shape h
  exact ⟨rfl, rfl, htiming, hir, hdi⟩

theorem moveEffect_controlKept {s t : State} {tr : Turn} (hw : WireTurn tr = true) (h : MoveEffect s tr t) :
    ControlKept s t := by
  cases h with
  | accept _ _ _ _ ht =>
    obtain ⟨hrun, hparams, hrecords, hir, hdi⟩ := dispatchFrame_controlKept ht
    exact ⟨hrun, hparams, hrecords, hir, hdi⟩
  | host | reset => simp [WireTurn] at hw
  | submit | waits | drop | clockIdle | clockBusy | notDue | present | take => exact controlKept_of_eq rfl rfl rfl

/-- Settles O36: the move of a step is the wire side's or the block's own, and no such move reaches control state. -/
theorem wireCannotReachControlState : Obligations.WireCannotReachControlState := by
  intro s t h hwire
  obtain ⟨tr, ts, heff, hwho⟩ := step_effect h
  have hw : WireTurn tr = true := by
    rcases hwho with hs | ⟨-, -, rfl⟩
    · exact hwire tr ts hs
    · exact wireTurn_ownTurn s
  obtain ⟨hrun, hparams, hrecords, hir, hdi⟩ := moveEffect_controlKept hw heff
  exact ⟨hrun, hparams, hrecords, hir, hdi⟩

/-! ## A waiting response -/

/-- While a response waits, a move that is neither the timer's nor a reset keeps it and its `DUE`, never shortens the
wait, and only adds behind the waiting frames (R35, R63). -/
theorem moveEffect_waiting {s t : State} {tr : Turn} (htimer : tr ≠ .timer) (hreset : tr ≠ .reset)
    (hbusy : s.busy = true) (h : MoveEffect s tr t) :
    t.busy = true ∧ t.pending = s.pending ∧ t.due = s.due ∧ s.waited.value ≤ t.waited.value ∧
      ∃ more, t.requests = s.requests ++ more := by
  cases h with
  | submit f => exact ⟨hbusy, rfl, rfl, le_rfl, [f], rfl⟩
  | drop _ hidle | accept _ hidle | clockIdle _ hidle => simp [hbusy] at hidle
  | clockBusy ms w _ hw =>
    refine ⟨hbusy, rfl, rfl, ?_, [], by simp⟩
    simp [hw]
  | notDue | present => exact absurd rfl htimer
  | reset => exact absurd rfl hreset
  | waits | host | take => exact ⟨hbusy, rfl, rfl, le_rfl, [], by simp⟩

/-- Settles O38: a listed move is the effect that `moveEffect_waiting` bounds. -/
theorem pendingUntouchedWhileWaiting : Obligations.PendingUntouchedWhileWaiting := by
  intro s t tr ts hturns htimer hreset hbusy h
  have heff : MoveEffect { s with turns := ts } tr t := takeTurn_effect (by simpa only [step, hturns] using h)
  exact moveEffect_waiting (s := { s with turns := ts }) htimer hreset hbusy heff

/-! ## The frame of an instruction -/

/-- Every answer of `exec` is a response of at least three bytes, over a memory its handler left (R120, R131). -/
theorem exec_answers {i : Instr} {s t : State} (h : exec i s = .next t) :
    (∃ c, 3 ≤ c.length ∧ Answers s t c) ∧ s.draws ≤ t.draws ∧ t.draws ≤ s.draws + 2 := by
  obtain ⟨m, tm, r, rfl, hcases⟩ := exec_next h
  refine ⟨⟨r, ?_, answers_respond s m tm (encode i) r⟩, dueFor_draws s.params tm (encode i) s.draws⟩
  rcases hcases with ⟨-, -, -, rfl⟩ | ⟨d, -, -, -, hanswer | ⟨-, rfl⟩⟩
  · simp [excFrame]
  · exact (answer_shape hanswer).1
  · simp [excFrame]

/-- A read changes no part of memory (R140). -/
theorem exec_read_memory {i : Instr} {s t : State} (hi : IsRead i = true) (h : exec i s = .next t) :
    t.memory = s.memory := by
  obtain ⟨m, tm, r, rfl, ⟨-, rfl, -, -⟩ | ⟨d, -, -, hm, -⟩⟩ := exec_next h
  · rfl
  · exact read_memory hi hm

theorem not_isRegWrite_of_isCoilWrite {i : Instr} (h : IsCoilWrite i = true) : IsRegWrite i ≠ true := by
  cases i <;> simp_all [IsCoilWrite, IsRegWrite]

/-- Settles O28, from the frame of an answer and the frame of a handler's memory. -/
theorem execKeepsItsFrame : Obligations.ExecKeepsItsFrame := by
  intro i s t h
  obtain ⟨hanswer, hlo, hhi⟩ := exec_answers h
  obtain ⟨hregs, hbits, hrecords, -⟩ := exec_memory_frame h
  refine ⟨hanswer, hlo, hhi, fun hi => exec_read_memory hi h, fun hi => ?_, fun hi => ?_⟩
  · exact {
      bits := fun u b a hout => hbits u b a (fun hin => hout hin.2)
      regs := fun u b a => hregs u b a (fun hin => not_isRegWrite_of_isCoilWrite hi hin.1)
      records := hrecords }
  · exact {
      regs := fun u b a hout => hregs u b a (fun hin => hout hin.2)
      bits := fun u b a => hbits u b a (fun hin => not_isRegWrite_of_isCoilWrite hin.1 hi)
      records := hrecords }

/-! ## A request sees and changes the addressed record only -/

/-- Two replies that a client of unit `u` cannot tell apart: the same response, or both raised, over memories with the
same record of `u`. -/
inductive SameReply (u : Int) : Reply → Reply → Prop
  | answer {m m' : Memory} (r : Frame) (hm : findDevice m' u = findDevice m u) :
      SameReply u (.answer m r) (.answer m' r)
  | raise {m m' : Memory} (hm : findDevice m' u = findDevice m u) : SameReply u (.raise m) (.raise m')
  | tooLong : SameReply u .tooLong .tooLong

theorem readRegs_congr {m m' : Memory} {u : Int} (h : findDevice m' u = findDevice m u) (b : RegBank) (a n : Nat) :
    readRegs m' u b a n = readRegs m u b a n := by
  simp only [readRegs, readReg_congr h]

theorem readBits_congr {m m' : Memory} {u : Int} (h : findDevice m' u = findDevice m u) (b : BitBank) (a n : Nat) :
    readBits m' u b a n = readBits m u b a n := by
  simp only [readBits, readBit_congr h]

theorem replyRead_sameReply {m m' : Memory} {u : Int} (h : findDevice m' u = findDevice m u) (p : Params)
    (ub fc : Byte) (data : Frame) : SameReply u (replyRead p ub fc m data) (replyRead p ub fc m' data) := by
  unfold replyRead
  split
  · exact .answer _ h
  · exact .tooLong

theorem replyWrite_sameReply {w w' : Memory × Option ValidationError} {u : Int}
    (hm : findDevice w'.1 u = findDevice w.1 u) (he : w'.2 = w.2) (f : Frame) :
    SameReply u (replyWrite f w) (replyWrite f w') := by
  obtain ⟨m, e⟩ := w
  obtain ⟨m', e'⟩ := w'
  subst he
  cases e' with
  | none => exact .answer _ hm
  | some e => exact .raise hm

/-- A read's handler gets the same data from memories with the same record of the addressed unit. -/
theorem read_data_congr (p : Params) {i : Instr} (hi : IsRead i = true) {m m' : Memory}
    (h : findDevice m' (i.unit.toNat : Int) = findDevice m (i.unit.toNat : Int)) :
    ∃ data, handlerOf p i m = replyRead p i.unit i.fn.code m data ∧
      handlerOf p i m' = replyRead p i.unit i.fn.code m' data := by
  cases i with
  | readCoils | readDiscreteInputs =>
    exact ⟨_, rfl,
      congrArg (fun bits => replyRead p _ _ m' (packBits p.coilMsbFirst bits)) (readBits_congr h _ _ _)⟩
  | readHoldingRegisters | readInputRegisters =>
    exact ⟨_, rfl, congrArg (fun regs => replyRead p _ _ m' (registerBytes regs)) (readRegs_congr h _ _ _)⟩
  | writeSingleCoil | writeSingleRegister | writeMultipleCoils | writeMultipleRegisters => simp [IsRead] at hi

/-- A handler's reply depends on the addressed record alone (R26). -/
theorem handlerOf_sameReply (p : Params) (i : Instr) {m m' : Memory}
    (h : findDevice m' (i.unit.toNat : Int) = findDevice m (i.unit.toNat : Int)) :
    SameReply (i.unit.toNat : Int) (handlerOf p i m) (handlerOf p i m') := by
  by_cases hi : IsRead i = true
  · obtain ⟨data, hm, hm'⟩ := read_data_congr p hi h
    rw [hm, hm']
    exact replyRead_sameReply h p _ _ data
  · rcases write_uniform p (by simpa using hi) with hw | ⟨vs, hw⟩ | ⟨vs, hw⟩ <;> rw [hw m, hw m']
    · exact .raise h
    · obtain ⟨hrec, herr⟩ := writeBits_congr (i.unit.toNat : Int) .CO vs m' m i.addr.toNat h
      exact replyWrite_sameReply hrec herr _
    · obtain ⟨hrec, herr⟩ := writeRegs_congr (i.unit.toNat : Int) .HR vs m' m i.addr.toNat h
      exact replyWrite_sameReply hrec herr _

/-- What a handler leaves in memory keeps every record but the addressed one (R26). -/
theorem findDevice_reply_other {p : Params} {i : Instr} {m m' : Memory} (h : replyMemory (handlerOf p i m) = some m')
    {u : Int} (hu : u ≠ (i.unit.toNat : Int)) : findDevice m' u = findDevice m u := by
  by_cases hi : IsRead i = true
  · rw [read_memory hi h]
  · rcases write_uniform p (by simpa using hi) with hw | ⟨vs, hw⟩ | ⟨vs, hw⟩ <;> rw [hw m] at h
    · cases h
      rfl
    · rw [replyMemory_replyWrite, Option.some.injEq] at h
      exact h ▸ findDevice_writeBits_other hu .CO vs m i.addr.toNat
    · rw [replyMemory_replyWrite, Option.some.injEq] at h
      exact h ▸ findDevice_writeRegs_other hu .HR vs m i.addr.toNat

/-- An instruction keeps every record but the addressed one (R26). -/
theorem exec_findDevice_other {i : Instr} {s t : State} (h : exec i s = .next t) {u : Int}
    (hu : u ≠ (i.unit.toNat : Int)) : findDevice t.memory u = findDevice s.memory u := by
  obtain ⟨m, tm, r, rfl, ⟨-, rfl, -, -⟩ | ⟨d, -, -, hm, -⟩⟩ := exec_next h
  · rfl
  · exact findDevice_reply_other hm hu

/-- The response, its delay and the addressed record after a request are the same in every state with the same
parameters, sample index and addressed record (R26, R312). -/
theorem exec_congr {i : Instr} {s s' t : State} (hparams : s'.params = s.params) (hdraws : s'.draws = s.draws)
    (hrec : findDevice s'.memory (i.unit.toNat : Int) = findDevice s.memory (i.unit.toNat : Int))
    (h : exec i s = .next t) :
    ∃ t', exec i s' = .next t' ∧ t'.pending = t.pending ∧ t'.due = t.due ∧
      findDevice t'.memory (i.unit.toNat : Int) = findDevice t.memory (i.unit.toNat : Int) := by
  have hreply := handlerOf_sameReply s.params i hrec
  obtain ⟨m, tm, r, rfl, ⟨hnone, rfl, rfl, rfl⟩ | ⟨d, hd, rfl, -, hm | ⟨hm, rfl⟩⟩⟩ := exec_next h
  · refine ⟨_, (exec_eq_serve i s').trans (serve_absent (hrec.trans hnone)), ?_, ?_, hrec⟩ <;>
      simp [takeException_eq, hparams, hdraws]
  · rw [hm] at hreply
    generalize hm' : handlerOf s.params i s'.memory = reply' at hreply
    cases hreply with
    | answer _ hsame =>
      refine ⟨_, exec_answer (hrec.trans hd) (hparams.symm ▸ hm'), ?_, ?_, hsame⟩ <;> simp [hparams, hdraws]
  · rw [hm] at hreply
    generalize hm' : handlerOf s.params i s'.memory = reply' at hreply
    cases hreply with
    | raise hsame =>
      refine ⟨_, exec_raise (hrec.trans hd) (hparams.symm ▸ hm'), ?_, ?_, hsame⟩ <;> simp [hparams, hdraws]

/-- Settles O29: a handler's reply depends on the addressed record alone and it writes no other. -/
theorem answerDependsOnlyOnItsUnit : Obligations.AnswerDependsOnlyOnItsUnit := by
  intro i s s' t hparams hdraws hrec h
  obtain ⟨t', ht', hpending, hdue, hsame⟩ := exec_congr hparams hdraws hrec h
  exact ⟨t', ht', hpending, hdue, hsame, fun u hu => exec_findDevice_other ht' hu⟩

end Sys2Proof.Proofs

/-!
The statements about memory (20_memory.md). A run of writes over what the same run left writes every cell the value it
already holds, up to the cell that raises; so a handler over the memory it left changes nothing.
-/

namespace Sys2Proof.Proofs

open Sys2Proof Sys2Proof.Machine Sys2Proof.Safety Sys2Proof.Laws

/-- Register writes run twice leave what they left the first time, also when the run passes the top (R58, R59). -/
theorem writeRegs_idem {m : Memory} (hw : m.wf = true) {u : Int} (hp : present m u = true) (b : RegBank) (a : Nat)
    (vs : List Word16) : (writeRegs u b (writeRegs u b m a vs).1 a vs).1 = (writeRegs u b m a vs).1 := by
  obtain ⟨-, -, -, hwf, -⟩ := writeRegs_spec u b vs m a
  exact writeRegs_eq_self u b vs _ a (hwf _ hw) (writeRegs_reads u b vs m a hw hp)

/-- Bit writes run twice leave what they left the first time, also when the run passes the top (R58, R59). -/
theorem writeBits_idem {m : Memory} (hw : m.wf = true) {u : Int} (hp : present m u = true) (b : BitBank) (a : Nat)
    (vs : List Bool) : (writeBits u b (writeBits u b m a vs).1 a vs).1 = (writeBits u b m a vs).1 := by
  obtain ⟨-, -, -, hwf, -⟩ := writeBits_spec u b vs m a
  exact writeBits_eq_self u b vs _ a (hwf _ hw) (writeBits_reads u b vs m a hw hp)

/-- A handler over the memory it left changes no part of it further (R340). -/
theorem replyMemory_handlerOf_idem {p : Params} {i : Instr} {m m' m'' : Memory} (hw : m.wf = true)
    (hp : present m (i.unit.toNat : Int) = true) (h : replyMemory (handlerOf p i m) = some m')
    (h' : replyMemory (handlerOf p i m') = some m'') : m'' = m' := by
  by_cases hi : IsRead i = true
  · exact read_memory hi h'
  · rcases write_uniform p (by simpa using hi) with hr | ⟨vs, hr⟩ | ⟨vs, hr⟩
    · rw [hr m'] at h'
      cases h'
      rfl
    · rw [hr, replyMemory_replyWrite, Option.some.injEq] at h h'
      subst h h'
      exact writeBits_idem hw hp .CO i.addr.toNat vs
    · rw [hr, replyMemory_replyWrite, Option.some.injEq] at h h'
      subst h h'
      exact writeRegs_idem hw hp .HR i.addr.toNat vs

/-- What an instruction leaves in memory: all of it when the unit is absent (R122), else what its handler left. -/
theorem exec_memory_cases {i : Instr} {s t : State} (h : exec i s = .next t) :
    t.params = s.params ∧
      ((present s.memory (i.unit.toNat : Int) = false ∧ t.memory = s.memory) ∨
       (present s.memory (i.unit.toNat : Int) = true ∧
         replyMemory (handlerOf s.params i s.memory) = some t.memory)) := by
  obtain ⟨m, tm, r, rfl, ⟨hnone, rfl, -, -⟩ | ⟨d, hd, -, hm, -⟩⟩ := exec_next h
  · exact ⟨rfl, .inl ⟨by simp [present, hnone], rfl⟩⟩
  · exact ⟨rfl, .inr ⟨present_iff.mpr ⟨d, hd⟩, hm⟩⟩

/-- Settles O30: an absent unit stays absent, and a handler over the memory it left changes nothing. -/
theorem repeatedRequestChangesNothing : Obligations.RepeatedRequestChangesNothing := by
  intro i s t t' hw h h'
  obtain ⟨hparams, hfirst⟩ := exec_memory_cases h
  obtain ⟨-, ⟨-, hkept⟩ | ⟨hpresent, hagain⟩⟩ := exec_memory_cases h'
  · exact hkept
  · rcases hfirst with ⟨habsent, hkept⟩ | ⟨hp, hleft⟩
    · simp [hkept, habsent] at hpresent
    · rw [presentResponse_params, hparams, presentResponse_memory] at hagain
      exact replyMemory_handlerOf_idem hw hp hleft hagain

end Sys2Proof.Proofs

/-!
The statements about encoding (30_encoding.md). What each layout decodes to is said once, as an equivalence; a frame
that decodes is then a header with a code of the table, the fields, and nothing dropped.
-/

namespace Sys2Proof.Proofs

open Sys2Proof Sys2Proof.Machine Sys2Proof.Safety Sys2Proof.Laws

/-! ## What decodes, and to what -/

/-- An `RQ6` body decodes exactly when it holds the two fields, to the instruction with these fields and the rest (R82). -/
theorem decodeRq6_eq_instr {u fc : Byte} {mk : Byte → Word16 → Word16 → Frame → Instr} {body : Frame} {i : Instr} :
    decodeRq6 u fc mk body = .instr i ↔
      ∃ a p x, body = hi8 a :: lo8 a :: hi8 p :: lo8 p :: x ∧ mk u a p x = i := by
  constructor
  · intro h
    match body with
    | ah :: al :: ph :: pl :: x => exact ⟨be16 ah al, be16 ph pl, x, by simp, Decoded.instr.inj h⟩
    | [] | [_] | [_, _] | [_, _, _] => simp [decodeRq6] at h
  · rintro ⟨a, p, x, rfl, rfl⟩
    simp [decodeRq6]

/-- An `RQM` body decodes exactly when it holds its three fields, to the instruction with these fields and the rest
(R83). -/
theorem decodeRqm_eq_instr {u fc : Byte} {mk : Byte → Word16 → Word16 → Byte → Frame → Instr} {body : Frame}
    {i : Instr} :
    decodeRqm u fc mk body = .instr i ↔
      ∃ a c n d, body = hi8 a :: lo8 a :: hi8 c :: lo8 c :: n :: d ∧ mk u a c n d = i := by
  constructor
  · intro h
    match body with
    | ah :: al :: ch :: cl :: n :: d => exact ⟨be16 ah al, be16 ch cl, n, d, by simp, Decoded.instr.inj h⟩
    | [] | [_] | [_, _] | [_, _, _] | [_, _, _, _] => simp [decodeRqm] at h
  · rintro ⟨a, c, n, d, rfl, rfl⟩
    simp [decodeRqm]

/-- A frame with a code of the table is decoded by that code's layout (R93). -/
theorem decode_code (u : Byte) (fn : Fn) (body : Frame) :
    decode (u :: fn.code :: body) = decodeBody u fn.code body fn := by
  simp [decode]

/-- A frame that decodes has a header with a code of the table, and its body decodes (R81, R97). -/
theorem decode_eq_instr {f : Frame} {i : Instr} :
    decode f = .instr i ↔
      ∃ u fn body, f = u :: Fn.code fn :: body ∧ decodeBody u (Fn.code fn) body fn = .instr i := by
  constructor
  · intro h
    match f with
    | [] | [_] => simp [decode] at h
    | u :: fc :: body =>
      cases hfc : fnOf fc with
      | none => simp [decode, hfc] at h
      | some fn =>
        obtain rfl := code_of_fnOf fc fn hfc
        exact ⟨u, fn, body, rfl, decode_code u fn body ▸ h⟩
  · rintro ⟨u, fn, body, rfl, h⟩
    rw [decode_code, h]

/-! ## Decoding and encoding -/

/-- Every frame of an instruction starts with its unit id and its function's code (R81). -/
theorem encode_header (i : Instr) : encode i = i.unit :: i.fn.code :: (encode i).drop 2 := by
  cases i <;> rfl

theorem decode_encode (i : Instr) : decode (encode i) = .instr i := by
  rw [encode_header, decode_code]
  cases i with
  | readCoils | readDiscreteInputs | readHoldingRegisters | readInputRegisters | writeSingleCoil
  | writeSingleRegister =>
    simp only [Instr.fn, decodeBody]
    exact decodeRq6_eq_instr.mpr ⟨_, _, _, rfl, rfl⟩
  | writeMultipleCoils | writeMultipleRegisters =>
    simp only [Instr.fn, decodeBody]
    exact decodeRqm_eq_instr.mpr ⟨_, _, _, _, rfl, rfl⟩

theorem encode_of_decode {f : Frame} {i : Instr} (h : decode f = .instr i) : encode i = f := by
  obtain ⟨u, fn, body, rfl, hbody⟩ := decode_eq_instr.mp h
  cases fn with
  | readCoils | readDiscreteInputs | readHoldingRegisters | readInputRegisters | writeSingleCoil
  | writeSingleRegister =>
    obtain ⟨a, p, x, rfl, rfl⟩ := decodeRq6_eq_instr.mp hbody
    rfl
  | writeMultipleCoils | writeMultipleRegisters =>
    obtain ⟨a, c, n, d, rfl, rfl⟩ := decodeRqm_eq_instr.mp hbody
    rfl

/-- Settles O1: both directions go through what a layout decodes to. -/
theorem decodeAndEncodeAgree : Obligations.DecodeAndEncodeAgree :=
  ⟨decode_encode, fun _ _ h => encode_of_decode h⟩

/-! ## Which frames decode -/

/-- A frame decodes exactly when it has a code of the table and that function's minimum length (R95, R97). -/
theorem decode_accepts_iff {f : Frame} :
    (∃ i, decode f = .instr i) ↔ ∃ u fn body, f = u :: Fn.code fn :: body ∧ fn.minLength ≤ f.length := by
  constructor
  · rintro ⟨i, h⟩
    obtain ⟨u, fn, body, rfl, hbody⟩ := decode_eq_instr.mp h
    rcases decodeBody_cases u fn.code body fn with ⟨hlen, -⟩ | ⟨-, hrejected⟩
    · exact ⟨u, fn, body, rfl, hlen⟩
    · simp [hrejected] at hbody
  · rintro ⟨u, fn, body, rfl, hlen⟩
    rcases decodeBody_cases u fn.code body fn with ⟨-, i, hi, -⟩ | ⟨hshort, -⟩
    · exact ⟨i, (decode_code u fn body).trans hi⟩
    · exact absurd hlen (Nat.not_le.mpr hshort)

/-- The two lists of codes with their lengths are the codes of the table with their functions' minimum lengths (R95). -/
theorem codes_iff_minLength {fc : Byte} {n : Nat} :
    (fc ∈ rq6Codes ∧ 6 ≤ n) ∨ (fc ∈ rqmCodes ∧ 7 ≤ n) ↔ ∃ fn : Fn, fc = fn.code ∧ fn.minLength ≤ n := by
  constructor
  · rintro (⟨hfc, hn⟩ | ⟨hfc, hn⟩)
    · obtain ⟨fn, hfn, hmin⟩ := fnOf_of_rq6 hfc
      exact ⟨fn, code_of_fnOf fc fn hfn, hmin ▸ hn⟩
    · obtain ⟨fn, hfn, hmin⟩ := fnOf_of_rqm hfc
      exact ⟨fn, code_of_fnOf fc fn hfn, hmin ▸ hn⟩
  · rintro ⟨fn, rfl, hn⟩
    exact (code_mem fn).imp (fun ⟨hmem, hmin⟩ => ⟨hmem, hmin ▸ hn⟩) (fun ⟨hmem, hmin⟩ => ⟨hmem, hmin ▸ hn⟩)

/-- Settles O2: the table's codes and minimum lengths, read as the two lists. -/
theorem decodeAcceptsExactly : Obligations.DecodeAcceptsExactly := by
  intro f
  rw [decode_accepts_iff]
  constructor
  · rintro ⟨u, fn, body, hf, hlen⟩
    exact ⟨u, fn.code, body, hf, codes_iff_minLength.mpr ⟨fn, rfl, hlen⟩⟩
  · rintro ⟨u, fc, body, hf, hcodes⟩
    obtain ⟨fn, rfl, hlen⟩ := codes_iff_minLength.mp hcodes
    exact ⟨u, fn, body, hf, hlen⟩

/-! ## Bytes after the layout -/

/-- Which free values a response takes does not depend on the request's bytes (R301). -/
theorem dueFor_draws_congr (p : Params) (tm : Option TimingConfig) (f f' : Frame) (k : Nat) :
    (dueFor p tm f k).2 = (dueFor p tm f' k).2 := by
  cases tm <;> rfl

/-- The request's bytes reach a response through its time of presentation only (R306, R343). -/
theorem withoutDue_respond (s : State) (tm : Option TimingConfig) (f f' r : Frame) :
    withoutDue (.next (respond s tm f r)) = withoutDue (.next (respond s tm f' r)) := by
  simp only [withoutDue, respond, dueFor_draws_congr s.params tm f f']

theorem withoutDue_serve (s : State) (f f' : Frame) (u fc : Byte) (H : Memory → Reply) :
    withoutDue (serve s f u fc H) = withoutDue (serve s f' u fc H) := by
  cases hd : findDevice s.memory (u.toNat : Int) with
  | none =>
    rw [serve_absent hd, serve_absent hd]
    exact withoutDue_respond s none f f' _
  | some d =>
    cases hr : H s.memory with
    | answer m r =>
      rw [serve_answer hd hr, serve_answer hd hr]
      exact withoutDue_respond { s with memory := m } d.timing f f' r
    | raise m =>
      rw [serve_raise hd hr, serve_raise hd hr]
      exact withoutDue_respond { s with memory := m } d.timing f f' _
    | tooLong => simp [serve, hd, hr]

/-- Two requests to one unit and function with the same handler differ in the time of presentation only (R120). -/
theorem withoutDue_exec_congr {i j : Instr} {s : State} (hunit : i.unit = j.unit) (hfn : i.fn = j.fn)
    (hhandler : handlerOf s.params i = handlerOf s.params j) :
    withoutDue (exec i s) = withoutDue (exec j s) := by
  rw [exec_eq_serve, exec_eq_serve, hunit, hfn, hhandler]
  exact withoutDue_serve s _ _ _ _ _

/-- A write looks at the first six bytes of its request only (R85, R86). -/
theorem replyWrite_congr {f f' : Frame} (h : f.take 6 = f'.take 6) : replyWrite f = replyWrite f' := by
  funext ⟨m, e⟩
  cases e with
  | none => exact congrArg (Reply.answer m) h
  | some e => rfl

theorem handlerOf_writeSingleCoil_extra (p : Params) (u : Byte) (a v : Word16) (x : Frame) :
    handlerOf p (.writeSingleCoil u a v x) = handlerOf p (.writeSingleCoil u a v []) := by
  funext m
  have hecho : replyWrite (encode (.writeSingleCoil u a v x)) = replyWrite (encode (.writeSingleCoil u a v [])) :=
    replyWrite_congr rfl
  simp only [handlerOf, writeSingleCoilHandler, hecho]

theorem handlerOf_writeSingleRegister_extra (p : Params) (u : Byte) (a v : Word16) (x : Frame) :
    handlerOf p (.writeSingleRegister u a v x) = handlerOf p (.writeSingleRegister u a v []) := by
  funext m
  exact congrFun (replyWrite_congr rfl) _

/-- Settles O17: a read's handler does not see the bytes, and a single write echoes none of them. -/
theorem trailingBytesIgnored : Obligations.TrailingBytesIgnored := by
  intro s u a p x
  exact ⟨withoutDue_exec_congr rfl rfl rfl, withoutDue_exec_congr rfl rfl rfl, withoutDue_exec_congr rfl rfl rfl,
    withoutDue_exec_congr rfl rfl rfl,
    withoutDue_exec_congr rfl rfl (handlerOf_writeSingleCoil_extra s.params u a p x),
    withoutDue_exec_congr rfl rfl (handlerOf_writeSingleRegister_extra s.params u a p x)⟩

end Sys2Proof.Proofs

/-!
The statements about dispatch (40_dispatch.md). What the dispatcher does with a frame is said once as an equation per
case of R128; `dispatchFrame_responds` is then everything an answer can be: its timing, its header, its length. The
statements about a step go through the equations of the dispatcher's move.
-/

namespace Sys2Proof.Proofs

open Sys2Proof Sys2Proof.Machine Sys2Proof.Safety Sys2Proof.Laws

/-! ## The dispatcher, an equation per case (R128) -/

theorem dispatchFrame_instr {f : Frame} {i : Instr} (h : decode f = .instr i) (s : State) :
    dispatchFrame f s = exec i s := by
  simp only [dispatchFrame, h]

theorem dispatchFrame_rejected {f : Frame} {why : DecodeError} (h : decode f = .rejected why) (s : State) :
    dispatchFrame f s = .next (rejectFrame f why s) := by
  simp only [dispatchFrame, h]

/-- A frame too short for a function code (R121). -/
theorem dispatchFrame_short {f : Frame} (h : f.length < 2) (s : State) :
    dispatchFrame f s = .next (respond s none f (excFrame (f.headD 0x00) 0x00 .illegalDataValue)) := by
  match f with
  | [] | [_] => rfl
  | _ :: _ :: _ => simp at h

theorem decode_unknown {fc : Byte} (h : fnOf fc = none) (u : Byte) (body : Frame) :
    decode (u :: fc :: body) = .rejected (.unknownFunction u fc) := by
  simp only [decode, h]

theorem decode_belowMinimum {fn : Fn} {body : Frame} (h : body.length + 2 < fn.minLength) (u : Byte) :
    decode (u :: fn.code :: body) = .rejected (.belowMinimum u fn.code) := by
  rcases decodeBody_cases u fn.code body fn with ⟨hlen, -⟩ | ⟨-, hrejected⟩
  · exact absurd hlen (Nat.not_le.mpr h)
  · exact (decode_code u fn body).trans hrejected

/-- A frame with a code of the table is an instruction of that unit and function, or too short for one (R95). -/
theorem decode_code_cases (u : Byte) (fn : Fn) (body : Frame) :
    (∃ i, decode (u :: fn.code :: body) = .instr i ∧ i.fn = fn ∧ i.unit = u) ∨ body.length + 2 < fn.minLength := by
  rw [decode_code]
  rcases decodeBody_cases u fn.code body fn with ⟨-, hi⟩ | ⟨hshort, -⟩
  · exact .inl hi
  · exact .inr hshort

/-- An unregistered unit, whatever else is wrong with the frame (R122). -/
theorem dispatchFrame_absent {s : State} {u : Byte} (h : findDevice s.memory (u.toNat : Int) = none) (fc : Byte)
    (body : Frame) :
    dispatchFrame (u :: fc :: body) s =
      .next (respond s none (u :: fc :: body) (excFrame u fc .gatewayTargetFailed)) := by
  cases hfc : fnOf fc with
  | none => simp only [dispatchFrame_rejected (decode_unknown hfc u body), rejectFrame, h, takeException_eq]
  | some fn =>
    obtain rfl := code_of_fnOf fc fn hfc
    rcases decode_code_cases u fn body with ⟨i, hi, rfl, rfl⟩ | hshort
    · rw [dispatchFrame_instr hi, exec_eq_serve, serve_absent h, encode_of_decode hi, takeException_eq]
    · simp only [dispatchFrame_rejected (decode_belowMinimum hshort u), rejectFrame, h, takeException_eq]

/-- An unknown function code to a registered unit (R124). -/
theorem dispatchFrame_unknown {s : State} {u fc : Byte} {d : Device}
    (hd : findDevice s.memory (u.toNat : Int) = some d) (hfc : fnOf fc = none) (body : Frame) :
    dispatchFrame (u :: fc :: body) s =
      .next (respond s d.timing (u :: fc :: body) (excFrame u fc .illegalFunction)) := by
  simp only [dispatchFrame_rejected (decode_unknown hfc u body), rejectFrame, hd, takeException_eq]

/-- A frame to a registered unit below its function's minimum length (R125). -/
theorem dispatchFrame_belowMinimum {s : State} {u : Byte} {d : Device}
    (hd : findDevice s.memory (u.toNat : Int) = some d) {fn : Fn} {body : Frame}
    (h : body.length + 2 < fn.minLength) :
    dispatchFrame (u :: fn.code :: body) s =
      .next (respond s d.timing (u :: fn.code :: body) (excFrame u fn.code .illegalDataValue)) := by
  simp only [dispatchFrame_rejected (decode_belowMinimum h u), rejectFrame, hd, takeException_eq]

/-! ## Frames that are no instruction -/

theorem findDevice_of_not_present {m : Memory} {u : Int} (h : present m u = false) : findDevice m u = none := by
  simpa [present] using h

/-- Settles O6, by the equation of a frame too short for a function code. -/
theorem shortFrameAnswered : Obligations.ShortFrameAnswered := fun s f h =>
  ⟨_, dispatchFrame_short h s, answers_respond' s none f _, rfl, rfl⟩

/-- Settles O7, by the equation of an unregistered unit; registered ones are 1 to 247 in canonical memory. -/
theorem unregisteredUnitAnswered : Obligations.UnregisteredUnitAnswered := by
  constructor
  · intro s u fc body h
    exact ⟨_, dispatchFrame_absent (findDevice_of_not_present h) fc body, answers_respond' s none _ _, rfl, rfl⟩
  · intro m u hw hu
    by_contra hp
    obtain ⟨hlo, hhi⟩ := unit_of_present hw (Bool.eq_true_of_not_eq_false hp)
    rcases hu with rfl | hu
    · simp at hlo
    · omega

/-- Settles O8: a code in neither list is unknown to the table. -/
theorem unknownFunctionAnswered : Obligations.UnknownFunctionAnswered := by
  intro s u fc body hp h6 hm
  obtain ⟨d, hd⟩ := present_iff.mp hp
  exact ⟨_, dispatchFrame_unknown hd (fnOf_eq_none_iff_codes.mpr ⟨h6, hm⟩) body, answers_respond' s d.timing _ _, rfl⟩

/-- Settles O9: either list of codes is of functions with its minimum length. -/
theorem shortForFunctionAnswered : Obligations.ShortForFunctionAnswered := by
  intro s u fc body hp hshort
  obtain ⟨d, hd⟩ := present_iff.mp hp
  obtain ⟨fn, hfn, hlen⟩ : ∃ fn, fnOf fc = some fn ∧ body.length + 2 < fn.minLength := by
    rcases hshort with ⟨hfc, hlen⟩ | ⟨hfc, hlen⟩
    · obtain ⟨fn, hfn, hmin⟩ := fnOf_of_rq6 hfc
      exact ⟨fn, hfn, hmin ▸ hlen⟩
    · obtain ⟨fn, hfn, hmin⟩ := fnOf_of_rqm hfc
      exact ⟨fn, hfn, hmin ▸ hlen⟩
  obtain rfl := code_of_fnOf fc fn hfn
  exact ⟨_, dispatchFrame_belowMinimum hd hlen, answers_respond' s d.timing _ _, rfl⟩

/-! ## Everything an answer can be -/

/-- The timing configuration that applies to a request: the addressed record's, none without a record or without a
function code (R129). -/
def timingFor (m : Memory) : Frame → Option TimingConfig
  | u :: _ :: _ => (findDevice m (u.toNat : Int)).bind Device.timing
  | _ => none

theorem timingFor_short {f : Frame} (h : f.length < 2) (m : Memory) : timingFor m f = none := by
  match f with
  | [] | [_] => rfl
  | _ :: _ :: _ => simp at h

theorem timingFor_absent {m : Memory} {u : Byte} (h : findDevice m (u.toNat : Int) = none) (fc : Byte) (body : Frame) :
    timingFor m (u :: fc :: body) = none := by
  simp [timingFor, h]

theorem timingFor_found {m : Memory} {u : Byte} {d : Device} (h : findDevice m (u.toNat : Int) = some d) (fc : Byte)
    (body : Frame) : timingFor m (u :: fc :: body) = d.timing := by
  simp [timingFor, h]

/-- `r` is a response to the request `f` by its header: an exception frame with a code that is sent, or a frame of at
least three bytes under the request's own header with a code of the table (R84 to R86, R96, R131). -/
inductive RespondsTo (f : Frame) : Frame → Prop
  | exception {code : Byte} (hcode : code ∈ ([0x01, 0x03, 0x0B] : List Byte)) :
      RespondsTo f [f.headD 0x00, f.getD 1 0x00 ||| 0x80, code]
  | success {r : Frame} (fn : Fn) (hlength : 3 ≤ r.length) (hunit : r.headD 0x00 = f.headD 0x00)
      (hfn : r.getD 1 0x00 = fn.code) (hcode : f.getD 1 0x00 = fn.code) : RespondsTo f r

theorem respondsTo_excFrame (u fc : Byte) (body : Frame) {c : ExceptionCode} (hc : c ≠ .illegalDataAddress) :
    RespondsTo (u :: fc :: body) (excFrame u fc c) := by
  refine .exception (f := u :: fc :: body) ?_
  cases c with
  | illegalDataAddress => exact absurd rfl hc
  | illegalFunction | illegalDataValue | gatewayTargetFailed => decide

theorem respondsTo_length {f r : Frame} (h : RespondsTo f r) : 3 ≤ r.length := by
  cases h with
  | exception => simp
  | success _ hlength => exact hlength

theorem respondsTo_unit {f r : Frame} (h : RespondsTo f r) : r.headD 0x00 = f.headD 0x00 := by
  cases h with
  | exception => rfl
  | success _ _ hunit => exact hunit

/-- What an instruction to a registered unit answers: its handler's success response or what it raised, with the record's
timing (R120, R127, R129). -/
theorem exec_responds {i : Instr} {s t : State} {d : Device} (hd : findDevice s.memory (i.unit.toNat : Int) = some d)
    (h : exec i s = .next t) :
    ∃ m r, t = respond { s with memory := m } d.timing (encode i) r ∧ RespondsTo (encode i) r := by
  obtain ⟨m, tm, r, rfl, ⟨hnone, -⟩ | ⟨d', hd', rfl, -, hreply⟩⟩ := exec_next h
  · simp [hd] at hnone
  · obtain rfl : d = d' := Option.some.inj (hd.symm.trans hd')
    refine ⟨m, r, rfl, ?_⟩
    rw [encode_header]
    rcases hreply with hanswer | ⟨-, rfl⟩
    · obtain ⟨hlength, hunit, hfn⟩ := answer_shape hanswer
      exact .success i.fn hlength (by simpa [List.head?_eq_getElem?] using hunit) hfn rfl
    · exact respondsTo_excFrame _ _ _ (by decide)

/-- Everything the dispatcher can answer with: a response to the request as received, under the timing that applies to it
(R120, R129, R131). -/
theorem dispatchFrame_responds {f : Frame} {s t : State} (h : dispatchFrame f s = .next t) :
    ∃ m r, t = respond { s with memory := m } (timingFor s.memory f) f r ∧ RespondsTo f r := by
  match f with
  | [] | [_] =>
    rw [dispatchFrame_short (by simp)] at h
    cases h
    exact ⟨s.memory, _, rfl, .exception (by decide)⟩
  | u :: fc :: body =>
    cases hd : findDevice s.memory (u.toNat : Int) with
    | none =>
      rw [dispatchFrame_absent hd] at h
      cases h
      rw [timingFor_absent hd]
      exact ⟨s.memory, _, rfl, respondsTo_excFrame u fc body (by decide)⟩
    | some d =>
      rw [timingFor_found hd]
      cases hfc : fnOf fc with
      | none =>
        rw [dispatchFrame_unknown hd hfc] at h
        cases h
        exact ⟨s.memory, _, rfl, respondsTo_excFrame u fc body (by decide)⟩
      | some fn =>
        obtain rfl := code_of_fnOf fc fn hfc
        rcases decode_code_cases u fn body with ⟨i, hi, rfl, rfl⟩ | hshort
        · rw [dispatchFrame_instr hi] at h
          rw [← encode_of_decode hi]
          exact exec_responds hd h
        · rw [dispatchFrame_belowMinimum hd hshort] at h
          cases h
          exact ⟨s.memory, _, rfl, respondsTo_excFrame u fn.code body (by decide)⟩

/-- The dispatcher's answer is one response to the request (R130, R131). -/
theorem dispatchFrame_answers {f : Frame} {s t : State} (h : dispatchFrame f s = .next t) :
    ∃ c, Answers s t c ∧ RespondsTo f c := by
  obtain ⟨m, r, rfl, hr⟩ := dispatchFrame_responds h
  exact ⟨r, answers_respond s m _ f r, hr⟩

theorem code_mem_codes (fn : Fn) : fn.code ∈ rq6Codes ++ rqmCodes :=
  List.mem_append.mpr ((code_mem fn).imp And.left And.left)

/-- Settles O11, from what a response to a request is. -/
theorem responseEchoesHeader : Obligations.ResponseEchoesHeader := by
  intro s t f h
  obtain ⟨c, hanswers, hc⟩ := dispatchFrame_answers h
  refine ⟨c, hanswers, respondsTo_length hc, respondsTo_unit hc, ?_⟩
  cases hc with
  | exception hcode => exact .inl ⟨_, hcode, rfl⟩
  | success fn _ _ hfn hcode => exact .inr ⟨hfn.trans hcode.symm, hcode ▸ code_mem_codes fn⟩

theorem dispatchFrame_due {f : Frame} {s t : State} (h : dispatchFrame f s = .next t) :
    t.due = (dueFor s.params (timingFor s.memory f) f s.draws).1 := by
  obtain ⟨m, r, rfl, -⟩ := dispatchFrame_responds h
  rfl

/-- Settles O44: `DUE` is the delay of the timing that applies to the request. -/
theorem delayAppliesToRegisteredDevices : Obligations.DelayAppliesToRegisteredDevices := by
  intro s t f h
  rw [dispatchFrame_due h]
  refine ⟨fun hshort => by rw [timingFor_short hshort, dueFor], ?_⟩
  rintro u fc body rfl
  refine ⟨fun habsent => ?_, fun d hd => ?_⟩
  · rw [timingFor_absent (findDevice_of_not_present habsent), dueFor]
  · rw [timingFor_found hd]
    exact ⟨fun hnone => by rw [hnone, dueFor], fun tm htm => by rw [htm, dueFor]⟩

/-! ## The dispatcher is total -/

theorem fitsChannel_unbounded {p : Params} (h : p.maxFrameBytes = none) (n : Nat) : fitsChannel p n = true := by
  simp only [fitsChannel, h]

theorem replyWrite_ne_tooLong (f : Frame) (w : Memory × Option ValidationError) : replyWrite f w ≠ .tooLong := by
  intro hw
  simpa [hw, replyMemory] using replyMemory_replyWrite f w

/-- With `MAX_FRAME_BYTES` unbounded every handler leaves a memory: it answers or raises (R127, R342). -/
theorem handlerOf_ne_tooLong {p : Params} (h : p.maxFrameBytes = none) (i : Instr) (m : Memory) :
    handlerOf p i m ≠ .tooLong := by
  by_cases hi : IsRead i = true
  · obtain ⟨data, -, hd⟩ := read_answers hi (fitsChannel_unbounded h _) m
    simp [hd]
  · rcases write_cases p (by simpa using hi) m with hr | ⟨-, vs, -, hr⟩ | ⟨-, vs, -, hr⟩
    · simp [hr]
    · exact hr ▸ replyWrite_ne_tooLong _ _
    · exact hr ▸ replyWrite_ne_tooLong _ _

theorem exec_total {s : State} (h : s.params.maxFrameBytes = none) (i : Instr) : ∃ t, exec i s = .next t := by
  cases hd : findDevice s.memory (i.unit.toNat : Int) with
  | none => exact ⟨_, (exec_eq_serve i s).trans (serve_absent hd)⟩
  | some d =>
    cases hr : handlerOf s.params i s.memory with
    | answer m r => exact ⟨_, exec_answer hd hr⟩
    | raise m => exact ⟨_, exec_raise hd hr⟩
    | tooLong => exact absurd hr (handlerOf_ne_tooLong h i s.memory)

theorem dispatchFrame_total {s : State} (h : s.params.maxFrameBytes = none) (f : Frame) :
    ∃ t, dispatchFrame f s = .next t := by
  cases hf : decode f with
  | instr i =>
    rw [dispatchFrame_instr hf]
    exact exec_total h i
  | rejected why => exact ⟨_, dispatchFrame_rejected hf s⟩

/-- Settles O10: no handler is refused, and every answer is one response. -/
theorem dispatchIsTotal : Obligations.DispatchIsTotal := by
  intro s f h
  obtain ⟨t, ht⟩ := dispatchFrame_total h f
  obtain ⟨c, hanswers, hc⟩ := dispatchFrame_answers ht
  exact ⟨t, c, ht, hanswers, respondsTo_length hc⟩

/-! ## Acceptance (R119, R120) -/

/-- The dispatcher moves when its move is listed, or when none is and the block is idle (R119, log 7). -/
theorem step_dispatch {s : State} {ts : List Turn}
    (h : s.turns = .dispatch :: ts ∨ (s.turns = [] ∧ ts = [] ∧ s.busy = false)) :
    step s = dispatchTurn { s with turns := ts } := by
  rcases h with h | ⟨h, rfl, hidle⟩
  · simp only [step, h, takeTurn]
  · have hs : { s with turns := [] } = s := by rw [← h]
    rw [hs]
    simp only [step, h, ownTurn, hidle, takeTurn, Bool.false_eq_true, if_false]

theorem dispatchTurn_waits {s : State} (h : s.run = false ∨ s.busy = true) : dispatchTurn s = .next s := by
  rcases h with h | h <;> simp [dispatchTurn, h]

/-- With RUN set and `BUSY` clear the dispatcher's move takes the oldest waiting frame; one that passes the framing stage
is dispatched when it is within `MAX_FRAME_BYTES` (R119, R342). -/
theorem step_accepts {s : State} {ts : List Turn} {w f : Frame} {rest : List Frame} (hrun : s.run = true)
    (hidle : s.busy = false) (hq : s.requests = w :: rest)
    (hturns : s.turns = .dispatch :: ts ∨ (s.turns = [] ∧ ts = [])) (hframe : frameIn s.params w = some f) :
    step s =
      if fitsChannel s.params w.length then dispatchFrame f { s with requests := rest, turns := ts }
      else .refused .requestTooLong := by
  rw [step_dispatch (hturns.imp_right fun ⟨hnil, hts⟩ => ⟨hnil, hts, hidle⟩)]
  simp [dispatchTurn, receiveFrame, hrun, hidle, hq, hframe]

/-- Settles O4, by the equations of the dispatcher's move. -/
theorem stepRunsDecodedInstruction : Obligations.StepRunsDecodedInstruction := by
  intro s w core rest ts i hrun hidle hq hturns hfits hframe hdecode
  rw [step_accepts hrun hidle hq hturns hframe, if_pos hfits]
  exact dispatchFrame_instr hdecode _

/-- Settles O37: a closed gate keeps the state, and a frame taken through an open one is answered. -/
theorem acceptanceGate : Obligations.AcceptanceGate := by
  constructor
  · intro s ts hturns hclosed
    exact (step_dispatch (.inl hturns)).trans (dispatchTurn_waits hclosed)
  · intro s t ts w f rest hturns hrun hidle hq hframe h
    rw [step_accepts hrun hidle hq (.inl hturns) hframe] at h
    split_ifs at h
    obtain ⟨c, hanswers, -⟩ := dispatchFrame_answers h
    exact ⟨hanswers.busy, hanswers.requests, by simp [hanswers.pending], hanswers.waited⟩

end Sys2Proof.Proofs

/-!
The statements about the read functions (41_read_functions.md) and the frames of the rules' worked examples. `exec_read`
says once what each of the four reads answers when its response has room: the data bytes `dataOfRead`. The statements
about cells then look at one bit read and one register read, `bitRead` and `regRead`, over any bank.
-/

namespace Sys2Proof.Proofs

open Sys2Proof Sys2Proof.Machine Sys2Proof.Safety Sys2Proof.Laws

/-! ## What every read answers -/

/-- The data bytes of a read's response (R141 to R144); none for a write. -/
def dataOfRead (p : Params) (m : Memory) : Instr → Frame
  | .readCoils u a c _ => packBits p.coilMsbFirst (readBits m (u.toNat : Int) .CO a.toNat c.toNat)
  | .readDiscreteInputs u a c _ => packBits p.coilMsbFirst (readBits m (u.toNat : Int) .DI a.toNat c.toNat)
  | .readHoldingRegisters u a c _ => registerBytes (readRegs m (u.toNat : Int) .HR a.toNat c.toNat)
  | .readInputRegisters u a c _ => registerBytes (readRegs m (u.toNat : Int) .IR a.toNat c.toNat)
  | .writeSingleCoil _ _ _ _ | .writeSingleRegister _ _ _ _ => []
  | .writeMultipleCoils _ _ _ _ _ | .writeMultipleRegisters _ _ _ _ _ => []

@[simp] theorem length_dataOfRead (p : Params) (m : Memory) (i : Instr) :
    (dataOfRead p m i).length = readLength i := by
  cases i <;> simp [dataOfRead, readLength]

theorem handlerOf_read (p : Params) {i : Instr} (hi : IsRead i = true) (m : Memory) :
    handlerOf p i m = replyRead p i.unit i.fn.code m (dataOfRead p m i) := by
  cases i with
  | readCoils | readDiscreteInputs | readHoldingRegisters | readInputRegisters => rfl
  | writeSingleCoil | writeSingleRegister | writeMultipleCoils | writeMultipleRegisters => simp [IsRead] at hi

/-- A read of a registered unit whose response has room succeeds and changes no cell (R140 to R144). -/
theorem exec_read {i : Instr} {s : State} (hi : IsRead i = true)
    (hp : present s.memory (i.unit.toNat : Int) = true) (hroom : HasRoom s.params i = true) :
    ∃ t, exec i s = .next t ∧
      Answers s t ([i.unit, i.fn.code, BitVec.ofNat 8 (readLength i)] ++ dataOfRead s.params s.memory i) ∧
      t.memory = s.memory := by
  obtain ⟨d, hd⟩ := present_iff.mp hp
  have hfits : fitsChannel s.params
      (channelLength s.params (3 + (dataOfRead s.params s.memory i).length)) = true := by
    rwa [length_dataOfRead]
  have hreply : handlerOf s.params i s.memory = .answer s.memory
      ([i.unit, i.fn.code, BitVec.ofNat 8 (readLength i)] ++ dataOfRead s.params s.memory i) := by
    rw [handlerOf_read s.params hi, replyRead, if_pos hfits, readResponse, byteCountOf, length_dataOfRead]
  exact ⟨_, exec_answer hd hreply, answers_respond s s.memory d.timing _ _, rfl⟩

/-- Settles O15: a read of no cells is a read with no data bytes. -/
theorem zeroCountReadAnswered : Obligations.ZeroCountReadAnswered := by
  intro s u addr extra i fc hi hp hroom
  obtain ⟨hread, hzero, rfl, rfl⟩ : IsRead i = true ∧ readLength i = 0 ∧ u = i.unit ∧ fc = i.fn.code := by
    rcases hi with ⟨rfl, rfl⟩ | ⟨rfl, rfl⟩ | ⟨rfl, rfl⟩ | ⟨rfl, rfl⟩ <;> exact ⟨rfl, rfl, rfl, rfl⟩
  obtain ⟨t, ht, hanswers, -⟩ := exec_read hread hp hroom
  have hnil : dataOfRead s.params s.memory i = [] := List.length_eq_zero_iff.mp (by simpa using hzero)
  rw [hnil, hzero] at hanswers
  exact ⟨t, ht, hanswers⟩

/-! ## The bit reads -/

/-- The bit read of a bank (R141, R142). -/
def bitRead : BitBank → Byte → Word16 → Word16 → Frame → Instr
  | .CO => .readCoils
  | .DI => .readDiscreteInputs

/-- A bit of packed coils is the coil, or a pad bit 0, at the place that R92 gives it. -/
theorem coilBit_packBits (msb : Bool) (bits : List Bool) {k : Nat} (h : k < 8 * ceilDiv bits.length 8) :
    coilBit msb (packBits msb bits) k = bits.getD k false :=
  payloadBit_packBits msb bits h

theorem lt_of_lt_ceilDiv {k n : Nat} (h : k < n) : k < 8 * ceilDiv n 8 := by
  unfold ceilDiv
  omega

/-- What a bit read of a registered unit answers when its response has room (R141, R142). -/
theorem exec_bitRead {s : State} {u : Byte} {b : BitBank} {addr count : Word16} {extra : Frame}
    (hp : present s.memory (u.toNat : Int) = true) (hroom : HasRoom s.params (bitRead b u addr count extra) = true) :
    ∃ t data, exec (bitRead b u addr count extra) s = .next t ∧
      Answers s t ([u, (bitRead b u addr count extra).fn.code, BitVec.ofNat 8 (ceilDiv count.toNat 8)] ++ data) ∧
      data.length = ceilDiv count.toNat 8 ∧
      (∀ k < count.toNat,
        coilBit s.params.coilMsbFirst data k = readBit s.memory (u.toNat : Int) b ((addr.toNat + k : Nat) : Int)) ∧
      (∀ k < 8 * ceilDiv count.toNat 8, count.toNat ≤ k → coilBit s.params.coilMsbFirst data k = false) ∧
      t.memory = s.memory := by
  have hexec : ∃ t, exec (bitRead b u addr count extra) s = .next t ∧
      Answers s t ([u, (bitRead b u addr count extra).fn.code, BitVec.ofNat 8 (ceilDiv count.toNat 8)] ++
        packBits s.params.coilMsbFirst (readBits s.memory (u.toNat : Int) b addr.toNat count.toNat)) ∧
      t.memory = s.memory := by
    cases b <;> exact exec_read rfl hp hroom
  obtain ⟨t, ht, hanswers, hmemory⟩ := hexec
  refine ⟨t, _, ht, hanswers, by simp, fun k hk => ?_, fun k hk hpad => ?_, hmemory⟩
  · rw [coilBit_packBits _ _ (by simpa using lt_of_lt_ceilDiv hk), readBits_getD _ _ _ _ _ _ hk]
  · rw [coilBit_packBits _ _ (by simpa using hk)]
    exact List.getD_eq_default _ _ (by simpa using hpad)

/-- Settles O13: short frames as every function's, and the others by what a bit read answers. -/
theorem readBitsResult : Obligations.ReadBitsResult := by
  intro s u fc b hbank hp
  constructor
  · intro body hshort
    have hfc : fc ∈ rq6Codes := by rcases hbank with ⟨-, rfl⟩ | ⟨-, rfl⟩ <;> decide
    exact shortForFunctionAnswered s u fc body hp (.inl ⟨hfc, by omega⟩)
  · intro addr count extra i hi hroom
    obtain ⟨rfl, rfl⟩ : i = bitRead b u addr count extra ∧ fc = (bitRead b u addr count extra).fn.code := by
      rcases hbank with ⟨rfl, rfl⟩ | ⟨rfl, rfl⟩
      · exact ⟨by simpa [bitRead] using hi, rfl⟩
      · exact ⟨by simpa [bitRead] using hi, rfl⟩
    exact exec_bitRead hp hroom

/-! ## The register reads -/

/-- The register read of a bank (R143, R144). -/
def regRead : RegBank → Byte → Word16 → Word16 → Frame → Instr
  | .HR => .readHoldingRegisters
  | .IR => .readInputRegisters

/-- Registers laid out as data bytes are read back high byte first (R89). -/
theorem wireRegister_registerBytes (vs : List Word16) {k : Nat} (h : k < vs.length) :
    wireRegister (registerBytes vs) k = vs.getD k 0#16 := by
  rw [wireRegister, ← registersOf_getD _ _ (by rw [length_registerBytes]; omega), registersOf_registerBytes]

/-- What a register read of a registered unit answers when its response has room (R143, R144). -/
theorem exec_regRead {s : State} {u : Byte} {b : RegBank} {addr count : Word16} {extra : Frame}
    (hp : present s.memory (u.toNat : Int) = true) (hroom : HasRoom s.params (regRead b u addr count extra) = true) :
    ∃ t data, exec (regRead b u addr count extra) s = .next t ∧
      Answers s t ([u, (regRead b u addr count extra).fn.code, BitVec.ofNat 8 (2 * count.toNat)] ++ data) ∧
      data.length = 2 * count.toNat ∧
      (∀ k < count.toNat,
        wireRegister data k = readReg s.memory (u.toNat : Int) b ((addr.toNat + k : Nat) : Int)) ∧
      t.memory = s.memory := by
  have hexec : ∃ t, exec (regRead b u addr count extra) s = .next t ∧
      Answers s t ([u, (regRead b u addr count extra).fn.code, BitVec.ofNat 8 (2 * count.toNat)] ++
        registerBytes (readRegs s.memory (u.toNat : Int) b addr.toNat count.toNat)) ∧
      t.memory = s.memory := by
    cases b <;> exact exec_read rfl hp hroom
  obtain ⟨t, ht, hanswers, hmemory⟩ := hexec
  refine ⟨t, _, ht, hanswers, by simp, fun k hk => ?_, hmemory⟩
  rw [wireRegister_registerBytes _ (by simpa using hk), readRegs_getD _ _ _ _ _ _ hk]

/-- Settles O14: short frames as every function's, and the others by what a register read answers. -/
theorem readRegistersResult : Obligations.ReadRegistersResult := by
  intro s u fc b hbank hp
  constructor
  · intro body hshort
    have hfc : fc ∈ rq6Codes := by rcases hbank with ⟨-, rfl⟩ | ⟨-, rfl⟩ <;> decide
    exact shortForFunctionAnswered s u fc body hp (.inl ⟨hfc, by omega⟩)
  · intro addr count extra i hi hroom
    obtain ⟨rfl, rfl⟩ : i = regRead b u addr count extra ∧ fc = (regRead b u addr count extra).fn.code := by
      rcases hbank with ⟨rfl, rfl⟩ | ⟨rfl, rfl⟩
      · exact ⟨by simpa [regRead] using hi, rfl⟩
      · exact ⟨by simpa [regRead] using hi, rfl⟩
    exact exec_regRead hp hroom

/-! ## Reads past the top -/

/-- Settles O16: the cells are those of the bank at addresses that do not wrap, and a cell above the top is unset (R56). -/
theorem readPastTopReadsUnset : Obligations.ReadPastTopReadsUnset := by
  intro s u addr count extra _ hp
  constructor
  · intro i fc hi hroom
    obtain ⟨b, rfl, rfl⟩ : ∃ b, i = regRead b u addr count extra ∧ fc = i.fn.code := by
      rcases hi with ⟨rfl, rfl⟩ | ⟨rfl, rfl⟩
      · exact ⟨.HR, rfl, rfl⟩
      · exact ⟨.IR, rfl, rfl⟩
    obtain ⟨t, data, ht, hanswers, hlength, hcells, -⟩ := exec_regRead hp hroom
    exact ⟨t, data, ht, hanswers, hlength, fun k hk htop => (hcells k hk).trans (readReg_outside (.inr (by omega)))⟩
  · intro i fc hi hroom
    obtain ⟨b, rfl, rfl⟩ : ∃ b, i = bitRead b u addr count extra ∧ fc = i.fn.code := by
      rcases hi with ⟨rfl, rfl⟩ | ⟨rfl, rfl⟩
      · exact ⟨.CO, rfl, rfl⟩
      · exact ⟨.DI, rfl, rfl⟩
    obtain ⟨t, data, ht, hanswers, hlength, hcells, -, -⟩ := exec_bitRead hp hroom
    exact ⟨t, data, ht, hanswers, hlength, fun k hk htop => (hcells k hk).trans (readBit_outside (.inr (by omega)))⟩

/-! ## The frames of the worked examples -/

/-- Settles O3: each frame is the encoding of the instruction it stands for. -/
theorem knownFramesDecode : Obligations.KnownFramesDecode :=
  ⟨decode_encode (.readCoils 0x01 0x0013 0x0004 []),
    decode_encode (.readDiscreteInputs 0x01 0x0000 0x000A []),
    decode_encode (.readHoldingRegisters 0x01 0x0000 0x0001 []),
    decode_encode (.readInputRegisters 0x01 0x0008 0x0002 []),
    decode_encode (.writeSingleCoil 0x01 0x00AC 0xFF00 []),
    decode_encode (.writeSingleRegister 0x01 0x0001 0x0003 []),
    decode_encode (.writeMultipleCoils 0x01 0x0013 0x000A 0x02 [0xB3, 0x80]),
    decode_encode (.writeMultipleRegisters 0x01 0x0000 0x0003 0x06 [0x01, 0xF4, 0x00, 0x64, 0x00, 0xC8])⟩

end Sys2Proof.Proofs

/-!
The statements about the write functions (42_write_functions.md). A write's handler raises before its first cell or ends
in `replyWrite` over a run of cells; `exec_raise_answers`, `exec_run_done` and `exec_run_raised` say once what the
request then answers and leaves in memory, and the laws of `writeRegs` and `writeBits` say what a run leaves in the cells.
-/

namespace Sys2Proof.Proofs

open Sys2Proof Sys2Proof.Machine Sys2Proof.Safety Sys2Proof.Laws

/-! ## What a run of cells leaves -/

/-- A run of register writes changes holding registers of its span that lie in the bank, and nothing else (R58). -/
theorem sameButRegs_writeRegs (u : Int) (vs : List Word16) (m : Memory) (a : Nat) {P : Int → Prop}
    (hP : ∀ x : Int, (a : Int) ≤ x → x < a + vs.length → x ≤ 65535 → P x) :
    SameButRegs u P m (writeRegs u .HR m a vs).1 := by
  obtain ⟨hregs, hbits, hrecords, -, -⟩ := writeRegs_spec u .HR vs m a
  refine ⟨fun u' b x hout => ?_, hbits, hrecords⟩
  by_cases htop : x ≤ 65535
  · exact hregs u' b x fun ⟨hu, hb, hlo, hhi⟩ => hout ⟨hu, hb, hP x hlo hhi htop⟩
  · rw [readReg_outside (.inr (Int.not_le.mp htop)), readReg_outside (.inr (Int.not_le.mp htop))]

/-- A run of coil writes changes coils of its span that lie in the bank, and nothing else (R58). -/
theorem sameButBits_writeBits (u : Int) (vs : List Bool) (m : Memory) (a : Nat) {P : Int → Prop}
    (hP : ∀ x : Int, (a : Int) ≤ x → x < a + vs.length → x ≤ 65535 → P x) :
    SameButBits u P m (writeBits u .CO m a vs).1 := by
  obtain ⟨hbits, hregs, hrecords, -, -⟩ := writeBits_spec u .CO vs m a
  refine ⟨fun u' b x hout => ?_, hregs, hrecords⟩
  by_cases htop : x ≤ 65535
  · exact hbits u' b x fun ⟨hu, hb, hlo, hhi⟩ => hout ⟨hu, hb, hP x hlo hhi htop⟩
  · rw [readBit_outside (.inr (Int.not_le.mp htop)), readBit_outside (.inr (Int.not_le.mp htop))]

theorem writeRegs_done_iff (u : Int) (b : RegBank) (m : Memory) (a : Nat) (vs : List Word16) :
    (writeRegs u b m a vs).2 = none ↔ vs = [] ∨ a + vs.length ≤ 65536 :=
  (writeRegs_spec u b vs m a).2.2.2.2

theorem writeBits_done_iff (u : Int) (b : BitBank) (m : Memory) (a : Nat) (vs : List Bool) :
    (writeBits u b m a vs).2 = none ↔ vs = [] ∨ a + vs.length ≤ 65536 :=
  (writeBits_spec u b vs m a).2.2.2.2

/-! ## What a request answers after its handler -/

/-- A run that reaches its end is answered with the first six bytes of the request (R85, R86). -/
theorem exec_run_done {i : Instr} {s : State} (hp : present s.memory (i.unit.toNat : Int) = true)
    {r : Memory × Option ValidationError} (h : handlerOf s.params i s.memory = replyWrite (encode i) r)
    (hr : r.2 = none) :
    ∃ t, exec i s = .next t ∧ Answers s t ((encode i).take 6) ∧ t.memory = r.1 := by
  obtain ⟨d, hd⟩ := present_iff.mp hp
  exact ⟨_, exec_answer hd (h.trans (replyWrite_done hr)), answers_respond s r.1 d.timing _ _, rfl⟩

section
variable {i : Instr} {fn : Fn} {s : State} (hfn : i.fn = fn) (hp : present s.memory (i.unit.toNat : Int) = true)
include hfn hp

/-- A request whose handler raises is answered with code 0x03 over the memory of the raise (R127). -/
theorem exec_raise_answers {m : Memory} (h : handlerOf s.params i s.memory = .raise m) :
    ∃ t, exec i s = .next t ∧ Answers s t [i.unit, fn.code ||| 0x80, 0x03] ∧ t.memory = m := by
  subst hfn
  obtain ⟨d, hd⟩ := present_iff.mp hp
  exact ⟨_, exec_raise hd h, answers_respond s m d.timing _ _, rfl⟩

/-- A run that raises is answered with code 0x03 over the cells written before the raise (R58, R127). -/
theorem exec_run_raised {r : Memory × Option ValidationError}
    (h : handlerOf s.params i s.memory = replyWrite (encode i) r) (hr : r.2 ≠ none) :
    ∃ t, exec i s = .next t ∧ Answers s t [i.unit, fn.code ||| 0x80, 0x03] ∧ t.memory = r.1 :=
  exec_raise_answers hfn hp (h.trans (replyWrite_raised hr))

end

/-! ## The single writes -/

/-- Settles O18: a run of the one coil that the sentinel stands for. -/
theorem writeSingleCoilResult : Obligations.WriteSingleCoilResult := by
  intro s u addr extra v hw hp
  have haddr := addr.isLt
  have hrun : handlerOf s.params (.writeSingleCoil u addr (sentinelOfCoil v) extra) s.memory =
      replyWrite (encode (.writeSingleCoil u addr (sentinelOfCoil v) extra))
        (writeBits (u.toNat : Int) .CO s.memory addr.toNat [v]) := by
    simp only [handlerOf, writeSingleCoilHandler, coilOfSentinel_sentinelOfCoil]
  obtain ⟨t, ht, hanswers, hm⟩ := exec_run_done hp hrun
    ((writeBits_done_iff _ _ _ _ _).mpr (.inr (by simp only [List.length_singleton]; omega)))
  have hecho : (encode (.writeSingleCoil u addr (sentinelOfCoil v) extra)).take 6 =
      [u, 0x05, hi8 addr, lo8 addr, if v then 0xFF else 0x00, 0x00] := by
    cases v <;> rfl
  rw [hecho] at hanswers
  refine ⟨t, ht, hanswers, ?_, ?_⟩ <;> rw [hm]
  · exact writeBits_reads _ _ [v] _ _ hw hp 0 (by simp) (by omega)
  · refine sameButBits_writeBits _ _ _ _ fun x hlo hhi _ => ?_
    simp only [List.length_singleton] at hhi
    omega

/-- Settles O19: no coil stands for the value, so the handler raises before its first cell. -/
theorem writeSingleCoilBadValue : Obligations.WriteSingleCoilBadValue := by
  intro s u addr p extra hon hoff hp
  refine exec_raise_answers (i := .writeSingleCoil u addr p extra) (fn := .writeSingleCoil) rfl hp ?_
  simp only [handlerOf, writeSingleCoilHandler, coilOfSentinel_eq_none.mpr ⟨hon, hoff⟩]

/-- Settles O20: a run of one register. -/
theorem writeSingleRegisterResult : Obligations.WriteSingleRegisterResult := by
  intro s u addr v extra hw hp
  have haddr := addr.isLt
  obtain ⟨t, ht, hanswers, hm⟩ := exec_run_done (i := .writeSingleRegister u addr v extra) hp rfl
    ((writeRegs_done_iff _ _ _ _ _).mpr (.inr (by simp only [List.length_singleton]; omega)))
  refine ⟨t, ht, hanswers, ?_, ?_⟩ <;> rw [hm]
  · exact writeRegs_reads _ _ [v] _ _ hw hp 0 (by simp) (by omega)
  · refine sameButRegs_writeRegs _ _ _ _ fun x hlo hhi _ => ?_
    simp only [List.length_singleton] at hhi
    omega

/-! ## The checks of the multiple writes -/

/-- The checks of a 0x10 request against its payload and its quantity (R165). -/
theorem writeMultipleRegisters_refuses {count : Word16} {n : Byte} {payload : Frame}
    (h : n.toNat ≠ payload.length ∨ n.toNat ≠ 2 * count.toNat) (p : Params) (u : Byte) (addr : Word16)
    (m : Memory) : handlerOf p (.writeMultipleRegisters u addr count n payload) m = .raise m := by
  simp only [handlerOf, writeMultipleRegistersHandler]
  by_cases hlen : n.toNat ≠ payload.length
  · rw [if_pos hlen]
  · rw [if_neg hlen, if_pos (h.resolve_left hlen)]

/-- The checks of a 0x0F request against its payload and its quantity (R169). -/
theorem writeMultipleCoils_refuses {count : Word16} {n : Byte} {payload : Frame}
    (h : n.toNat ≠ payload.length ∨ n.toNat ≠ ceilDiv count.toNat 8) (p : Params) (u : Byte) (addr : Word16)
    (m : Memory) : handlerOf p (.writeMultipleCoils u addr count n payload) m = .raise m := by
  simp only [handlerOf, writeMultipleCoilsHandler]
  by_cases hlen : n.toNat ≠ payload.length
  · rw [if_pos hlen]
  · rw [if_neg hlen, if_pos (h.resolve_left hlen)]

/-- Settles O23: short frames as every function's; an odd byte count and a quantity too large for the byte count's eight
bits fail the check against the quantity. -/
theorem multipleWriteChecks : Obligations.MultipleWriteChecks := by
  intro s u hp
  refine ⟨fun body hshort => ⟨?_, ?_⟩, fun addr count n payload => ⟨fun h => ?_, fun h => ?_⟩⟩
  · exact shortForFunctionAnswered s u 0x10 body hp (.inr ⟨by decide, hshort⟩)
  · exact shortForFunctionAnswered s u 0x0F body hp (.inr ⟨by decide, hshort⟩)
  · have hn := n.isLt
    exact exec_raise_answers (fn := .writeMultipleRegisters) rfl hp
      (writeMultipleRegisters_refuses (by omega) s.params u addr s.memory)
  · have hn := n.isLt
    have hchecks : n.toNat ≠ payload.length ∨ n.toNat ≠ ceilDiv count.toNat 8 := by
      unfold ceilDiv at h ⊢
      omega
    exact exec_raise_answers (fn := .writeMultipleCoils) rfl hp
      (writeMultipleCoils_refuses hchecks s.params u addr s.memory)

/-! ## The multiple writes within the bank -/

/-- Register `k` of a payload of `n` registers is the one its two bytes spell on the wire (R89). -/
theorem registersOf_getD_wire {payload : Frame} {n k : Nat} (hlen : payload.length = 2 * n) (hk : k < n) :
    (registersOf payload).getD k 0#16 = wireRegister payload k :=
  registersOf_getD payload k (by omega)

/-- Settles O21: the checks pass, and the run of the payload's registers reaches its end. -/
theorem writeMultipleRegistersResult : Obligations.WriteMultipleRegistersResult := by
  intro s u addr count n payload hw hp hlen hcount hfit
  have hregs : (registersOf payload).length = count.toNat := by rw [length_registersOf]; omega
  obtain ⟨t, ht, hanswers, hm⟩ := exec_run_done hp (writeMultipleRegisters_runs hlen hcount (.inr hfit))
    ((writeRegs_done_iff _ _ _ _ _).mpr (.inr (by rwa [hregs])))
  refine ⟨t, ht, hanswers, fun k hk => ?_, ?_⟩ <;> rw [hm]
  · rw [writeRegs_reads _ _ _ _ _ hw hp k (by rwa [hregs]) (by omega)]
    exact registersOf_getD_wire (by omega) hk
  · exact sameButRegs_writeRegs _ _ _ _ fun x hlo hhi _ => ⟨hlo, by rwa [hregs] at hhi⟩

/-- Settles O22: the checks pass, and the run of the payload's coils reaches its end. -/
theorem writeMultipleCoilsResult : Obligations.WriteMultipleCoilsResult := by
  intro s u addr count n payload hw hp hlen hcount hfit
  have hbits : (unpackBits s.params.coilMsbFirst payload count.toNat).length = count.toNat := length_unpackBits ..
  obtain ⟨t, ht, hanswers, hm⟩ := exec_run_done hp (writeMultipleCoils_runs hlen hcount (.inr hfit))
    ((writeBits_done_iff _ _ _ _ _).mpr (.inr (by rwa [hbits])))
  refine ⟨t, ht, hanswers, fun k hk => ?_, ?_⟩ <;> rw [hm]
  · rw [writeBits_reads _ _ _ _ _ hw hp k (by rwa [hbits]) (by omega)]
    exact unpackBits_getD _ payload hk
  · exact sameButBits_writeBits _ _ _ _ fun x hlo hhi _ => ⟨hlo, by rwa [hbits] at hhi⟩

/-! ## The multiple writes past the top -/

theorem rangeFits_eq_false {a n : Nat} (h : 65536 < a + n) : rangeFits a n = false := by
  exact decide_eq_false (Nat.not_le.mpr h)

/-- With `MULTI_WRITE_PRECHECK` a 0x10 request past the top raises before its first cell (R166). -/
theorem writeMultipleRegisters_precheck {p : Params} (hpre : p.multiWritePrecheck = true) {addr count : Word16}
    (htop : 65536 < addr.toNat + count.toNat) (u n : Byte) (payload : Frame) (m : Memory) :
    handlerOf p (.writeMultipleRegisters u addr count n payload) m = .raise m := by
  simp [handlerOf, writeMultipleRegistersHandler, hpre, rangeFits_eq_false htop]

/-- With `MULTI_WRITE_PRECHECK` a 0x0F request past the top raises before its first cell (R170). -/
theorem writeMultipleCoils_precheck {p : Params} (hpre : p.multiWritePrecheck = true) {addr count : Word16}
    (htop : 65536 < addr.toNat + count.toNat) (u n : Byte) (payload : Frame) (m : Memory) :
    handlerOf p (.writeMultipleCoils u addr count n payload) m = .raise m := by
  simp [handlerOf, writeMultipleCoilsHandler, hpre, rangeFits_eq_false htop]

/-- Settles O24: the precheck raises before the first cell; without it the run raises at address 65536. -/
theorem writeRegistersAcrossTop : Obligations.WriteRegistersAcrossTop := by
  intro s u addr count n payload hw hp hlen hcount htop
  cases hpre : s.params.multiWritePrecheck with
  | true =>
    obtain ⟨t, ht, hanswers, hm⟩ := exec_raise_answers (fn := .writeMultipleRegisters) rfl hp
      (writeMultipleRegisters_precheck hpre htop u n payload _)
    exact ⟨t, ht, hanswers, fun _ => hm, fun h => by simp at h⟩
  | false =>
    have haddr := addr.isLt
    have hregs : (registersOf payload).length = count.toNat := by rw [length_registersOf]; omega
    have hraised : (writeRegs (u.toNat : Int) .HR s.memory addr.toNat
        (registersOf payload)).2 ≠ none := by
      rw [Ne, writeRegs_done_iff, ← List.length_eq_zero_iff]
      omega
    obtain ⟨t, ht, hanswers, hm⟩ := exec_run_raised (fn := .writeMultipleRegisters) rfl hp
      (writeMultipleRegisters_runs hlen hcount (.inl hpre)) hraised
    refine ⟨t, ht, hanswers, fun h => by simp at h, fun _ => ⟨fun k hk => ?_, ?_⟩⟩ <;> rw [hm]
    · have hlt : k < count.toNat := by omega
      rw [writeRegs_reads _ _ _ _ _ hw hp k (by rwa [hregs]) hk]
      exact registersOf_getD_wire (by omega) hlt
    · exact sameButRegs_writeRegs _ _ _ _ fun x hlo _ hmax => ⟨hlo, hmax⟩

/-- Settles O25: the precheck raises before the first cell; without it the run raises at address 65536. -/
theorem writeCoilsAcrossTop : Obligations.WriteCoilsAcrossTop := by
  intro s u addr count n payload hw hp hlen hcount htop
  cases hpre : s.params.multiWritePrecheck with
  | true =>
    obtain ⟨t, ht, hanswers, hm⟩ := exec_raise_answers (fn := .writeMultipleCoils) rfl hp
      (writeMultipleCoils_precheck hpre htop u n payload _)
    exact ⟨t, ht, hanswers, fun _ => hm, fun h => by simp at h⟩
  | false =>
    have haddr := addr.isLt
    have hbits : (unpackBits s.params.coilMsbFirst payload count.toNat).length = count.toNat := length_unpackBits ..
    have hraised : (writeBits (u.toNat : Int) .CO s.memory addr.toNat
        (unpackBits s.params.coilMsbFirst payload count.toNat)).2 ≠ none := by
      rw [Ne, writeBits_done_iff, ← List.length_eq_zero_iff]
      omega
    obtain ⟨t, ht, hanswers, hm⟩ := exec_run_raised (fn := .writeMultipleCoils) rfl hp
      (writeMultipleCoils_runs hlen hcount (.inl hpre)) hraised
    refine ⟨t, ht, hanswers, fun h => by simp at h, fun _ => ⟨fun k hk => ?_, ?_⟩⟩ <;> rw [hm]
    · have hlt : k < count.toNat := by omega
      rw [writeBits_reads _ _ _ _ _ hw hp k (by rwa [hbits]) hk]
      exact unpackBits_getD _ payload hlt
    · exact sameButBits_writeBits _ _ _ _ fun x hlo _ hmax => ⟨hlo, hmax⟩

/-! ## Pad bits and empty writes -/

/-- The delay of a response sees the length and the quantity of its request and no other byte (R305, R306). -/
theorem dueFor_congr {f f' : Frame} (hlen : f.length = f'.length) (hcount : registerCount f = registerCount f')
    (p : Params) (tm : Option TimingConfig) (k : Nat) : dueFor p tm f k = dueFor p tm f' k := by
  cases tm with
  | none => rfl
  | some t => simp only [dueFor, delay, perRegister, transmission, hlen, hcount]

/-- A request is known to its answer by its unit, its function, its handler, its length and its quantity (R120). -/
theorem exec_eq_of_handlerOf_eq {i j : Instr} {s : State} (hunit : i.unit = j.unit) (hfn : i.fn = j.fn)
    (hlen : (encode i).length = (encode j).length) (hcount : registerCount (encode i) = registerCount (encode j))
    (hhandler : handlerOf s.params i = handlerOf s.params j) : exec i s = exec j s := by
  rw [exec_eq_serve, exec_eq_serve, hunit, hfn, hhandler]
  simp only [serve, takeException, respond, dueFor_congr hlen hcount]

/-- A 0x0F handler looks at the length of its payload and at the coils its quantity names (R171). -/
theorem handlerOf_writeMultipleCoils_congr {p : Params} {count : Word16} {payload payload' : Frame}
    (hlen : payload.length = payload'.length)
    (hcoils : ∀ k < count.toNat, coilBit p.coilMsbFirst payload k = coilBit p.coilMsbFirst payload' k)
    (u n : Byte) (addr : Word16) :
    handlerOf p (.writeMultipleCoils u addr count n payload) =
      handlerOf p (.writeMultipleCoils u addr count n payload') := by
  have hbits : unpackBits p.coilMsbFirst payload count.toNat = unpackBits p.coilMsbFirst payload' count.toNat :=
    List.map_congr_left fun k hk => hcoils k (List.mem_range.mp hk)
  have hecho : replyWrite (encode (.writeMultipleCoils u addr count n payload)) =
      replyWrite (encode (.writeMultipleCoils u addr count n payload')) := replyWrite_congr rfl
  funext m
  simp only [handlerOf, writeMultipleCoilsHandler, hlen, hbits, hecho]

/-- Settles O26: payloads that differ in pad bits have one handler, and a run of no cells reaches its end at once. -/
theorem padBitsAndZeroCounts : Obligations.PadBitsAndZeroCounts := by
  constructor
  · intro s u addr count n payload payload' hlen hcoils
    refine exec_eq_of_handlerOf_eq rfl rfl ?_ rfl (handlerOf_writeMultipleCoils_congr hlen hcoils u n addr)
    simp only [encode, length_encodeRqm, hlen]
  · intro s u addr hp
    have hempty : addr.toNat + (0#16).toNat ≤ 65536 := Nat.le_of_lt addr.isLt
    exact ⟨exec_run_done hp (writeMultipleCoils_runs rfl rfl (.inr hempty)) rfl,
      exec_run_done hp (writeMultipleRegisters_runs rfl rfl (.inr hempty)) rfl⟩

/-! ## The frame of every write -/

/-- A write's reply is the echo or a raise, as its run of cells reaches its end or not (R85, R86, R127). -/
theorem replyWrite_cases (f : Frame) (r : Memory × Option ValidationError) :
    replyWrite f r = .answer r.1 (f.take 6) ∨ (r.2 ≠ none ∧ replyWrite f r = .raise r.1) := by
  by_cases hr : r.2 = none
  · exact .inl (replyWrite_done hr)
  · exact .inr ⟨hr, replyWrite_raised hr⟩

/-- What a write's handler makes of a request: the echo, or a raise, which leaves memory alone unless the span passes
the top (R160, R172). -/
theorem write_reply_cases (p : Params) {i : Instr} (hi : IsRead i = false) (m : Memory) :
    ∃ m', handlerOf p i m = .answer m' ((encode i).take 6) ∨
      (handlerOf p i m = .raise m' ∧ (m' = m ∨ 65536 < i.addr.toNat + i.cells)) := by
  rcases write_cases p hi m with h | ⟨-, vs, hlen, h⟩ | ⟨-, vs, hlen, h⟩
  · exact ⟨m, .inr ⟨h, .inl rfl⟩⟩
  · rw [h, ← hlen]
    refine ⟨_, (replyWrite_cases _ _).imp_right fun ⟨hraised, hr⟩ => ⟨hr, .inr ?_⟩⟩
    rw [Ne, writeBits_done_iff, not_or] at hraised
    exact Nat.not_le.mp hraised.2
  · rw [h, ← hlen]
    refine ⟨_, (replyWrite_cases _ _).imp_right fun ⟨hraised, hr⟩ => ⟨hr, .inr ?_⟩⟩
    rw [Ne, writeRegs_done_iff, not_or] at hraised
    exact Nat.not_le.mp hraised.2

/-- Everything a write can answer: the echo, or an exception frame with code 0x03 or 0x0B, which leaves memory alone
unless the span passes the top (R172). -/
theorem exec_write_cases {i : Instr} {s t : State} (hi : IsRead i = false) (h : exec i s = .next t) :
    Answers s t ((encode i).take 6) ∨
    ∃ code ∈ ([0x03, 0x0B] : List Byte), Answers s t [i.unit, i.fn.code ||| 0x80, code] ∧
      (t.memory = s.memory ∨ 65536 < i.addr.toNat + i.cells) := by
  cases hd : findDevice s.memory (i.unit.toNat : Int) with
  | none =>
    rw [exec_eq_serve, serve_absent hd] at h
    cases h
    exact .inr ⟨0x0B, by decide, answers_respond' s none _ _, .inl rfl⟩
  | some d =>
    obtain ⟨m, hr | ⟨hr, hm⟩⟩ := write_reply_cases s.params hi s.memory
    · rw [exec_answer hd hr] at h
      cases h
      exact .inl (answers_respond s m d.timing _ _)
    · rw [exec_raise hd hr] at h
      cases h
      exact .inr ⟨0x03, by decide, answers_respond s m d.timing _ _, hm⟩

/-- The channel form of the pending response tells the core response (R210). -/
theorem answers_core_eq {s t : State} {c c' : Frame} (h : Answers s t c)
    (h' : t.pending = some (frameOut s.params c')) : c = c' :=
  frameOut_inj (Option.some.inj (h.pending.symm.trans h'))

theorem code_ne_errorCode (fn : Fn) : fn.code ≠ fn.code ||| 0x80 := by cases fn <;> decide

/-- The echo of a request is no exception frame (R96). -/
theorem take_encode_ne_exception (i : Instr) (code : Byte) :
    (encode i).take 6 ≠ [i.unit, i.fn.code ||| 0x80, code] := by
  intro h
  obtain ⟨-, -, hcode⟩ := take_encode i
  rw [h] at hcode
  exact code_ne_errorCode i.fn hcode.symm

/-- An exception frame that a write left pending (R172). -/
theorem exec_write_exception {i : Instr} {s t : State} (hi : IsRead i = false) (h : exec i s = .next t) {code : Byte}
    (hpending : t.pending = some (frameOut s.params [i.unit, i.fn.code ||| 0x80, code])) :
    code ∈ ([0x03, 0x0B] : List Byte) ∧ (t.memory = s.memory ∨ 65536 < i.addr.toNat + i.cells) := by
  rcases exec_write_cases hi h with hecho | ⟨code', hmem, hexc, hm⟩
  · exact absurd (answers_core_eq hecho hpending) (take_encode_ne_exception i code)
  · obtain rfl : code' = code := by simpa using answers_core_eq hexc hpending
    exact ⟨hmem, hm⟩

/-- Settles O27: the frame of every instruction, and the exception frames a write can leave pending. -/
theorem writesKeepTheirFrame : Obligations.WritesKeepTheirFrame := by
  intro i s t hi h
  obtain ⟨-, -, -, -, hcoils, hregs⟩ := execKeepsItsFrame i s t h
  refine ⟨hcoils, hregs, fun hpending => ?_, fun code hpending => (exec_write_exception hi h hpending).2⟩
  exact absurd (exec_write_exception hi h hpending).1 (by decide)

/-! ## Reading back what was written -/

theorem present_of_timing_eq {m m' : Memory} {u : Int}
    (h : (findDevice m' u).map Device.timing = (findDevice m u).map Device.timing) : present m' u = present m u := by
  simpa [present] using congrArg Option.isSome h

theorem be16_inj {h l h' l' : Byte} (heq : be16 h l = be16 h' l') : h = h' ∧ l = l' :=
  ⟨by simpa using congrArg hi8 heq, by simpa using congrArg lo8 heq⟩

/-- Register payloads are told apart by their registers (R89). -/
theorem eq_of_wireRegister {d p : Frame} {n : Nat} (hd : d.length = 2 * n) (hp : p.length = 2 * n)
    (h : ∀ k < n, wireRegister d k = wireRegister p k) : d = p := by
  apply List.ext_getElem (hd.trans hp.symm)
  intro j hjd hjp
  obtain ⟨hhi, hlo⟩ := be16_inj (h (j / 2) (by omega))
  rw [← List.getD_eq_getElem _ 0#8, ← List.getD_eq_getElem _ 0#8]
  rcases Nat.mod_two_eq_zero_or_one j with hj | hj
  · rwa [show 2 * (j / 2) = j by omega] at hhi
  · rwa [show 2 * (j / 2) + 1 = j by omega] at hlo

/-- Settles O31: the read finds the registers that the write left, and they spell the payload. -/
theorem writeThenReadRegisters : Obligations.WriteThenReadRegisters := by
  intro s t u addr count n payload extra hw hp hlen hcount hfit hroom h
  obtain ⟨t₁, ht₁, hanswers, hcells, hsame⟩ :=
    writeMultipleRegistersResult s u addr count n payload hw hp hlen hcount hfit
  obtain rfl : t₁ = t := Host.Outcome.next.inj (ht₁.symm.trans h)
  obtain ⟨t', data, ht', hread, hdata, hregs, -⟩ :=
    exec_regRead (s := presentResponse t₁) (b := .HR) (extra := extra)
      ((present_of_timing_eq (hsame.records _)).trans hp) (hanswers.params ▸ hroom)
  have hpayload : data = payload :=
    eq_of_wireRegister hdata (by omega) fun k hk => (hregs k hk).trans (hcells k hk)
  have hn : BitVec.ofNat 8 (2 * count.toNat) = n := by rw [← hcount, BitVec.ofNat_toNat, BitVec.setWidth_eq]
  rw [hn, hpayload] at hread
  exact ⟨t', ht', hread⟩

/-- Settles O32: the read finds the coils that the write left, and packs them as they were packed. -/
theorem writeThenReadCoils : Obligations.WriteThenReadCoils := by
  intro s t u addr count n bits extra hw hp hlen hcount hfit hroom h
  have hpacked : (packBits s.params.coilMsbFirst bits).length = ceilDiv count.toNat 8 := by
    rw [length_packBits, hlen]
  obtain ⟨t₁, ht₁, hanswers, hcells, hsame⟩ :=
    writeMultipleCoilsResult s u addr count n _ hw hp (hcount.trans hpacked.symm) hcount hfit
  obtain rfl : t₁ = t := Host.Outcome.next.inj (ht₁.symm.trans h)
  obtain ⟨t', data, ht', hread, hdata, hbits, hpad, -⟩ :=
    exec_bitRead (s := presentResponse t₁) (b := .CO) (extra := extra)
      ((present_of_timing_eq (hsame.records _)).trans hp) (hanswers.params ▸ hroom)
  rw [presentResponse_params, hanswers.params] at hbits hpad
  have hpayload : data = packBits s.params.coilMsbFirst bits := by
    refine eq_of_payloadBit (msb := s.params.coilMsbFirst) (hdata.trans hpacked.symm) fun k hk => ?_
    rw [hpacked] at hk
    by_cases hcoil : k < count.toNat
    · exact (hbits k hcoil).trans (hcells k hcoil)
    · rw [payloadBit_packBits _ _ (hlen ▸ hk), List.getD_eq_default _ _ (by omega)]
      exact hpad k hk (Nat.le_of_not_lt hcoil)
  have hn : BitVec.ofNat 8 (ceilDiv count.toNat 8) = n := by rw [← hcount, BitVec.ofNat_toNat, BitVec.setWidth_eq]
  rw [hn, hpayload] at hread
  exact ⟨t', ht', hread⟩

end Sys2Proof.Proofs

/-!
The statements about the client codec (43_client_codec.md). The builder's equations give its layouts and its refusals.
The framing stage gives the client back the core response; `parseFor_read` and `parseFor_write` say once what the parser
makes of a frame under the request's own header, and `parseFor_exception` what it makes of an exception frame. What the
server answers then decides what the client reads.
-/

namespace Sys2Proof.Proofs

open Sys2Proof Sys2Proof.Machine Sys2Proof.Safety Sys2Proof.Laws

/-! ## The builder -/

section
variable (msb : Bool) (u : Byte) (a : Word16)

theorem buildInstr_coils_refused {bits : List Bool} (h : 2040 < bits.length) :
    buildInstr msb u (.writeMultipleCoils a bits) = none := if_pos h

theorem buildInstr_coils {bits : List Bool} (h : bits.length ≤ 2040) :
    buildInstr msb u (.writeMultipleCoils a bits) = some (.writeMultipleCoils u a (BitVec.ofNat 16 bits.length)
      (BitVec.ofNat 8 (ceilDiv bits.length 8)) (packBits msb bits)) := if_neg (Nat.not_lt.mpr h)

theorem buildInstr_registers_refused {bytes : Frame} (h : bytes.length % 2 = 1 ∨ 254 < bytes.length) :
    buildInstr msb u (.writeMultipleRegisters a bytes) = none := if_pos (by simpa using h)

theorem buildInstr_registers {bytes : Frame} (heven : bytes.length % 2 = 0) (h : bytes.length ≤ 254) :
    buildInstr msb u (.writeMultipleRegisters a bytes) = some (.writeMultipleRegisters u a
      (BitVec.ofNat 16 (bytes.length / 2)) (BitVec.ofNat 8 bytes.length) bytes) :=
  if_neg (by simp [heven, h])

end

/-- The byte count of as many coils as the builder takes fits its byte (R188). -/
theorem toNat_coilByteCount {n : Nat} (h : n ≤ 2040) : (BitVec.ofNat 8 (ceilDiv n 8)).toNat = ceilDiv n 8 := by
  rw [BitVec.toNat_ofNat]
  unfold ceilDiv
  omega

/-- A quantity the builder takes fits its field (R188, R189). -/
theorem toNat_quantity {n : Nat} (h : n ≤ 2040) : (BitVec.ofNat 16 n).toNat = n := by
  rw [BitVec.toNat_ofNat]
  omega

/-- What the builder builds is well-formed and addressed to the unit it was given (R181, R90). -/
theorem buildInstr_wellFormed {msb : Bool} {u : Byte} {op : ClientOp} {i : Instr}
    (h : buildInstr msb u op = some i) : WellFormed i = true ∧ i.unit = u := by
  cases op with
  | readCoils | readDiscreteInputs | readHoldingRegisters | readInputRegisters | writeSingleRegister =>
    cases h
    exact ⟨rfl, rfl⟩
  | writeSingleCoil a v =>
    cases h
    cases v <;> exact ⟨rfl, rfl⟩
  | writeMultipleCoils a bits =>
    rcases Nat.lt_or_ge 2040 bits.length with hlong | hfits
    · simp [buildInstr_coils_refused msb u a hlong] at h
    · rw [buildInstr_coils msb u a hfits] at h
      cases h
      refine ⟨?_, rfl⟩
      simp only [WellFormed, toNat_coilByteCount hfits, toNat_quantity hfits, length_packBits, decide_true,
        Bool.and_true]
  | writeMultipleRegisters a bytes =>
    by_cases hrefused : bytes.length % 2 = 1 ∨ 254 < bytes.length
    · simp [buildInstr_registers_refused msb u a hrefused] at h
    · have heven : bytes.length % 2 = 0 := by omega
      have hfits : bytes.length ≤ 254 := by omega
      rw [buildInstr_registers msb u a heven hfits] at h
      cases h
      refine ⟨?_, rfl⟩
      simp only [WellFormed, BitVec.toNat_ofNat, Bool.and_eq_true, decide_eq_true_eq]
      omega

/-- Settles O57: the layouts are those of `encode`, and the refusals are the two bounds. -/
theorem builderBuildsTheLayouts : Obligations.BuilderBuildsTheLayouts := by
  refine ⟨fun msb u a c v bits bytes => ⟨rfl, rfl, rfl, rfl, by cases v <;> rfl, rfl, fun hlong => ?_, fun hfits => ?_,
    fun hrefused => ?_, fun heven hfits => ?_⟩, fun msb u op i h => buildInstr_wellFormed h⟩
  · rw [buildRequest, buildInstr_coils_refused msb u a hlong, Option.map_none]
  · refine ⟨packBits msb bits, _, ?_, toNat_quantity hfits, length_packBits msb bits,
      fun k hk => coilBit_packBits msb bits hk⟩
    rw [buildRequest, buildInstr_coils msb u a hfits]
    rfl
  · rw [buildRequest, buildInstr_registers_refused msb u a hrefused, Option.map_none]
  · refine ⟨_, ?_, toNat_quantity (by omega)⟩
    rw [buildRequest, buildInstr_registers msb u a heven hfits]
    rfl

/-! ## The framing stage in front of the parser -/

/-- The check accepts a trailer that was appended (R215, R216). -/
theorem checkStrip_addCrc (c : Frame) : checkStrip (addCrc c) = some c := by
  have hlen : (addCrc c).length - 2 = c.length := by simp
  have htake : (addCrc c).take c.length = c := List.take_left
  have hdrop : (addCrc c).drop c.length = crcTrailer c := List.drop_left
  simp only [checkStrip, hlen, htake, hdrop]
  simp

theorem frameIn_crc {p : Params} (h : p.crcEnable = true) (w : Frame) : frameIn p w = checkStrip w := if_pos h

theorem frameIn_plain {p : Params} (h : p.crcEnable = false) (w : Frame) : frameIn p w = some w :=
  if_neg (by simp [h])

/-- What leaves one end of a channel arrives at the other as the same core frame (R210). -/
theorem frameIn_frameOut (p : Params) (c : Frame) : frameIn p (frameOut p c) = some c := by
  cases hcrc : p.crcEnable <;> simp [frameIn, frameOut, hcrc, checkStrip_addCrc]

theorem parseWire_bad {p : Params} {w : Frame} (h : frameIn p w = none) (q : Instr) :
    parseWire p q w = .malformed .crc := by
  simp only [parseWire, h]

theorem parseWire_good {p : Params} {w r : Frame} (h : frameIn p w = some r) (q : Instr) :
    parseWire p q w = parseFor q r := by
  simp only [parseWire, h]

/-- The client parses the core response the server sent (R210). -/
theorem parseWire_frameOut (p : Params) (q : Instr) (c : Frame) : parseWire p q (frameOut p c) = parseFor q c :=
  parseWire_good (frameIn_frameOut p c) q

/-! ## The parser, an equation per check (R191) -/

theorem parseFor_short {r : Frame} (h : r.length < 3) (q : Instr) : parseFor q r = .malformed .short := by
  match r with
  | [] | [_] | [_, _] => rfl
  | _ :: _ :: _ :: _ => simp only [List.length_cons] at h; omega

theorem code_ne_withErrorBit (fn : Fn) : fn.code ≠ withErrorBit fn.code := code_ne_errorCode fn

theorem expectedData_read {q : Instr} (hq : IsRead q = true) : expectedData q = some (readLength q) := by
  cases q with
  | readCoils | readDiscreteInputs | readHoldingRegisters | readInputRegisters => rfl
  | writeSingleCoil | writeSingleRegister | writeMultipleCoils | writeMultipleRegisters => simp [IsRead] at hq

theorem expectedData_write {q : Instr} (hq : IsRead q = false) : expectedData q = none := by
  cases q with
  | readCoils | readDiscreteInputs | readHoldingRegisters | readInputRegisters => simp [IsRead] at hq
  | writeSingleCoil | writeSingleRegister | writeMultipleCoils | writeMultipleRegisters => rfl

section
variable (q : Instr) (third : Byte) (rest : Frame)

theorem parseFor_otherUnit {x : Byte} (h : x ≠ q.unit) (fc : Byte) :
    parseFor q (x :: fc :: third :: rest) = .malformed .unit := by
  simp only [parseFor, if_pos h]

/-- A frame with the request's unit id and its function code with bit 7 set (R195). -/
theorem parseFor_exception :
    parseFor q (q.unit :: withErrorBit q.fn.code :: third :: rest) =
      if rest = [] then .modbusException third else .malformed .length := by
  cases rest <;> simp [parseFor]

theorem parseFor_otherFunction {fc : Byte} (hexc : fc ≠ withErrorBit q.fn.code) (hfc : fc ≠ q.fn.code) :
    parseFor q (q.unit :: fc :: third :: rest) = .malformed .function := by
  simp [parseFor, hexc, hfc]

variable {q}

/-- A frame under the header of a read request: its length, then its third byte (R192). -/
theorem parseFor_read (hq : IsRead q = true) :
    parseFor q (q.unit :: q.fn.code :: third :: rest) =
      if rest.length ≠ readLength q then .malformed .length
      else if third ≠ byteCountOf (readLength q) then .malformed .bytecount
      else .data rest := by
  have hlen : rest.length + 1 + 1 + 1 = 3 + readLength q ↔ rest.length = readLength q := by omega
  simp [parseFor, code_ne_withErrorBit, expectedData_read hq, parseRead, hlen]

/-- A frame under the header of a write request is compared with the request's first six bytes (R193, R194). -/
theorem parseFor_write (hq : IsRead q = false) :
    parseFor q (q.unit :: q.fn.code :: third :: rest) =
      parseEcho (encode q) (q.unit :: q.fn.code :: third :: rest) := by
  simp [parseFor, code_ne_withErrorBit, expectedData_write hq]

end

theorem ne_byteCountOf_iff {third : Byte} {n : Nat} : third ≠ byteCountOf n ↔ third.toNat ≠ n % 256 := by
  simp [byteCountOf, ← BitVec.toNat_inj]

theorem length_take_encode (q : Instr) : ((encode q).take 6).length = 6 := by cases q <;> rfl

/-- The echo of a write request is compared byte for byte (R193, R194). -/
theorem parseEcho_echo (q : Instr) : parseEcho (encode q) ((encode q).take 6) = .done := by
  rw [parseEcho, if_neg (not_not.mpr (length_take_encode q)), if_neg (not_not.mpr rfl)]

/-- Settles O58, by the equation of each check. -/
theorem parserChecksInOrder : Obligations.ParserChecksInOrder := by
  constructor
  · intro p q w
    exact ⟨fun hcrc hbad => parseWire_bad ((frameIn_crc hcrc w).trans hbad) q,
      fun r hcrc hgood => parseWire_good ((frameIn_crc hcrc w).trans hgood) q,
      fun hcrc => parseWire_good (frameIn_plain hcrc w) q⟩
  · intro q r
    refine ⟨fun hshort => parseFor_short hshort q, ?_⟩
    rintro x fc third rest rfl
    refine ⟨fun hunit => parseFor_otherUnit q third rest hunit fc, ?_, ?_, ?_, ?_⟩
    · rintro rfl rfl
      have hparse := parseFor_exception q third rest
      exact ⟨fun hrest => hparse.trans (if_neg hrest), fun hrest => hparse.trans (if_pos hrest)⟩
    · rintro rfl hexc hfc
      exact parseFor_otherFunction q third rest hexc hfc
    · rintro rfl rfl hq
      simp only [parseFor_read third rest hq, ne_byteCountOf_iff]
      refine ⟨fun hlen => if_pos hlen, fun hlen hcount => ?_, fun hlen hcount => ?_⟩
      · rw [if_neg (not_not.mpr hlen), if_pos hcount]
      · rw [if_neg (not_not.mpr hlen), if_neg (not_not.mpr hcount)]
    · rintro rfl rfl hq
      rw [parseFor_write third rest hq]
      refine ⟨fun hlen => if_pos hlen, fun hlen hecho => ?_, fun hecho => ?_⟩
      · rw [parseEcho, if_neg (not_not.mpr hlen), if_pos hecho]
      · rw [hecho, parseEcho_echo]

/-! ## What the client makes of the server's answers (R196) -/

theorem parseFor_excFrame (q : Instr) (code : Byte) :
    parseFor q [q.unit, withErrorBit q.fn.code, code] = .modbusException code :=
  (parseFor_exception q code []).trans (if_pos rfl)

/-- A read response with as many data bytes as the request asks for is parsed to them (R84, R192). -/
theorem parseFor_readResponse {q : Instr} (hq : IsRead q = true) {data : Frame} (hlen : data.length = readLength q) :
    parseFor q (readResponse q.unit q.fn.code data) = .data data := by
  have hparse := parseFor_read (byteCountOf data.length) data hq
  rwa [if_neg (not_not.mpr hlen), if_neg (not_not.mpr (by rw [hlen]))] at hparse

/-- The echo of a write request is parsed as its success (R85, R86, R193, R194). -/
theorem parseFor_echo {q : Instr} (hq : IsRead q = false) : parseFor q ((encode q).take 6) = .done := by
  have hheader : ∃ third rest, (encode q).take 6 = q.unit :: q.fn.code :: third :: rest := by
    cases q <;> exact ⟨_, _, rfl⟩
  obtain ⟨third, rest, htake⟩ := hheader
  rw [htake, parseFor_write third rest hq, ← htake, parseEcho_echo]

/-- Settles O59: the read's response comes through the framing stage and is parsed to the data that the read answers. -/
theorem readRoundTrip : Obligations.ReadRoundTrip := by
  intro s u addr count hp
  constructor
  · intro op b hop
    refine ⟨regRead b u addr count [], by rcases hop with ⟨rfl, rfl⟩ | ⟨rfl, rfl⟩ <;> rfl, fun hroom => ?_⟩
    obtain ⟨t, data, ht, hanswers, hlen, hcells, -⟩ := exec_regRead hp hroom
    refine ⟨t, _, data, (dispatchFrame_instr (decode_encode _) s).trans ht, hanswers.pending, ?_, hlen, hcells⟩
    rw [parseWire_frameOut, ← hlen]
    cases b <;> exact parseFor_readResponse rfl hlen
  · intro op b hop
    refine ⟨bitRead b u addr count [], by rcases hop with ⟨rfl, rfl⟩ | ⟨rfl, rfl⟩ <;> rfl, fun hroom => ?_⟩
    obtain ⟨t, data, ht, hanswers, hlen, hcells, -⟩ := exec_bitRead hp hroom
    refine ⟨t, _, data, (dispatchFrame_instr (decode_encode _) s).trans ht, hanswers.pending, ?_, hlen, hcells⟩
    rw [parseWire_frameOut, ← hlen]
    cases b <;> exact parseFor_readResponse rfl hlen

/-- Everything a read can answer: its data, or an exception frame (R122, R140). -/
theorem exec_read_cases {i : Instr} {s t : State} (hi : IsRead i = true) (h : exec i s = .next t) :
    Answers s t (readResponse i.unit i.fn.code (dataOfRead s.params s.memory i)) ∨
    ∃ code, Answers s t [i.unit, withErrorBit i.fn.code, code] := by
  obtain ⟨m, tm, r, rfl, ⟨-, -, -, rfl⟩ | ⟨d, -, -, -, hanswer | ⟨-, rfl⟩⟩⟩ := exec_next h
  · exact .inr ⟨_, answers_respond s m tm _ _⟩
  · left
    rw [handlerOf_read s.params hi] at hanswer
    rcases replyRead_cases s.params i.unit i.fn.code s.memory (dataOfRead s.params s.memory i) with
      ⟨-, hreply⟩ | ⟨-, hreply⟩ <;> rw [hreply] at hanswer <;> cases hanswer
    exact answers_respond s _ tm _ _
  · exact .inr ⟨_, answers_respond s m tm _ _⟩

/-- The client makes data, success or an exception code of every answer to an instruction (R196). -/
theorem exec_parsed {i : Instr} {s t : State} (h : exec i s = .next t) :
    ∃ c, Answers s t c ∧ ∀ why, parseFor i c ≠ .malformed why := by
  cases hi : IsRead i with
  | true =>
    rcases exec_read_cases hi h with hdata | ⟨code, hexc⟩
    · exact ⟨_, hdata, fun why => by simp [parseFor_readResponse hi]⟩
    · exact ⟨_, hexc, fun why => by simp [parseFor_excFrame]⟩
  | false =>
    rcases exec_write_cases hi h with hecho | ⟨code, -, hexc, -⟩
    · exact ⟨_, hecho, fun why => by simp [parseFor_echo hi]⟩
    · exact ⟨_, hexc, fun why hparse => nomatch (parseFor_excFrame i code).symm.trans hparse⟩

/-- Settles O60: a frame decodes to the instruction it was built from, and the client parses every answer to an
instruction, so of the builder only that its frame encodes one is needed. -/
theorem builtRequestsNeverMalformed : Obligations.BuiltRequestsNeverMalformed := by
  intro s t u op i w _ ht hpending why
  rw [dispatchFrame_instr (decode_encode i)] at ht
  obtain ⟨c, hanswers, hparse⟩ := exec_parsed ht
  obtain rfl : frameOut s.params c = w := Option.some.inj (hanswers.pending.symm.trans hpending)
  rw [parseWire_frameOut]
  exact hparse why

end Sys2Proof.Proofs

/-!
The statements about the framing stage (44_crc_framing.md). Shifting the checksum loses nothing, so a running checksum
comes to 0 over two more bytes exactly when they are its own, low byte first (`crcFrom_pair_eq_zero_iff`); the residue
follows from that. That responses keep the channel's form is an invariant of `MoveEffect`.
-/

namespace Sys2Proof.Proofs

open Sys2Proof Sys2Proof.Machine Sys2Proof.Safety Sys2Proof.Laws

/-! ## Responses in the channel's form -/

/-- An answer of three bytes or more is framed on its way to `PENDING` (R210, R215). -/
theorem responsesGood_of_answers {s t : State} {c : Frame} (hs : ResponsesGood s) (h : Answers s t c)
    (hlength : 3 ≤ c.length) : ResponsesGood t where
  pending_good w hw := ⟨c, by rw [h.params]; exact Option.some.inj (hw.symm.trans h.pending), hlength⟩
  presented_good w hw := h.params ▸ hs.presented_good w (h.responses ▸ hw)

/-- Every move keeps the responses good: only an answer makes a new one, and presenting moves the pending one (R309). -/
theorem moveEffect_responsesGood {s t : State} {tr : Turn} (hs : ResponsesGood s) (h : MoveEffect s tr t) :
    ResponsesGood t := by
  cases h with
  | submit | clockBusy | host => exact { hs with }
  | waits | clockIdle | notDue => exact hs
  | drop | reset => exact { hs with pending_good := nofun }
  | take => exact { hs with presented_good := fun w hw => hs.presented_good w (List.mem_of_mem_tail hw) }
  | @accept _ _ rest _ _ _ _ _ ht =>
    obtain ⟨c, hanswers, hc⟩ := dispatchFrame_answers ht
    have hs' : ResponsesGood { s with requests := rest } := { hs with }
    exact responsesGood_of_answers hs' hanswers (respondsTo_length hc)
  | present =>
    refine { pending_good := nofun, presented_good := fun w hw => ?_ }
    rcases List.mem_append.mp hw with hold | hpending
    · exact hs.presented_good w hold
    · exact hs.pending_good w (Option.mem_toList.mp hpending)

/-- Settles O35: a step is the effect of one move, and every move keeps the responses good. -/
theorem stepKeepsResponsesGood : Obligations.StepKeepsResponsesGood := by
  intro s t hs h
  obtain ⟨tr, ts, heff, -⟩ := step_effect h
  exact moveEffect_responsesGood (s := { s with turns := ts }) { hs with } heff

/-! ## The check and the trailer (R215, R216) -/

/-- Settles O47: the check compares the last two bytes with the trailer of the rest, which is how `addCrc` builds. -/
theorem checkStripInvertsAddCrc : Obligations.CheckStripInvertsAddCrc := by
  intro w c
  constructor
  · intro h
    unfold checkStrip at h
    split_ifs at h with hshort htrailer
    obtain rfl := Option.some.inj h
    rw [addCrc, ← htrailer, List.take_append_drop]
  · rintro rfl
    exact checkStrip_addCrc c

theorem isSome_checkStrip_iff {w : Frame} : (checkStrip w).isSome = true ↔ ∃ c, w = addCrc c := by
  rw [Option.isSome_iff_exists]
  exact exists_congr (checkStripInvertsAddCrc w)

/-! ## The residue (R220) -/

/-- `be16` puts its two bytes in a row (R11). -/
theorem be16_eq_append (hi lo : Byte) : be16 hi lo = hi ++ lo := by
  apply BitVec.eq_of_toNat_eq
  rw [toNat_be16, BitVec.toNat_append, Nat.shiftLeft_eq, Nat.mul_comm]
  exact Nat.two_pow_add_eq_or_of_lt lo.isLt _

/-- A word's own low byte clears its low byte. -/
theorem be16_xor_low (hi lo : Byte) : be16 hi lo ^^^ lo.setWidth 16 = be16 hi 0#8 := by
  have hlow : lo.setWidth 16 = 0#8 ++ lo := BitVec.setWidth_eq_append (by decide)
  calc be16 hi lo ^^^ lo.setWidth 16
    _ = (hi ++ lo) ^^^ (0#8 ++ lo) := by rw [be16_eq_append, hlow]
    _ = (hi ^^^ 0#8) ++ (lo ^^^ lo) := BitVec.xor_append
    _ = be16 hi 0#8 := by rw [BitVec.xor_zero, BitVec.xor_self, be16_eq_append]

theorem crcShift8_eq_zero_iff {c : Word16} : crcShift8 c = 0#16 ↔ c = 0#16 := by
  have hzero : crcShift8 0#16 = 0#16 := by decide
  exact ⟨fun h => crcShift8_inj (h.trans hzero.symm), fun h => h ▸ hzero⟩

/-- A checksum comes to 0 over a byte exactly when it is that byte. -/
theorem crcByte_eq_zero_iff {c : Word16} {b : Byte} : crcByte c b = 0#16 ↔ c = b.setWidth 16 := by
  rw [crcByte, crcShift8_eq_zero_iff, BitVec.xor_eq_zero_iff]

/-- A checksum comes to a high byte over a low byte exactly when it is made of the two. -/
theorem crcByte_eq_setWidth_iff {c : Word16} {lo hi : Byte} : crcByte c lo = hi.setWidth 16 ↔ c = be16 hi lo := by
  calc crcByte c lo = hi.setWidth 16
    _ ↔ crcShift8 (c ^^^ lo.setWidth 16) = crcShift8 (be16 hi 0#8) := by rw [crcByte, crcShift8_high]
    _ ↔ c ^^^ lo.setWidth 16 = be16 hi 0#8 := ⟨crcShift8_inj, congrArg _⟩
    _ ↔ c = be16 hi lo := by rw [← be16_xor_low hi lo, BitVec.xor_left_inj]

/-- A running checksum comes to 0 over two bytes exactly when they are its own, low byte first (R214, R220). -/
theorem crcFrom_pair_eq_zero_iff {c : Word16} {lo hi : Byte} : crcFrom c [lo, hi] = 0#16 ↔ c = be16 hi lo := by
  rw [crcFrom_cons, crcFrom_cons, crcFrom_nil, crcByte_eq_zero_iff, crcByte_eq_setWidth_iff]

theorem crc16_addCrc (c : Frame) : crc16 (addCrc c) = 0#16 := by
  rw [addCrc, crcTrailer, crc16, crcFrom_append, crcFrom_pair_eq_zero_iff, be16_hi8_lo8, crc16]

/-- Two bytes that bring the checksum to 0 are the trailer. -/
theorem append_pair_eq_addCrc {c : Frame} {lo hi : Byte} (h : crc16 (c ++ [lo, hi]) = 0#16) :
    c ++ [lo, hi] = addCrc c := by
  rw [crc16, crcFrom_append, crcFrom_pair_eq_zero_iff] at h
  rw [addCrc, crcTrailer, crc16, h, lo8_be16, hi8_be16]

theorem exists_append_pair {w : Frame} (h : 2 ≤ w.length) : ∃ c lo hi, w = c ++ [lo, hi] := by
  obtain ⟨lo, hi, hdrop⟩ : ∃ lo hi, w.drop (w.length - 2) = [lo, hi] :=
    List.length_eq_two.mp (by rw [List.length_drop]; omega)
  exact ⟨w.take (w.length - 2), lo, hi, by rw [← hdrop, List.take_append_drop]⟩

/-- Settles O46: a frame of two or more bytes is a core frame and two bytes more, which bring the checksum to 0 exactly
when they are the trailer. -/
theorem crcResidueIsZero : Obligations.CrcResidueIsZero := by
  refine ⟨crc16_addCrc, fun w hlength => isSome_checkStrip_iff.trans ⟨?_, fun hzero => ?_⟩⟩
  · rintro ⟨c, rfl⟩
    exact crc16_addCrc c
  · obtain ⟨c, lo, hi, rfl⟩ := exists_append_pair hlength
    exact ⟨c, append_pair_eq_addCrc hzero⟩

/-! ## A bad frame, and the worked example -/

/-- With RUN set and `BUSY` clear the dispatcher's move drops a frame that the framing stage finds bad (R217). -/
theorem step_drops {s : State} {ts : List Turn} {w : Frame} {rest : List Frame} (hrun : s.run = true)
    (hidle : s.busy = false) (hq : s.requests = w :: rest) (hturns : s.turns = .dispatch :: ts)
    (hfits : fitsChannel s.params w.length = true) (hframe : frameIn s.params w = none) :
    step s = .next (goIdle { s with requests := rest, turns := ts }) := by
  rw [step_dispatch (.inl hturns)]
  simp [dispatchTurn, receiveFrame, hrun, hidle, hq, hfits, hframe]

/-- Settles O45: the block goes idle over the state without the frame. -/
theorem badCrcIsDropped : Obligations.BadCrcIsDropped := by
  intro s ts w rest hcrc hturns hrun hidle hq hfits hbad
  have hstep := step_drops hrun hidle hq hturns hfits ((frameIn_crc hcrc w).trans hbad)
  exact ⟨_, hstep, rfl, rfl, rfl, rfl, rfl, rfl, hrun, rfl⟩

/-- Settles O48: closed values of the algorithm. -/
theorem crcWorkedExample : Obligations.CrcWorkedExample := by
  unfold Obligations.CrcWorkedExample
  decide

end Sys2Proof.Proofs

/-!
The statements about the host port (45_host_operations.md). The two tests of `MemWrite` have an equation per bound, a
host access one for a registered unit and one for an absent unit, and `addDevice` one per check in the order of the
checks (R231). The cells of a created record are read off the banks of `seededDevice` (`HoldsRegSeed`, `HoldsBitSeed`).
-/

namespace Sys2Proof.Proofs

open Sys2Proof Sys2Proof.Machine Sys2Proof.Safety Sys2Proof.Laws

/-! ## The tests of `MemWrite` (R53) -/

theorem checkAddress_lower {a : Int} (h : a < 0) : checkAddress a = some ⟨.address, .lower⟩ := if_pos h

theorem checkAddress_upper {a : Int} (h : 65535 < a) : checkAddress a = some ⟨.address, .upper⟩ :=
  (if_neg (by omega)).trans (if_pos h)

theorem checkValue_lower {v : Int} (h : v < 0) : checkValue v = some ⟨.value, .lower⟩ := if_pos h

theorem checkValue_upper {v : Int} (h : 65535 < v) : checkValue v = some ⟨.value, .upper⟩ :=
  (if_neg (by omega)).trans (if_pos h)

section
variable (m : Memory) (u : Int) {a v : Int} {e : ValidationError}

theorem writeReg_badAddress (b : RegBank) (h : checkAddress a = some e) (v : Int) :
    writeReg m u b a v = .error e := by
  simp only [writeReg, h]

/-- The value is looked at only behind a good address (R53). -/
theorem writeReg_badValue (b : RegBank) (ha : 0 ≤ a ∧ a ≤ 65535) (h : checkValue v = some e) :
    writeReg m u b a v = .error e := by
  simp only [writeReg, checkAddress_eq_none.mpr ha, h]

theorem writeBit_badAddress (b : BitBank) (h : checkAddress a = some e) (v : Bool) :
    writeBit m u b a v = .error e := by
  simp only [writeBit, h]

end

/-- An address of a bank as a natural number (R52). -/
theorem exists_nat_address {a : Int} (hlo : 0 ≤ a) (hhi : a ≤ 65535) : ∃ n : Nat, n ≤ 65535 ∧ a = n :=
  ⟨a.toNat, by omega, by omega⟩

theorem toNat_ofInt_word {v : Int} (hlo : 0 ≤ v) (hhi : v ≤ 65535) : ((BitVec.ofInt 16 v).toNat : Int) = v := by
  rw [BitVec.toNat_ofInt]
  omega

/-- A value of a register as a 16-bit word (R21). -/
theorem exists_word_value {v : Int} (hlo : 0 ≤ v) (hhi : v ≤ 65535) : ∃ w : Word16, v = w.toNat :=
  ⟨BitVec.ofInt 16 v, (toNat_ofInt_word hlo hhi).symm⟩

/-! ## Host accesses, for a registered and for an absent unit (R238 to R246) -/

section
variable {s : State} {u : HostInt} (b : RegBank) (c : BitBank) (a v : HostInt) (w : Bool)

theorem getReg_present (h : present s.memory u.toInt = true) :
    getReg b u a s = (s, .register (readReg s.memory u.toInt b a.toInt)) := if_pos h

theorem getBit_present (h : present s.memory u.toInt = true) :
    getBit c u a s = (s, .bit (readBit s.memory u.toInt c a.toInt)) := if_pos h

theorem setReg_present (h : present s.memory u.toInt = true) :
    setReg b u a v s = finishHostWrite s (writeReg s.memory u.toInt b a.toInt v.toInt) := if_pos h

theorem setBit_present (h : present s.memory u.toInt = true) :
    setBit c u a w s = finishHostWrite s (writeBit s.memory u.toInt c a.toInt w) := if_pos h

theorem getReg_absent (h : present s.memory u.toInt = false) : getReg b u a s = (s, .error (.deviceNotFound u)) :=
  if_neg (by simp [h])

theorem getBit_absent (h : present s.memory u.toInt = false) : getBit c u a s = (s, .error (.deviceNotFound u)) :=
  if_neg (by simp [h])

theorem setReg_absent (h : present s.memory u.toInt = false) :
    setReg b u a v s = (s, .error (.deviceNotFound u)) := if_neg (by simp [h])

theorem setBit_absent (h : present s.memory u.toInt = false) :
    setBit c u a w s = (s, .error (.deviceNotFound u)) := if_neg (by simp [h])

/-- What a register read of a registered unit returns, in the form of R238 and R239. -/
theorem getReg_reads (h : present s.memory u.toInt = true) :
    ∃ r, getReg b u a s = (s, .register r) ∧ r = readReg s.memory u.toInt b a.toInt ∧
      ((a.toInt < 0 ∨ 65535 < a.toInt) → r = 0) :=
  ⟨_, getReg_present b a h, rfl, readReg_outside⟩

/-- What a bit read of a registered unit returns, in the form of R240 and R241. -/
theorem getBit_reads (h : present s.memory u.toInt = true) :
    ∃ r, getBit c u a s = (s, .bit r) ∧ r = readBit s.memory u.toInt c a.toInt ∧
      ((a.toInt < 0 ∨ 65535 < a.toInt) → r = false) :=
  ⟨_, getBit_present c a h, rfl, readBit_outside⟩

end

/-- Settles O49: each bound by its equation of `MemWrite`, a good write by the cell it changes. -/
theorem hostWritesRegister : Obligations.HostWritesRegister := by
  intro s u a v op b hop hp
  have hwrite : hostOp op s = finishHostWrite s (writeReg s.memory u.toInt b a.toInt v.toInt) := by
    rcases hop with ⟨rfl, rfl⟩ | ⟨rfl, rfl⟩ <;> exact setReg_present _ a v hp
  simp only [hwrite]
  refine ⟨fun ha => ?_, fun ha => ?_, fun hlo hhi => ⟨fun hv => ?_, fun hv => ?_, fun hvlo hvhi hw => ?_⟩⟩
  · rw [writeReg_badAddress _ _ b (checkAddress_lower ha)]; rfl
  · rw [writeReg_badAddress _ _ b (checkAddress_upper ha)]; rfl
  · rw [writeReg_badValue _ _ b ⟨hlo, hhi⟩ (checkValue_lower hv)]; rfl
  · rw [writeReg_badValue _ _ b ⟨hlo, hhi⟩ (checkValue_upper hv)]; rfl
  · obtain ⟨n, hn, ha⟩ := exists_nat_address hlo hhi
    obtain ⟨w, hv⟩ := exists_word_value hvlo hvhi
    rw [ha, hv, writeReg_inRange _ _ b hn]
    exact ⟨_, rfl, by rw [readReg_update_self hw hp b hn], fun _ _ _ => readReg_update_other,
      fun u' => readBit_update_setReg _ _ u' b n w⟩

/-- Settles O50: each bound by its equation of `MemWrite`, a good write by the cell it changes. -/
theorem hostWritesBit : Obligations.HostWritesBit := by
  intro s u a v op b hop hp
  have hwrite : hostOp op s = finishHostWrite s (writeBit s.memory u.toInt b a.toInt v) := by
    rcases hop with ⟨rfl, rfl⟩ | ⟨rfl, rfl⟩ <;> exact setBit_present _ a v hp
  simp only [hwrite]
  refine ⟨fun ha => ?_, fun ha => ?_, fun hlo hhi hw => ?_⟩
  · rw [writeBit_badAddress _ _ b (checkAddress_lower ha)]; rfl
  · rw [writeBit_badAddress _ _ b (checkAddress_upper ha)]; rfl
  · obtain ⟨n, hn, ha⟩ := exists_nat_address hlo hhi
    rw [ha, writeBit_inRange _ _ b hn]
    exact ⟨_, rfl, readBit_update_self hw hp b hn v, fun _ _ _ => readBit_update_other,
      fun u' => readReg_update_setBit _ _ u' b n v⟩

/-- Settles O51, by the equations of the accesses. -/
theorem hostReadsAndAbsentUnits : Obligations.HostReadsAndAbsentUnits := by
  intro s u a v w
  refine ⟨rfl, fun hp => ⟨getReg_reads .HR a hp, getReg_reads .IR a hp, getBit_reads .CO a hp, getBit_reads .DI a hp⟩,
    fun hp => ?_⟩
  simp only [List.forall_mem_cons, List.not_mem_nil, false_imp_iff, implies_true, and_true]
  exact ⟨getReg_absent .HR a hp, getReg_absent .IR a hp, getBit_absent .CO a hp, getBit_absent .DI a hp,
    setReg_absent .HR a v hp, setReg_absent .IR a v hp, setBit_absent .CO a w hp, setBit_absent .DI a w hp⟩

/-! ## `addDevice` refused (R231 to R233) -/

/-- A seed raises nothing exactly when every address and every register value is in range (R232). -/
theorem seedErrors_eq_nil {c : DeviceConfig} : seedErrors c = [] ↔
    (∀ p ∈ c.holding ++ c.input, (0 ≤ p.1.toInt ∧ p.1.toInt ≤ 65535) ∧ 0 ≤ p.2.toInt ∧ p.2.toInt ≤ 65535) ∧
    (∀ p ∈ c.coils ++ c.discrete, 0 ≤ p.1.toInt ∧ p.1.toInt ≤ 65535) := by
  simp only [seedErrors, List.append_eq_nil_iff, regSeedErrors_eq_nil, bitSeedErrors_eq_nil, List.forall_mem_append,
    and_assoc]

theorem field_of_checkAddress {a : Int} {e : ValidationError} (h : checkAddress a = some e) : e.field = .address := by
  unfold checkAddress at h
  split_ifs at h <;> cases h <;> rfl

theorem field_of_checkValue {v : Int} {e : ValidationError} (h : checkValue v = some e) : e.field = .value := by
  unfold checkValue at h
  split_ifs at h <;> cases h <;> rfl

theorem field_of_mem_regSeedErrors {l : List (HostInt × HostInt)} {e : ValidationError} (h : e ∈ regSeedErrors l) :
    e.field = .address ∨ e.field = .value := by
  obtain ⟨p, -, hp⟩ := List.mem_filterMap.mp h
  rcases Option.or_eq_some_iff.mp hp with ha | ⟨-, hv⟩
  · exact .inl (field_of_checkAddress ha)
  · exact .inr (field_of_checkValue hv)

theorem field_of_mem_bitSeedErrors {l : List (HostInt × Bool)} {e : ValidationError} (h : e ∈ bitSeedErrors l) :
    e.field = .address := by
  obtain ⟨p, -, hp⟩ := List.mem_filterMap.mp h
  exact field_of_checkAddress hp

/-- A seed's report is about an address or a value (R232, R247). -/
theorem field_of_mem_seedErrors {c : DeviceConfig} {e : ValidationError} (h : e ∈ seedErrors c) :
    e.field = .address ∨ e.field = .value := by
  simp only [seedErrors, List.mem_append] at h
  obtain ((h | h) | h) | h := h
  · exact field_of_mem_regSeedErrors h
  · exact field_of_mem_regSeedErrors h
  · exact .inl (field_of_mem_bitSeedErrors h)
  · exact .inl (field_of_mem_bitSeedErrors h)

theorem addDevice_badUnit {c : DeviceConfig} (h : c.unitId.toInt < 1 ∨ 247 < c.unitId.toInt) (s : State) :
    addDevice c s = (s, .error (.validation (unitIdError c.unitId.toInt))) :=
  if_pos (by simpa [Config.unitMin, Config.unitMax] using h)

section
variable {s : State} {c : DeviceConfig} (hlo : 1 ≤ c.unitId.toInt) (hhi : c.unitId.toInt ≤ 247)
include hlo hhi

theorem unitId_check : (decide (c.unitId.toInt < (Config.unitMin : Int)) ||
    decide (c.unitId.toInt > (Config.unitMax : Int))) = false := by
  simp [Config.unitMin, Config.unitMax, hlo, hhi]

theorem addDevice_inUse (h : present s.memory c.unitId.toInt = true) :
    addDevice c s = (s, .error (.deviceExists c.unitId)) := by
  simp only [addDevice, unitId_check hlo hhi, h, failHost, Bool.false_eq_true, if_false, if_true]

variable (hfree : present s.memory c.unitId.toInt = false)
include hfree

theorem addDevice_badTiming {t : TimingConfig} (ht : c.timing = some t) (h : legalTiming t = false) :
    addDevice c s = (s, .error (.validation ⟨.timing, Config.timingBound t⟩)) := by
  have hbad : c.timing.filter (fun t => !(legalTiming t)) = some t := by simp [ht, h]
  simp only [addDevice, unitId_check hlo hhi, hfree, failHost, hbad, Bool.false_eq_true, if_false]

variable (htiming : ∀ t, c.timing = some t → legalTiming t = true)
include htiming

theorem addDevice_badSeed {e : ValidationError} (h : seedError c = some e) :
    addDevice c s = (s, .error (.validation e)) := by
  simp only [addDevice, unitId_check hlo hhi, hfree, failHost, timing_filter_eq_none.mpr htiming, h,
    Bool.false_eq_true, if_false]

theorem addDevice_creates (h : seedErrors c = []) :
    addDevice c s = ({ s with memory := insertDevice (seededDevice c) s.memory }, .device (some (seededDevice c))) := by
  simp only [addDevice, unitId_check hlo hhi, hfree, timing_filter_eq_none.mpr htiming, seedError_eq_none.mpr h,
    Bool.false_eq_true, if_false]

end

/-- Settles O52, by the equation of each check. -/
theorem addDeviceRefusals : Obligations.AddDeviceRefusals := by
  intro s c
  refine ⟨fun h => ⟨_, addDevice_badUnit h s⟩, fun hlo hhi => ⟨addDevice_inUse hlo hhi, fun hfree =>
    ⟨fun t ht h => ⟨_, addDevice_badTiming hlo hhi hfree ht h⟩, fun htiming hbad => ?_⟩⟩⟩
  have hraises : seedErrors c ≠ [] := by
    rw [ne_eq, seedErrors_eq_nil]
    rintro ⟨hregs, hbits⟩
    rcases hbad with ⟨p, hp, hout⟩ | ⟨p, hp, hout⟩
    · have := hregs p hp
      omega
    · have := hbits p hp
      omega
  obtain ⟨e, he, hmem⟩ := seedError_mem hraises
  exact ⟨e, addDevice_badSeed hlo hhi hfree htiming he, field_of_mem_seedErrors hmem⟩

/-! ## `addDevice` creating a record (R231, R232) -/

/-- A register bank holds the values of a seed and is unset everywhere else (R232). -/
def HoldsRegSeed (l : List (HostInt × HostInt)) (bank : Bank Word16) : Prop :=
  (∀ p ∈ l, Bank.get unsetRegister bank p.1.toInt.toNat = BitVec.ofInt 16 p.2.toInt) ∧
  ∀ a : Nat, (∀ p ∈ l, p.1.toInt ≠ a) → Bank.get unsetRegister bank a = unsetRegister

/-- A bit bank holds the values of a seed and is unset everywhere else (R232). -/
def HoldsBitSeed (l : List (HostInt × Bool)) (bank : Bank Bool) : Prop :=
  (∀ p ∈ l, Bank.get unsetBit bank p.1.toInt.toNat = p.2) ∧
  ∀ a : Nat, (∀ p ∈ l, p.1.toInt ≠ a) → Bank.get unsetBit bank a = unsetBit

/-- A configuration of a good unit id whose seed raises nothing and names each address of a bank once (R231, R232). -/
structure CreatesRecord (c : DeviceConfig) : Prop where
  unit_lower : 1 ≤ c.unitId.toInt
  unit_upper : c.unitId.toInt ≤ 247
  seed_fits : seedErrors c = []
  holding_nodup : (c.holding.map Prod.fst).Nodup
  input_nodup : (c.input.map Prod.fst).Nodup
  coils_nodup : (c.coils.map Prod.fst).Nodup
  discrete_nodup : (c.discrete.map Prod.fst).Nodup

/-- Each bank of a created record holds its own seed: the runs over the other banks leave it alone. -/
theorem seededDevice_banks {c : DeviceConfig} (hc : CreatesRecord c) :
    HoldsRegSeed c.holding ((seededDevice c).regs .HR) ∧ HoldsRegSeed c.input ((seededDevice c).regs .IR) ∧
      HoldsBitSeed c.coils ((seededDevice c).bits .CO) ∧ HoldsBitSeed c.discrete ((seededDevice c).bits .DI) := by
  obtain ⟨hlo, hhi, hfits, hnHR, hnIR, hnCO, hnDI⟩ := hc
  simp only [seedErrors, List.append_eq_nil_iff, regSeedErrors_eq_nil, bitSeedErrors_eq_nil] at hfits
  obtain ⟨⟨⟨hHR, hIR⟩, hCO⟩, hDI⟩ := hfits
  have hHRaddr := fun p hp => (hHR p hp).1
  have hIRaddr := fun p hp => (hIR p hp).1
  have hw₀ := wf_freshDevice (u := c.unitId.toInt.toNat) (by omega) (by omega) c.timing
  have hw₁ := (seedRegs_wf (b := .HR) hw₀ hHRaddr).1
  have hw₂ := (seedRegs_wf (b := .IR) hw₁ hIRaddr).1
  have hw₃ := (seedBits_wf (b := .CO) hw₂ hCO).1
  obtain ⟨hset₁, hunset₁, hregs₁, hbits₁⟩ := seedRegs_get (b := .HR) hw₀ hHRaddr hnHR
  obtain ⟨hset₂, hunset₂, hregs₂, hbits₂⟩ := seedRegs_get (b := .IR) hw₁ hIRaddr hnIR
  obtain ⟨hset₃, hunset₃, hbits₃, hregs₃⟩ := seedBits_get (b := .CO) hw₂ hCO hnCO
  obtain ⟨hset₄, hunset₄, hbits₄, hregs₄⟩ := seedBits_get (b := .DI) hw₃ hDI hnDI
  rw [seededDevice, hregs₄, hregs₃, hregs₂ .HR (by decide), hregs₄, hregs₃, hbits₄ .CO (by decide)]
  rw [hregs₁ .IR (by decide)] at hunset₂
  rw [hbits₂, hbits₁] at hunset₃
  rw [hbits₃ .DI (by decide), hbits₂, hbits₁] at hunset₄
  exact ⟨⟨hset₁, hunset₁⟩, ⟨hset₂, hunset₂⟩, ⟨hset₃, hunset₃⟩, hset₄, hunset₄⟩

section
variable {m : Memory} {u : Int} {d : Device} (hd : findDevice m u = some d)
include hd

/-- What `MemRead` makes of a bank that holds a seed in range (R52, R232). -/
theorem readReg_of_holdsRegSeed {b : RegBank} {l : List (HostInt × HostInt)} (h : HoldsRegSeed l (d.regs b))
    (hl : ∀ p ∈ l, (0 ≤ p.1.toInt ∧ p.1.toInt ≤ 65535) ∧ 0 ≤ p.2.toInt ∧ p.2.toInt ≤ 65535) :
    (∀ p ∈ l, ((readReg m u b p.1.toInt).toNat : Int) = p.2.toInt) ∧
      ∀ a, (∀ p ∈ l, p.1.toInt ≠ a) → readReg m u b a = 0 := by
  refine ⟨fun p hp => ?_, fun a ha => ?_⟩
  · obtain ⟨haddr, hlo, hhi⟩ := hl p hp
    rw [readReg_found hd, if_pos (inRange_iff.mpr haddr), h.1 p hp, toNat_ofInt_word hlo hhi]
  · by_cases hr : 0 ≤ a ∧ a ≤ 65535
    · obtain ⟨n, -, rfl⟩ := exists_nat_address hr.1 hr.2
      rw [readReg_found hd, if_pos (inRange_iff.mpr hr)]
      exact h.2 n ha
    · exact readReg_outside (by omega)

/-- What `MemRead` makes of a bit bank that holds a seed in range (R52, R232). -/
theorem readBit_of_holdsBitSeed {b : BitBank} {l : List (HostInt × Bool)} (h : HoldsBitSeed l (d.bits b))
    (hl : ∀ p ∈ l, 0 ≤ p.1.toInt ∧ p.1.toInt ≤ 65535) :
    (∀ p ∈ l, readBit m u b p.1.toInt = p.2) ∧ ∀ a, (∀ p ∈ l, p.1.toInt ≠ a) → readBit m u b a = false := by
  refine ⟨fun p hp => ?_, fun a ha => ?_⟩
  · rw [readBit_found hd, if_pos (inRange_iff.mpr (hl p hp)), h.1 p hp]
  · by_cases hr : 0 ≤ a ∧ a ≤ 65535
    · obtain ⟨n, -, rfl⟩ := exists_nat_address hr.1 hr.2
      rw [readBit_found hd, if_pos (inRange_iff.mpr hr)]
      exact h.2 n ha
    · exact readBit_outside (by omega)

end

/-- A record put in under a free unit id is found there, and every other lookup stays (R31). -/
theorem findDevice_insert_free {m : Memory} {d : Device} {u : Int} (hu : (d.unitId : Int) = u)
    (hfree : present m u = false) (u' : Int) :
    findDevice (insertDevice d m) u' = if u = u' then some d else findDevice m u' := by
  subst hu
  exact findDevice_insertDevice m d (findDevice_of_not_present hfree) u'

/-- Settles O53: the record is put in under its free unit id, and its cells are those of its banks. -/
theorem addDeviceCreates : Obligations.AddDeviceCreates := by
  intro s c hlo hhi hfree htiming hregs hbits hnHR hnIR hnCO hnDI
  have hfits : seedErrors c = [] := seedErrors_eq_nil.mpr ⟨by simpa only [and_assoc] using hregs, hbits⟩
  obtain ⟨-, hunit, htm⟩ := seededDevice_wf hlo hhi hfits
  obtain ⟨hHR, hIR, hCO, hDI⟩ := seededDevice_banks ⟨hlo, hhi, hfits, hnHR, hnIR, hnCO, hnDI⟩
  have hfind := findDevice_insert_free hunit hfree
  have hd := (hfind c.unitId.toInt).trans (if_pos rfl)
  obtain ⟨hregfits, -⟩ := seedErrors_eq_nil.mp hfits
  obtain ⟨hHRfits, hIRfits⟩ := List.forall_mem_append.mp hregfits
  obtain ⟨hCOfits, hDIfits⟩ := List.forall_mem_append.mp hbits
  refine ⟨_, _, addDevice_creates hlo hhi hfree htiming hfits, hd, htm, ?_, ?_, fun u hu => ?_⟩
  · rintro b l (⟨rfl, rfl⟩ | ⟨rfl, rfl⟩)
    · exact readReg_of_holdsRegSeed hd hHR hHRfits
    · exact readReg_of_holdsRegSeed hd hIR hIRfits
  · rintro b l (⟨rfl, rfl⟩ | ⟨rfl, rfl⟩)
    · exact readBit_of_holdsBitSeed hd hCO hCOfits
    · exact readBit_of_holdsBitSeed hd hDI hDIfits
  · rw [hfind, if_neg hu.symm]

/-! ## `removeDevice`, `start` and `stop` -/

/-- Nothing happens for an absent unit (R234). -/
theorem dropDevice_absent {m : Memory} {u : Int} (h : present m u = false) : dropDevice m u = m := by
  refine List.filter_eq_self.mpr fun d hd => ?_
  have hnone := List.find?_eq_none.mp (findDevice_of_not_present h) d hd
  simpa using hnone

/-- Settles O54: the record is found no more, and a request to it is one to an unregistered unit. -/
theorem removeDeviceForgets : Obligations.RemoveDeviceForgets := by
  intro s u
  have hgone : findDevice (dropDevice s.memory u.toInt) u.toInt = none :=
    (findDevice_dropDevice _ _ _).trans (if_pos rfl)
  refine ⟨_, rfl, hgone, fun u' hu => (findDevice_dropDevice _ _ _).trans (if_neg hu), dropDevice_absent,
    fun x fc body hx => ?_⟩
  exact ⟨_, dispatchFrame_absent (by rw [hx]; exact hgone) fc body, rfl⟩

/-- Settles O55: either operation is its one assignment. -/
theorem startAndStop : Obligations.StartAndStop := fun _ => ⟨rfl, rfl⟩

end Sys2Proof.Proofs

/-!
The statements about exceptions and the timer (60_exceptions.md). What answers a frame is said once by its cause
(`AnsweredBy`), what ends a wait is read off `MoveEffect`, and the delay is bounded term by term.
-/

namespace Sys2Proof.Proofs

open Sys2Proof Sys2Proof.Machine Sys2Proof.Safety Sys2Proof.Laws

/-! ## The causes of the exception codes (R282, R283, R285) -/

/-- `c` answers a frame with the header `u`, `fc` over the device table `m`, by its cause: the unit is not registered, the
function code is not in the table, or a function of the table raised or succeeded. -/
inductive AnsweredBy (m : Memory) (u fc : Byte) : Frame → Prop
  | absent (hunit : present m (u.toNat : Int) = false) : AnsweredBy m u fc (excFrame u fc .gatewayTargetFailed)
  | unknown (hunit : present m (u.toNat : Int) = true) (hcode : fnOf fc = none) :
      AnsweredBy m u fc (excFrame u fc .illegalFunction)
  | raised {fn : Fn} (hunit : present m (u.toNat : Int) = true) (hcode : fnOf fc = some fn) :
      AnsweredBy m u fc (excFrame u fc .illegalDataValue)
  | success {fn : Fn} {r : Frame} (hunit : present m (u.toNat : Int) = true) (hcode : fnOf fc = some fn)
      (hr : r.getD 1 0x00 = fn.code) : AnsweredBy m u fc r

/-- An instruction to a registered unit is answered by its function: it succeeds or raises (R127). -/
theorem exec_answeredBy {i : Instr} {s t : State} (hunit : present s.memory (i.unit.toNat : Int) = true)
    (h : exec i s = .next t) : ∃ c, Answers s t c ∧ AnsweredBy s.memory i.unit i.fn.code c := by
  obtain ⟨m, tm, r, rfl, ⟨hnone, -⟩ | ⟨d, -, -, -, hreply⟩⟩ := exec_next h
  · simp [present, hnone] at hunit
  · refine ⟨r, answers_respond s m tm _ r, ?_⟩
    rcases hreply with hanswer | ⟨-, rfl⟩
    · obtain ⟨-, -, hr⟩ := answer_shape hanswer
      exact .success hunit (fnOf_code i.fn) hr
    · exact .raised hunit (fnOf_code i.fn)

/-- The dispatcher's answer to a frame of two or more bytes, by its cause (R122 to R127). -/
theorem dispatchFrame_answeredBy {u fc : Byte} {body : Frame} {s t : State}
    (h : dispatchFrame (u :: fc :: body) s = .next t) : ∃ c, Answers s t c ∧ AnsweredBy s.memory u fc c := by
  cases hd : findDevice s.memory (u.toNat : Int) with
  | none =>
    rw [dispatchFrame_absent hd] at h
    cases h
    exact ⟨_, answers_respond' s none _ _, .absent (by simp [present, hd])⟩
  | some d =>
    have hunit : present s.memory (u.toNat : Int) = true := present_iff.mpr ⟨d, hd⟩
    cases hfc : fnOf fc with
    | none =>
      rw [dispatchFrame_unknown hd hfc] at h
      cases h
      exact ⟨_, answers_respond' s d.timing _ _, .unknown hunit hfc⟩
    | some fn =>
      obtain rfl := code_of_fnOf fc fn hfc
      rcases decode_code_cases u fn body with ⟨i, hi, rfl, rfl⟩ | hshort
      · rw [dispatchFrame_instr hi] at h
        exact exec_answeredBy hunit h
      · rw [dispatchFrame_belowMinimum hd hshort] at h
        cases h
        exact ⟨_, answers_respond' s d.timing _ _, .raised hunit hfc⟩

/-- A success response is no exception frame of the request: bit 7 of its function code is clear (R131). -/
theorem success_ne_excFrame {fn : Fn} {fc : Byte} (hcode : fnOf fc = some fn) {r : Frame} (hr : r.getD 1 0x00 = fn.code)
    (u : Byte) (code : ExceptionCode) : r ≠ excFrame u fc code := by
  rintro rfl
  obtain rfl := code_of_fnOf fc fn hcode
  exact code_ne_withErrorBit fn hr.symm

theorem excFrame_inj {u fc : Byte} {code code' : ExceptionCode} :
    excFrame u fc code = excFrame u fc code' ↔ code = code' := by
  cases code <;> cases code' <;> simp [excFrame, ExceptionCode.byte]

/-- Code 0x01 has one cause: a registered unit and a function code that is not in the table (R282). -/
theorem illegalFunction_iff {m : Memory} {u fc : Byte} {c : Frame} (h : AnsweredBy m u fc c) :
    c = excFrame u fc .illegalFunction ↔ present m (u.toNat : Int) = true ∧ fnOf fc = none := by
  cases h with
  | absent hunit => simp [excFrame_inj, hunit]
  | unknown hunit hcode => simp [hunit, hcode]
  | raised hunit hcode => simp [excFrame_inj, hcode]
  | success hunit hcode hr => simp [success_ne_excFrame hcode hr, hcode]

/-- Code 0x0B has one cause: a unit that is not registered (R285). -/
theorem gatewayTargetFailed_iff {m : Memory} {u fc : Byte} {c : Frame} (h : AnsweredBy m u fc c) :
    c = excFrame u fc .gatewayTargetFailed ↔ present m (u.toNat : Int) = false := by
  cases h with
  | absent hunit => simp [hunit]
  | unknown hunit | raised hunit => simp [excFrame_inj, hunit]
  | success hunit hcode hr => simp [success_ne_excFrame hcode hr, hunit]

theorem answers_pending_iff {s t : State} {c c' : Frame} (h : Answers s t c) :
    t.pending = some (frameOut s.params c') ↔ c = c' :=
  ⟨answers_core_eq h, fun hc => hc ▸ h.pending⟩

/-- Settles O12, from the cause of an answer; a frame too short for a function code is answered with 0x03. -/
theorem exceptionCodesHaveTheirCauses : Obligations.ExceptionCodesHaveTheirCauses := by
  constructor
  · intro s t u fc body h
    obtain ⟨c, hanswers, hcause⟩ := dispatchFrame_answeredBy h
    have hgateway := (answers_pending_iff hanswers).trans (gatewayTargetFailed_iff hcause)
    refine ⟨?_, hgateway, fun hwf hu => hgateway.mpr (unregisteredUnitAnswered.2 s.memory u hwf hu)⟩
    rw [← fnOf_eq_none_iff_codes]
    exact (answers_pending_iff hanswers).trans (illegalFunction_iff hcause)
  · intro s t f h hshort u fc
    rw [dispatchFrame_short hshort] at h
    cases h
    have hanswers := answers_respond' s none f (excFrame (f.headD 0x00) 0x00 .illegalDataValue)
    rw [Ne, Ne, answers_pending_iff hanswers, answers_pending_iff hanswers]
    simp [excFrame, ExceptionCode.byte]

/-! ## The wait of a pending response (R309) -/

/-- Besides a reset, only the presentation of a response that is due ends its wait (R309). -/
theorem moveEffect_ends_wait {s t : State} {tr : Turn} (hreset : tr ≠ .reset) (hbusy : s.busy = true)
    (hidle : t.busy = false) (h : MoveEffect s tr t) :
    s.due.value ≤ s.waited.value ∧ t = presentResponse s := by
  cases h with
  | present _ hdue => exact ⟨hdue, rfl⟩
  | reset => exact absurd rfl hreset
  | drop _ hnot | accept _ hnot | clockIdle _ hnot => simp [hbusy] at hnot
  | submit | waits | clockBusy | notDue | host | take => simp [hbusy] at hidle

/-- Settles O39: the move of a step is no reset, and no other move but the presentation ends a wait. -/
theorem presentedNoSoonerThanDue : Obligations.PresentedNoSoonerThanDue := by
  intro s t h hbusy hidle hnoreset
  obtain ⟨tr, ts, heff, hwho⟩ := step_effect h
  have hreset : tr ≠ .reset := by
    rintro rfl
    rcases hwho with hlisted | ⟨-, -, hown⟩
    · exact hnoreset ts hlisted
    · simpa [← hown, WireTurn] using wireTurn_ownTurn s
  obtain ⟨hdue, rfl⟩ := moveEffect_ends_wait (s := { s with turns := ts }) hreset hbusy hidle heff
  exact ⟨hdue, rfl⟩

section
variable {s : State} (hbusy : s.busy = true) (hturns : s.turns = [])
include hbusy hturns

/-- Left to itself the block presents a response that is due. -/
theorem step_presents (hdue : s.due.value ≤ s.waited.value) : step s = .next (presentResponse s) := by
  have hle : RealNum.le s.due s.waited = true := (le_iff _ _).mpr hdue
  simp [step, hturns, ownTurn, hbusy, hle, takeTurn, timerTurn]

/-- Left to itself the block waits for what is missing to `DUE`. -/
theorem step_serves_wait (hearly : s.waited.value < s.due.value) :
    ∃ w, step s = .next { s with waited := w } ∧ w.value = s.due.value := by
  have hle : RealNum.le s.due s.waited = false := (le_eq_false_iff _ _).mpr hearly
  obtain ⟨w, hclock, hw⟩ := clockTurn_eq (RealNum.minus s.due s.waited) s
  refine ⟨w, by simp [step, hturns, ownTurn, hbusy, hle, takeTurn, hclock], ?_⟩
  simpa [hbusy, max_eq_right (sub_nonneg.mpr hearly.le)] using hw

end

/-- A step and then a run is a run of one step more. -/
theorem run_succ {s t : State} (h : step s = .next t) (k : Nat) :
    Host.Core.run core (k + 1) s = Host.Core.run core k t := by
  simp only [Host.Core.run, core, h]

/-- Settles O40: a response that is due is presented at once, one that is not after one wait. -/
theorem responsePresentedWithinTwoSteps : Obligations.ResponsePresentedWithinTwoSteps := by
  intro s hbusy hturns
  rcases le_or_gt s.due.value s.waited.value with hdue | hearly
  · exact ⟨1, presentResponse s, by decide, run_succ (step_presents hbusy hturns hdue) 0, rfl, rfl, rfl, rfl, rfl⟩
  · obtain ⟨w, hwait, hw⟩ := step_serves_wait hbusy hturns hearly
    have hpresent := step_presents (s := { s with waited := w }) hbusy hturns hw.ge
    exact ⟨2, presentResponse { s with waited := w }, le_rfl, (run_succ hwait 1).trans (run_succ hpresent 0),
      rfl, rfl, rfl, rfl, rfl⟩

/-! ## The register count of a request (R305) -/

/-- The functions whose requests carry a quantity field. -/
def quantityFns : List Fn :=
  [.readCoils, .readDiscreteInputs, .readHoldingRegisters, .readInputRegisters, .writeMultipleCoils,
    .writeMultipleRegisters]

/-- The quantity field of a frame's body, 0 when the body is too short to hold one. -/
def quantityField : Frame → Nat
  | _ :: _ :: ch :: cl :: _ => (be16 ch cl).toNat
  | _ => 0

theorem quantityField_held {body : Frame} (h : 4 ≤ body.length) :
    quantityField body = (body.getD 2 0).toNat * 256 + (body.getD 3 0).toNat := by
  match body with
  | _ :: _ :: ch :: cl :: _ => exact toNat_be16 ch cl
  | [] | [_] | [_, _] | [_, _, _] => simp at h

theorem quantityField_short {body : Frame} (h : body.length < 4) : quantityField body = 0 := by
  match body with
  | _ :: _ :: _ :: _ :: _ => simp only [List.length_cons] at h; omega
  | [] | [_] | [_, _] | [_, _, _] => rfl

theorem registerCount_quantity {fn : Fn} (h : fn ∈ quantityFns) (u : Byte) (body : Frame) :
    registerCount (u :: fn.code :: body) = quantityField body := by
  cases fn with
  | writeSingleCoil | writeSingleRegister => simp [quantityFns] at h
  | readCoils | readDiscreteInputs | readHoldingRegisters | readInputRegisters | writeMultipleCoils
  | writeMultipleRegisters =>
    simp only [registerCount, fnOf_code]
    rfl

theorem registerCount_single {fn : Fn} (h : fn = .writeSingleCoil ∨ fn = .writeSingleRegister) (u : Byte)
    (body : Frame) : registerCount (u :: fn.code :: body) = 1 := by
  rcases h with rfl | rfl <;> simp only [registerCount, fnOf_code]

theorem registerCount_unknown {fc : Byte} (h : fnOf fc = none) (u : Byte) (body : Frame) :
    registerCount (u :: fc :: body) = 0 := by
  simp only [registerCount, h]

theorem registerCount_short {f : Frame} (h : f.length < 2) : registerCount f = 0 := by
  match f with
  | [] | [_] => rfl
  | _ :: _ :: _ => simp at h

/-- Settles O41, by the equations of `registerCount`. -/
theorem registerCountOfRequest : Obligations.RegisterCountOfRequest := by
  refine ⟨fun u fc body => ⟨?_, fun hfc => ?_, fun h6 hm => ?_⟩, fun f => registerCount_short, value_perRegister⟩
  · rintro (rfl | rfl)
    · exact registerCount_single (.inl rfl) u body
    · exact registerCount_single (.inr rfl) u body
  · obtain ⟨fn, hfn, rfl⟩ : ∃ fn ∈ quantityFns, fn.code = fc := List.mem_map.mp hfc
    rw [registerCount_quantity hfn]
    exact ⟨quantityField_held, quantityField_short⟩
  · exact registerCount_unknown (fnOf_eq_none_iff_codes.mpr ⟨h6, hm⟩) u body

/-! ## The terms of the delay and their bounds (R301 to R306) -/

/-- A term whose least and greatest values are not negative and whose value lies between them. -/
structure TermWithin (range : ℝ × ℝ) (x : ℝ) : Prop where
  nonneg : 0 ≤ range.1
  least : range.1 ≤ x
  greatest : x ≤ range.2

theorem termWithin_zero {x : ℝ} (h : x = 0) : TermWithin (0, 0) x := ⟨le_rfl, h.ge, h.le⟩

/-- A sample of a legal setting lies between the setting's bounds (R302 to R304). -/
theorem sampleSetting_within {d : DelaySetting} (h : legalSetting d = true) (k : Nat) :
    TermWithin (settingRange d) (sampleSetting k d).1.value := by
  cases d with
  | fixed v => exact ⟨by simpa [legalSetting, settingRange] using h, le_rfl, le_rfl⟩
  | range a b =>
    obtain ⟨ha, hab⟩ : 0 ≤ a.value ∧ a.value ≤ b.value := by simpa [legalSetting] using h
    obtain ⟨hleast, hgreatest⟩ := draw_mem hab k
    exact ⟨ha, hleast, hgreatest⟩

section
variable {t : TimingConfig} (ht : legalTiming t = true)
include ht

/-- The detection term, in the order of its forms (R302). -/
theorem detection_within (k : Nat) : TermWithin (detectionRange t) (detection t k).1.value := by
  obtain ⟨hdetection, hpolling, -⟩ := legalTiming_iff.mp ht
  unfold detectionRange detection
  cases hd : t.detectionDelay with
  | some d => exact sampleSetting_within (hdetection d hd) k
  | none =>
    cases hp : t.pollingInterval with
    | some p =>
      obtain ⟨-, hgreatest⟩ := draw_mem (lo := .rat 0) (by simpa using hpolling p hp) k
      exact ⟨le_rfl, by simp, hgreatest⟩
    | none => exact termWithin_zero (by simp)

/-- The processing term (R304). -/
theorem processing_within (k : Nat) : TermWithin (processingRange t) (processing t k).1.value := by
  obtain ⟨-, -, hprocessing, -⟩ := legalTiming_iff.mp ht
  unfold processingRange processing
  cases hd : t.processingDelay with
  | some d => exact sampleSetting_within (hprocessing d hd) k
  | none => exact termWithin_zero (by simp)

/-- The per-register term is not negative (R305). -/
theorem perRegister_nonneg (f : Frame) : 0 ≤ (perRegister t f).value := by
  obtain ⟨-, -, -, hrate, -⟩ := legalTiming_iff.mp ht
  rw [value_perRegister]
  refine mul_nonneg ?_ (Nat.cast_nonneg _)
  cases hr : t.perRegisterDelay with
  | some r => exact hrate r hr
  | none => simp

/-- The transmission term is not negative (R306). -/
theorem transmission_nonneg (p : Params) (f : Frame) : 0 ≤ (transmission p t f).value := by
  obtain ⟨-, -, -, -, hbaud, -⟩ := legalTiming_iff.mp ht
  have hrate : 0 ≤ (t.baudRate.getD (.rat 0)).value := by
    cases hb : t.baudRate with
    | some b => exact (hbaud b hb).le
    | none => simp
  rw [value_transmission]
  split_ifs
  · positivity
  · exact le_rfl

end

/-- Settles O42: two sampled terms within their ranges, and two fixed terms that are not negative. -/
theorem delayWithinItsTerms : Obligations.DelayWithinItsTerms := by
  intro p t f k ht fixedPart
  have hfixed : (perRegister t f).value + (transmission p t f).value = fixedPart := by
    rw [value_perRegister, value_transmission]
    rfl
  obtain ⟨hd0, hdleast, hdgreatest⟩ := detection_within ht k
  obtain ⟨hp0, hpleast, hpgreatest⟩ := processing_within ht (detection t k).2
  have hr0 := perRegister_nonneg ht f
  have ht0 := transmission_nonneg ht p f
  rw [value_delay, ← hfixed]
  exact ⟨by linarith, by linarith, by linarith⟩

/-- Settles O43: the bounds of the delay, evaluated for the configurations of R308. -/
theorem delayWorkedExample : Obligations.DelayWorkedExample := by
  intro p k hcrc
  refine ⟨?_, fun f => ⟨?_, ?_⟩⟩
  · intro d
    have hrange : (2 : ℝ) ≤ 4 := by norm_num
    have hcount : registerCount [0x01, 0x03, 0x00, 0x00, 0x00, 0x0A] = 10 := by decide
    obtain ⟨hleast, hgreatest, -⟩ : _ ≤ d ∧ d ≤ _ ∧ _ :=
      delayWithinItsTerms p _ _ k (legalTiming_iff.mpr (by simp [legalSetting, hrange]))
    rw [hcount] at hleast hgreatest
    norm_num [detectionRange, processingRange, settingRange, hcrc] at hleast hgreatest
    exact ⟨hleast, hgreatest⟩
  · intro d
    obtain ⟨hleast, hgreatest, -⟩ : _ ≤ d ∧ d ≤ _ ∧ _ :=
      delayWithinItsTerms p _ f k (legalTiming_iff.mpr (by simp [TimingConfig.empty]))
    constructor
    · simpa [detectionRange, processingRange, TimingConfig.empty] using hleast
    · simpa [detectionRange, processingRange, TimingConfig.empty] using hgreatest
  · obtain ⟨hleast, hgreatest, -⟩ := delayWithinItsTerms p TimingConfig.empty f k
      (legalTiming_iff.mpr (by simp [TimingConfig.empty]))
    refine le_antisymm (hgreatest.trans_eq ?_) (hleast.trans_eq' ?_) <;>
      simp [detectionRange, processingRange, TimingConfig.empty]

end Sys2Proof.Proofs

/-!
The statement about reset (70_reset_and_hazards.md). What the state is afterwards is said by the `resetTurn` lemmas of
Laws/State.
-/

namespace Sys2Proof.Proofs

open Sys2Proof Sys2Proof.Machine Sys2Proof.Safety Sys2Proof.Laws

/-- A listed reset is taken in every state, whatever waits (R331). -/
theorem step_reset {s : State} {ts : List Turn} (h : s.turns = .reset :: ts) :
    step s = .next (resetTurn { s with turns := ts }) := by
  simp only [step, h, takeTurn]

/-- An empty device table holds no unit (R331). -/
@[simp] theorem present_nil (u : Int) : present [] u = false := rfl

/-- Settles O56: the step is the reset move, and each field after it is the one `resetTurn` gives. -/
theorem resetClearsTheBlock : Obligations.ResetClearsTheBlock := by
  intro s ts hturns
  refine ⟨resetTurn { s with turns := ts }, step_reset hturns, resetTurn_memory _, fun u => ?_, resetTurn_run _,
    resetTurn_busy _, resetTurn_pending _, resetTurn_due _, resetTurn_waited _, resetTurn_requests _,
    resetTurn_params _⟩
  rw [resetTurn_memory, present_nil]

end Sys2Proof.Proofs

/-!
The statement about the model's own probe of an opcode-table word (logs 10 and 11). A frame offered by `offerFrame` comes
back whole from the framing stage, so it is the accepted request of `StepRunsDecodedInstruction`.
-/

namespace Sys2Proof.Proofs

open Sys2Proof Sys2Proof.Machine Sys2Proof.Safety Sys2Proof.Laws

/-- An instruction of an opcode-table word is what the word's frame decodes to (log 10). -/
theorem decodeTableWord_eq_some {nbits w : Nat} {i : Instr} :
    decodeTableWord nbits w = some i ↔ decode (tableFrame nbits w) = .instr i := by
  unfold decodeTableWord
  cases decode (tableFrame nbits w) <;> simp

/-- An offered frame that is within `MAX_FRAME_BYTES` is accepted and its instruction run by the next step. -/
theorem step_offerFrame {s : State} {f : Frame} {i : Instr} (hdecode : decode f = .instr i)
    (hfits : fitsChannel s.params (channelLength s.params f.length) = true) :
    step (offerFrame f s) = exec i { goIdle s with run := true } := by
  have hwire : fitsChannel s.params (frameOut s.params f).length = true := by rwa [length_frameOut]
  exact stepRunsDecodedInstruction (offerFrame f s) _ f s.requests s.turns i (offerFrame_run s f) (offerFrame_busy s f)
    (offerFrame_requests s f) (.inl (offerFrame_turns s f)) hwire (frameIn_frameOut s.params f) hdecode

/-- Settles O5: `withFetchWord` offers the word's frame. -/
theorem fetchWordRunsItsInstruction : Obligations.FetchWordRunsItsInstruction := fun _ _ _ _ hword hfits =>
  step_offerFrame (decodeTableWord_eq_some.mp hword) hfits

end Sys2Proof.Proofs
